-- ==== Sys2Proof/Word.lean ====
section
/-! DEFINITION. Bytes and channel identifiers: the plain types every other file uses. -/

namespace Sys2Proof

/-- A byte of a frame, a payload, a received buffer or the flash array (00_scope.md R8, R10). -/
abbrev Byte := BitVec 8

/-- A channel identifier: an uninterpreted name whose values are whatever the transport accepts
(10_state.md R31; a natural with no bound, 92_eei_decisions.md D41). -/
abbrev ChanId := Nat

end Sys2Proof
end

