-- ==== Sys2Proof/Config.lean ====
section
/-! DEFINITION. The block's configuration (00_scope.md R7, 10_state.md R44), the fixed constants of
the spec, and the free values: what the spec calls a draw (00_scope.md R17). -/

namespace Sys2Proof

/-- `UID_LEN`, OPEN in the spec, is one of two lengths (00_scope.md R7, 42_status_id.md R184). -/
inductive UidLen where
  | eight
  | sixteen
deriving DecidableEq, Repr

/-- The Unique ID length in bytes. -/
def UidLen.toNat : UidLen → Nat
  | .eight => 8
  | .sixteen => 16

/-- The implementation parameters of 00_scope.md R7. Intervals are in milliseconds. No request reads
or writes them as state (10_state.md R44); a claim about every state is a claim about every
configuration. -/
structure Config where
  /-- `UID_LEN`, OPEN: 8 or 16. -/
  uidLen : UidLen
  /-- `HAS_ERASE32`, OPEN. -/
  hasErase32 : Bool
  /-- `POLL_MAX`, OPEN, at least 1 (`Config.wf`). -/
  pollMax : Nat
  /-- `POLL_INTERVAL_SECTOR`, default 10 ms. -/
  pollIntervalSector : Nat
  /-- `POLL_INTERVAL_BLOCK`, default 50 ms. -/
  pollIntervalBlock : Nat
  /-- `POLL_INTERVAL_CHIP`, default 500 ms. -/
  pollIntervalChip : Nat
  /-- `POLL_INTERVAL_PP`, default 5 ms. -/
  pollIntervalPP : Nat
  /-- `T_TURNAROUND_MIN`, OPEN: a lower bound on every interval (`Config.wf`). -/
  tTurnaroundMin : Nat
  /-- `PAD_BYTE`, default 0x00. -/
  padByte : Byte
deriving DecidableEq, Repr

/-- What the spec asks of a configuration: `POLL_MAX ≥ 1` (00_scope.md R7) and every poll interval at
least `T_TURNAROUND_MIN` (45_busy_poller.md R232). No step checks it. -/
abbrev Config.wf (c : Config) : Prop :=
  1 ≤ c.pollMax ∧ c.tTurnaroundMin ≤ c.pollIntervalSector ∧ c.tTurnaroundMin ≤ c.pollIntervalBlock ∧
    c.tTurnaroundMin ≤ c.pollIntervalChip ∧ c.tTurnaroundMin ≤ c.pollIntervalPP

/-- The configuration after reset: the spec's defaults (00_scope.md R7), and for the OPEN parameters
the values its test vectors assume (95_test_vectors.md). DESIGN CHOICE, unsafe for a claim about
`State.reset` alone: log entry 5. -/
def Config.standard : Config where
  uidLen := .eight
  hasErase32 := true
  pollMax := 8
  pollIntervalSector := 10
  pollIntervalBlock := 50
  pollIntervalChip := 500
  pollIntervalPP := 5
  tTurnaroundMin := 0
  padByte := 0x00#8

/-- `ADDR_TX_LIMIT`: the first address that cannot be transmitted (00_scope.md R7). -/
def Config.addrTxLimit : Nat := 0x1000000

/-- The number of bytes of the flash array, `2^25` (20_memory.md R60). -/
def Config.arraySize : Nat := 0x2000000

/-- `PAGE_SIZE`: the largest Page Program payload and the size of a page (00_scope.md R7,
20_memory.md R62). -/
def Config.pageSize : Nat := 256

/-- `EXPECTED_JEDEC`: manufacturer, memory type, capacity (42_status_id.md R183). -/
def Config.expectedJedec : List Byte := [0x9D#8, 0x60#8, 0x19#8]

/-- Free value: a byte the spec leaves to a draw (00_scope.md R17, 20_memory.md R90), number `k` of the
run. DESIGN CHOICE, safe: log entry 6. -/
opaque Config.freeByte : Nat → Byte

/-- Free value: a busy count `N` the spec leaves to a draw (20_memory.md R85, R87), number `k` of the
run. DESIGN CHOICE, safe: log entry 6. -/
opaque Config.freeNat : Nat → Nat

/-- Free value: the count an unconstrained transport returns (00_scope.md R12, R17), number `k` of the
run. DESIGN CHOICE, safe: log entry 6. -/
opaque Config.freeCount : Nat → Int

end Sys2Proof
end

