-- ==== Sys2Proof/Syntax.lean ====
section
/-! DEFINITION. The device commands (30_encoding.md R102), the frame formats (R101), and the host's
requests (R113). `Instr` holds the requests that emit a command, one constructor per row of
spec/opcode_table.json; BEGIN and DECODE send no frame, have no row there, and stand beside `Instr`
in `Request`. -/

namespace Sys2Proof

/-- The 13 commands the block emits, without operands (30_encoding.md R102). -/
inductive Command where
  | readStatus
  | readJedecId
  | readUniqueId
  | read
  | fastRead
  | writeEnable
  | writeDisable
  | pageProgram
  | sectorErase
  | blockErase32K
  | blockErase64K
  | chipErase
  | deepPowerDown
deriving DecidableEq, Repr

/-- The eight frame formats of 30_encoding.md R101, in its order: `F_OP`, `F_OP_RX1`, `F_OP_RX3`,
`F_OP_RSV_RX`, `F_ADDR`, `F_ADDR_RX`, `F_ADDR_DUMMY_RX`, `F_ADDR_TX`. -/
inductive Format where
  | op
  | opRx1
  | opRx3
  | opRsvRx
  | addr
  | addrRx
  | addrDummyRx
  | addrTx
deriving DecidableEq, Repr

/-- `AddrOperand ::= Linear(a) | SectorOff(s, off)` (30_encoding.md R113). -/
inductive AddrOperand where
  | linear (a : Nat)
  | sectorOff (s off : Nat)
deriving DecidableEq, Repr

/-- The requests that emit a command, with the operands of 30_encoding.md R113: one constructor per
row of the opcode table. -/
inductive Instr where
  | readStatus
  | readJedecId
  | readUniqueId
  | read (x : AddrOperand) (n : Nat)
  | fastRead (x : AddrOperand) (n : Nat)
  | writeEnable
  | writeDisable
  | pageProgram (x : AddrOperand) (payload : List Byte)
  | sectorErase (s : Nat) (wait : Bool)
  | blockErase32K (b : Nat) (wait : Bool)
  | blockErase64K (b : Nat) (wait : Bool)
  | chipErase (wait : Bool)
  | deepPowerDown
deriving DecidableEq, Repr

/-- The queries of the address decoder (41_address_decoder.md, `DecodeQuery`). -/
inductive DecodeQuery where
  | sectorAddr (s : Nat)
  | block32Addr (b : Nat)
  | block64Addr (b : Nat)
  | sectorOf (a : Nat)
  | sectorOffset (a : Nat)
  | block32Of (a : Nat)
  | block32Offset (a : Nat)
  | block64Of (a : Nat)
  | block64Offset (a : Nat)
  | linear (s off : Nat)
deriving DecidableEq, Repr

/-- The host's closed set of 15 requests (30_encoding.md R113): BEGIN, DECODE, and the 13 that emit a
command. -/
inductive Request where
  | beginOn (ch : ChanId)
  | decode (q : DecodeQuery)
  | command (i : Instr)
deriving DecidableEq, Repr

/-- The kinds of poll (45_busy_poller.md R230). -/
inductive PollKind where
  | pp
  | sector
  | block
  | chip
deriving DecidableEq, Repr

/-- The command a request emits (30_encoding.md R102: the request carries its command's mnemonic). -/
def Instr.toCommand : Instr → Command
  | .readStatus => .readStatus
  | .readJedecId => .readJedecId
  | .readUniqueId => .readUniqueId
  | .read _ _ => .read
  | .fastRead _ _ => .fastRead
  | .writeEnable => .writeEnable
  | .writeDisable => .writeDisable
  | .pageProgram _ _ => .pageProgram
  | .sectorErase _ _ => .sectorErase
  | .blockErase32K _ _ => .blockErase32K
  | .blockErase64K _ _ => .blockErase64K
  | .chipErase _ => .chipErase
  | .deepPowerDown => .deepPowerDown

/-- The mutating operations (00_scope.md R19): Page Program and the four erases. -/
def Command.mutating : Command → Bool
  | .pageProgram | .sectorErase | .blockErase32K | .blockErase64K | .chipErase => true
  | .readStatus | .readJedecId | .readUniqueId | .read | .fastRead | .writeEnable | .writeDisable
  | .deepPowerDown => false

end Sys2Proof
end

