-- ==== Sys2Proof/WellFormed.lean ====
section
/-! DEFINITION. Which terms are requests of 30_encoding.md R113 (`wf`: every address, index and offset
is a `Nat32`), and which requests have a frame (`framable`: the conditions under which
40_framing.md R136 and 46_page_program.md R261 let the block build the command frame). -/

namespace Sys2Proof

/-- `Nat32`: a natural below `2^32` (30_encoding.md R113, 92_eei_decisions.md D41). -/
def isNat32 (n : Nat) : Bool := decide (n < 0x100000000)

/-- An address operand whose numbers are `Nat32` (30_encoding.md R113). -/
def AddrOperand.wf : AddrOperand → Bool
  | .linear a => isNat32 a
  | .sectorOff s off => isNat32 s && isNat32 off

/-- A request of 30_encoding.md R113. Read lengths and payload lengths have no bound there (D18, D41):
a payload over 256 bytes is a request, and ends in `INVALID_LENGTH` (46_page_program.md R261). -/
def Instr.wf : Instr → Bool
  | .readStatus | .readJedecId | .readUniqueId | .writeEnable | .writeDisable | .deepPowerDown => true
  | .read x _ | .fastRead x _ | .pageProgram x _ => x.wf
  | .sectorErase s _ => isNat32 s
  | .blockErase32K b _ => isNat32 b
  | .blockErase64K b _ => isNat32 b
  | .chipErase _ => true

/-- A decoder query whose operands are `Nat32` (41_address_decoder.md). -/
def DecodeQuery.wf : DecodeQuery → Bool
  | .sectorAddr n | .block32Addr n | .block64Addr n | .sectorOf n | .sectorOffset n | .block32Of n
  | .block32Offset n | .block64Of n | .block64Offset n => isNat32 n
  | .linear s off => isNat32 s && isNat32 off

/-- A request of the closed set (30_encoding.md R113, 60_exceptions.md R323). -/
def Request.wf : Request → Bool
  | .beginOn _ => true
  | .decode q => q.wf
  | .command i => i.wf

/-- An address operand that can be framed: the offset is inside its sector (41_address_decoder.md
R164) and the effective address is below `2^24` (30_encoding.md R103). -/
def AddrOperand.framable : AddrOperand → Bool
  | .linear a => decide (a < Config.addrTxLimit)
  | .sectorOff s off => decide (off < 4096) && decide (s < 4096)

/-- A request whose command frame the block builds: addresses and indices in the transmissible window
(41_address_decoder.md R166) and a payload of at most 256 bytes (30_encoding.md R108). -/
def Instr.framable : Instr → Bool
  | .readStatus | .readJedecId | .readUniqueId | .writeEnable | .writeDisable | .deepPowerDown => true
  | .read x _ | .fastRead x _ => x.framable
  | .pageProgram x d => x.framable && decide (d.length ≤ Config.pageSize)
  | .sectorErase s _ => decide (s < 4096)
  | .blockErase32K b _ => decide (b < 512)
  | .blockErase64K b _ => decide (b < 256)
  | .chipErase _ => true

end Sys2Proof
end

