-- ==== Sys2Proof/Decode.lean ====
section
/-! DEFINITION. Frames as bytes: the opcode map (30_encoding.md R102), the decoder, total on any list of
bytes and rejecting by name, and after it the encoder, which lays out the frame of a request by the
format table (R101). A frame carries neither the `wait` operand nor the `SectorOff` form (R112, R113);
`Instr.onWire` is what of a request its frame carries (DESIGN CHOICE, log entry 15). -/

namespace Sys2Proof

/-- The opcode, the whole of byte 0 (30_encoding.md R102). -/
def Command.opcode : Command → Byte
  | .readStatus => 0x05#8
  | .readJedecId => 0x9F#8
  | .readUniqueId => 0x4B#8
  | .read => 0x03#8
  | .fastRead => 0x0B#8
  | .writeEnable => 0x06#8
  | .writeDisable => 0x04#8
  | .pageProgram => 0x02#8
  | .sectorErase => 0x20#8
  | .blockErase32K => 0x52#8
  | .blockErase64K => 0xD8#8
  | .chipErase => 0xC7#8
  | .deepPowerDown => 0xB9#8

/-- The format of each command's frame (30_encoding.md R102). -/
def Command.format : Command → Format
  | .readStatus => .opRx1
  | .readJedecId => .opRx3
  | .readUniqueId => .opRsvRx
  | .read => .addrRx
  | .fastRead => .addrDummyRx
  | .writeEnable => .op
  | .writeDisable => .op
  | .pageProgram => .addrTx
  | .sectorErase => .addr
  | .blockErase32K => .addr
  | .blockErase64K => .addr
  | .chipErase => .op
  | .deepPowerDown => .op

/-- Every command, in the order of 30_encoding.md R102. -/
def Command.all : List Command :=
  [.readStatus, .readJedecId, .readUniqueId, .read, .fastRead, .writeEnable, .writeDisable,
    .pageProgram, .sectorErase, .blockErase32K, .blockErase64K, .chipErase, .deepPowerDown]

/-- The command a receiver tells from byte 0 (30_encoding.md R102: match = the opcode, mask = 0xFF);
none for a byte the block never emits (R111). -/
def Command.ofOpcode? (b : Byte) : Option Command :=
  Command.all.find? fun k => k.opcode == b

/-- `Pad(k)`: `k` copies of `PAD_BYTE` (00_scope.md R10). -/
def pad (c : Config) (k : Nat) : List Byte := List.replicate k c.padByte

/-- The three bytes `[a[23:16], a[15:8], a[7:0]]` (20_memory.md R65, 30_encoding.md R103). Bits above 23
are never transmitted. -/
def addrBytes (a : Nat) : List Byte :=
  [BitVec.ofNat 8 (a >>> 16), BitVec.ofNat 8 (a >>> 8), BitVec.ofNat 8 a]

/-- The address three bytes stand for, most significant first (20_memory.md R65, R81). -/
def ofAddrBytes (b1 b2 b3 : Byte) : Nat :=
  b1.toNat <<< 16 ||| b2.toNat <<< 8 ||| b3.toNat

/-- Why a list of bytes is no frame of the block. -/
inductive DecodeError where
  /-- No byte at all: a frame has at least its opcode (30_encoding.md R100). -/
  | empty
  /-- Byte 0 is none of the 13 opcodes (30_encoding.md R111). -/
  | unknownOpcode (b : Byte)
  /-- The bytes after the opcode do not have the command's format: a wrong length, or a placeholder,
  dummy or reserved byte other than `PAD_BYTE` (30_encoding.md R101, R104 to R108). -/
  | badFormat (k : Command)
  /-- An erase address that is not its region's first byte, which the block never sends
  (20_memory.md R70). -/
  | unalignedErase (k : Command) (a : Nat)
deriving DecidableEq, Repr

/-- What the bytes after the opcode carry: the address, the number of read placeholders, the payload. -/
structure FrameFields where
  addr : Nat := 0
  readLen : Nat := 0
  payload : List Byte := []
deriving DecidableEq, Repr

/-- The fields of the bytes after the opcode, if they have the format (30_encoding.md R101). -/
def Format.parse (c : Config) : Format → List Byte → Option FrameFields
  | .op, rest => if rest = [] then some {} else none
  | .opRx1, rest => if rest = pad c 1 then some {} else none
  | .opRx3, rest => if rest = pad c 3 then some {} else none
  | .opRsvRx, rest => if rest = pad c (4 + c.uidLen.toNat) then some {} else none
  | .addr, [b1, b2, b3] => some { addr := ofAddrBytes b1 b2 b3 }
  | .addr, _ => none
  | .addrRx, b1 :: b2 :: b3 :: t =>
    if t = pad c t.length then some { addr := ofAddrBytes b1 b2 b3, readLen := t.length } else none
  | .addrRx, _ => none
  | .addrDummyRx, b1 :: b2 :: b3 :: d :: t =>
    if d :: t = pad c (t.length + 1) then some { addr := ofAddrBytes b1 b2 b3, readLen := t.length }
    else none
  | .addrDummyRx, _ => none
  | .addrTx, b1 :: b2 :: b3 :: t =>
    if t.length ≤ Config.pageSize then some { addr := ofAddrBytes b1 b2 b3, payload := t } else none
  | .addrTx, _ => none

/-- The index of an erase from its frame's address, `address = index << shift` (30_encoding.md R110). -/
def eraseIndex (k : Command) (shift a : Nat) : Except DecodeError Nat :=
  if a % 2 ^ shift = 0 then .ok (a >>> shift) else .error (.unalignedErase k a)

/-- The request a frame's command and fields stand for. The `wait` operand, which no frame carries, is
false, and an address is `Linear` (DESIGN CHOICE, log entry 15). -/
def Command.request (k : Command) (f : FrameFields) : Except DecodeError Instr :=
  match k with
  | .readStatus => .ok .readStatus
  | .readJedecId => .ok .readJedecId
  | .readUniqueId => .ok .readUniqueId
  | .read => .ok (.read (.linear f.addr) f.readLen)
  | .fastRead => .ok (.fastRead (.linear f.addr) f.readLen)
  | .writeEnable => .ok .writeEnable
  | .writeDisable => .ok .writeDisable
  | .pageProgram => .ok (.pageProgram (.linear f.addr) f.payload)
  | .sectorErase => (eraseIndex k 12 f.addr).map (.sectorErase · false)
  | .blockErase32K => (eraseIndex k 15 f.addr).map (.blockErase32K · false)
  | .blockErase64K => (eraseIndex k 16 f.addr).map (.blockErase64K · false)
  | .chipErase => .ok (.chipErase false)
  | .deepPowerDown => .ok .deepPowerDown

/-- The request a frame stands for, or the reason why the bytes are no frame of the block. The frame is
the whole list: its length is not encoded in it (30_encoding.md R112). -/
def decode (c : Config) : List Byte → Except DecodeError Instr
  | [] => .error .empty
  | b :: rest =>
    match Command.ofOpcode? b with
    | none => .error (.unknownOpcode b)
    | some k =>
      match k.format.parse c rest with
      | none => .error (.badFormat k)
      | some f => k.request f

/-- The address operand's number as it is framed (40_framing.md R136, 41_address_decoder.md R164),
without the range checks, which `Instr.framable` states. -/
def AddrOperand.address : AddrOperand → Nat
  | .linear a => a
  | .sectorOff s off => s <<< 12 ||| off

/-- What a request puts into its frame's fields (30_encoding.md R103, R106, R107, R110). -/
def Instr.fields : Instr → FrameFields
  | .readStatus | .readJedecId | .readUniqueId | .writeEnable | .writeDisable | .deepPowerDown => {}
  | .read x n | .fastRead x n => { addr := x.address, readLen := n }
  | .pageProgram x d => { addr := x.address, payload := d }
  | .sectorErase s _ => { addr := s <<< 12 }
  | .blockErase32K b _ => { addr := b <<< 15 }
  | .blockErase64K b _ => { addr := b <<< 16 }
  | .chipErase _ => {}

/-- The bytes after the opcode, by format (30_encoding.md R101). -/
def Format.layout (c : Config) (f : FrameFields) : Format → List Byte
  | .op => []
  | .opRx1 => pad c 1
  | .opRx3 => pad c 3
  | .opRsvRx => pad c 4 ++ pad c c.uidLen.toNat
  | .addr => addrBytes f.addr
  | .addrRx => addrBytes f.addr ++ pad c f.readLen
  | .addrDummyRx => addrBytes f.addr ++ pad c 1 ++ pad c f.readLen
  | .addrTx => addrBytes f.addr ++ f.payload

/-- The command frame of a request: opcode, address, dummy, data (30_encoding.md R100, R101). -/
def encode (c : Config) (i : Instr) : List Byte :=
  i.toCommand.opcode :: i.toCommand.format.layout c i.fields

/-- What of a request its frame carries: the linear address, and no `wait` (log entry 15). -/
def Instr.onWire : Instr → Instr
  | .read x n => .read (.linear x.address) n
  | .fastRead x n => .fastRead (.linear x.address) n
  | .pageProgram x d => .pageProgram (.linear x.address) d
  | .sectorErase s _ => .sectorErase s false
  | .blockErase32K b _ => .blockErase32K b false
  | .blockErase64K b _ => .blockErase64K b false
  | .chipErase _ => .chipErase false
  | .readStatus => .readStatus
  | .readJedecId => .readJedecId
  | .readUniqueId => .readUniqueId
  | .writeEnable => .writeEnable
  | .writeDisable => .writeDisable
  | .deepPowerDown => .deepPowerDown

/-- The shortest frame of a format, with no read placeholder and no payload (30_encoding.md R108). -/
def Format.minLength (c : Config) : Format → Nat
  | .op => 1
  | .opRx1 => 2
  | .opRx3 => 4
  | .opRsvRx => 5 + c.uidLen.toNat
  | .addr => 4
  | .addrRx => 4
  | .addrDummyRx => 5
  | .addrTx => 4

/-- The bytes of a word of the opcode table, byte 0 in its low bits, filled up with zero operand bytes
to the shortest frame of its command (DESIGN CHOICE, log entry 16). -/
def tableBytes (c : Config) (nbits w : Nat) : List Byte :=
  let given := (List.range (nbits / 8)).map fun k => BitVec.ofNat 8 (w >>> (8 * k))
  match Command.ofOpcode? (BitVec.ofNat 8 w) with
  | none => given
  | some k => given ++ List.replicate (k.format.minLength c - given.length) 0#8

/-- The instruction the decoder reads from a word of spec/opcode_table.json, under the configuration
that `State.reset` holds. -/
def decodeTableWord (nbits w : Nat) : Option Instr :=
  (decode Config.standard (tableBytes Config.standard nbits w)).toOption

end Sys2Proof
end

