-- ==== Sys2Proof/Machine/State.lean ====
section
/-! DEFINITION. The state: the block's record (10_state.md R30) with its position inside the family rule
(R40), the configuration (R44), the reference device (20_memory.md R74), the inputs from the host and
the transport, and the observation (00_scope.md R18). All of it is plain data. -/

namespace Sys2Proof.Machine

/-- Why the machine stops with a fault. The first six are the model faults of 60_exceptions.md R322:
each is recorded in `State.faults` by the step that raises it, and every later step answers it. -/
inductive Fault where
  /-- `UNBOUND`, raised by acceptance: a request that sends a frame while `chan = none`
  (40_framing.md R130). Safe: the model claims nothing of such a run. -/
  | unbound
  /-- `REBIND`, raised by BEGIN while `chan` is bound (70_reset_and_hazards.md R362). Safe. -/
  | rebind
  /-- `OFFSET_RANGE`, raised by `Linear_of` for an offset of 4096 or more (41_address_decoder.md R164).
  Safe. -/
  | offsetRange
  /-- `ADDR_RANGE`, raised by `Addr24` for an address at or above `2^24` (30_encoding.md R103). Safe. -/
  | addrRange
  /-- `DEV_BUSY_CMD`, raised by the reference device: a frame other than READ_STATUS while busy
  (20_memory.md R76). Safe. -/
  | devBusyCmd
  /-- `DEV_POWERED_DOWN`, raised by the reference device: a frame while powered down (20_memory.md
  R76). Safe. -/
  | devPoweredDown
  /-- Raised by the reference device: a frame that has no meaning to it, which the block never sends
  (20_memory.md R76). Safe, and unreachable from the block (log entry 18). -/
  | devNoMeaning
  /-- Stuck: a request offered while another is in flight has no move (10_state.md R45,
  93_implementation_defined.md I20). Answered by every meaning; never recorded. Safe (log entry 14). -/
  | noMove
deriving DecidableEq, Repr

/-- Why the machine refuses. -/
inductive Refusal where
  /-- `ERASE32_ABSENT`, raised by acceptance and recorded in `State.faults`: BLOCK_ERASE_32K while
  `HAS_ERASE32 = false` (60_exceptions.md R323). Safe. -/
  | erase32Absent
  /-- Answered by the step that would offer a term that is no request of the closed set, an operand at
  or above `2^32` (60_exceptions.md R323: "refused by type"). Safe. -/
  | notARequest
  /-- Answered by `exec` for an instruction without a meaning yet. No arm answers it now. Safe. -/
  | notModelled (mnemonic : String)
deriving DecidableEq, Repr

/-- `FaultOrRefusal`: what `faults` holds (10_state.md R37). -/
inductive Mark where
  | fault (k : Fault)
  | refusal (k : Refusal)
deriving DecidableEq, Repr

/-- The sequencer phase: the last thing the block completed in the current request (10_state.md R32). -/
inductive Phase where
  | idle
  | accepted
  | busyChecked
  | writeEnabled
  | commandIssued
  | polling
deriving DecidableEq, Repr

/-- The closed set of results (60_exceptions.md R320). -/
inductive Result where
  | ok
  | transportError
  | invalidLength
  | deviceBusy
  | pollTimeout
deriving DecidableEq, Repr

/-- `RespData ::= none | bytes | count | num` (30_encoding.md R116). -/
inductive RespData where
  | nothing
  | bytes (b : List Byte)
  | count (n : Nat)
  | num (n : Nat)
deriving DecidableEq, Repr

/-- `Response = (res, data)` (30_encoding.md R116). -/
structure Response where
  res : Result
  data : RespData
deriving DecidableEq, Repr

/-- The position inside the family rule being carried out: which event the request in flight performs
next (10_state.md R40; its form is DEDUCED, log entry 2). -/
inductive Pos where
  /-- No family rule is being carried out. -/
  | idle
  /-- PAGE_PROGRAM's busy pre-check (46_page_program.md R262). -/
  | busyCheck
  /-- The WRITE_ENABLE frame of a mutating request (44_write_latch.md R222). -/
  | writeEnable
  /-- The command frame. -/
  | command
  /-- A status read of the poll (45_busy_poller.md R230). -/
  | pollRead
  /-- The delay between two status reads (45_busy_poller.md R230). -/
  | pollDelay
  /-- The `return` of a response (00_scope.md R14). -/
  | ret (r : Response)
deriving DecidableEq, Repr

/-- The events of the observation (00_scope.md R18). -/
inductive Event where
  /-- An exchange on a channel: the frame sent, the count returned, the bytes received (R12). -/
  | xfer (chan : Option ChanId) (buf : List Byte) (cnt : Int) (rx : List Byte)
  /-- A frame sent to the reference device, which raised a fault instead of answering. -/
  | unanswered (chan : Option ChanId) (buf : List Byte)
  /-- A delay of the poll, in milliseconds (R13). -/
  | delay (t : Nat)
  /-- The response that ends a request (R14). -/
  | response (r : Response)
  /-- The fault or refusal that stopped the request (R15). -/
  | stopped (m : Mark)
deriving DecidableEq, Repr

/-- An answer of the oracle: the signed count and received bytes (00_scope.md R12). Bytes beyond the
frame's length are dropped and missing ones are free values, so that `|rx| = |buf|` (log entry 8). -/
structure Answer where
  cnt : Int
  rx : List Byte
deriving DecidableEq, Repr

/-- A transport failure injected under the reference device (20_memory.md R75, R91): the count returned
and whether the device carried the frame out. -/
structure Failure where
  cnt : Int
  carriedOut : Bool
deriving DecidableEq, Repr

/-- Which environment answers an exchange (00_scope.md R4): the unconstrained oracle, or the assumed
reference device of 20_memory.md R74 to R92. -/
inductive Link where
  | oracle
  | reference
deriving DecidableEq, Repr

/-- The flash array: the cells that do not hold the erased byte, by rising address (log entry 11). -/
abbrev Memory := List Host.Cell

/-- An array effect that lands when the device completes (20_memory.md R74, R86, R87). -/
inductive Effect where
  | program (a : Nat) (data : List Byte)
  | havocPage (p : Nat)
  | erase (base size : Nat)
  | noChange
deriving DecidableEq, Repr

/-- The reference device (20_memory.md R74). -/
structure Dev where
  /-- The array, `2^25` bytes. -/
  mem : Memory
  /-- Status bit 0. -/
  wip : Bool
  /-- Status bit 1. -/
  wel : Bool
  /-- In deep power down. -/
  pd : Bool
  /-- Status reads still to report busy. -/
  busyLeft : Nat
  /-- The array effect that lands at completion. -/
  pending : Option Effect
  /-- The Unique ID, `UID_LEN` bytes, fixed per device. -/
  uid : List Byte
  /-- Status bits 7:2. -/
  srHigh : BitVec 6
deriving DecidableEq, Repr

/-- The environment's side of the state (00_scope.md R4): which environment answers, what it will answer,
and the reference device. The block never reads it: an exchange is the only way to it (10_state.md R38,
R47). -/
structure Env where
  /-- Which environment answers. -/
  link : Link
  /-- The oracle's answers to come, the next one first (00_scope.md R12, R17). -/
  answers : List Answer
  /-- The failures to inject under the reference device, one entry per exchange (20_memory.md R91). -/
  failures : List (Option Failure)
  /-- The busy counts the reference device draws next (20_memory.md R85, R87). -/
  busyFor : List Nat
  /-- The reference device (20_memory.md R74). -/
  dev : Dev
  /-- The model's own counter of free values taken (00_scope.md R17; log entry 6). -/
  draws : Nat
deriving DecidableEq, Repr

/-- The whole state of the machine: the configuration, the block (10_state.md R30), the host's requests
to come, the observation, and the environment. -/
structure State where
  /-- The configuration (10_state.md R44). No step writes it (log entry 5). -/
  cfg : Config
  /-- The device handle (R31). -/
  chan : Option ChanId
  /-- The sequencer phase (R32). -/
  phase : Phase
  /-- The request in flight (R33). -/
  req : Option Request
  /-- The busy reads of the current poll (R34). -/
  polls : Nat
  /-- The last response (R36). -/
  resp : Option Response
  /-- The sticky model marks, without repeats (R37). -/
  faults : List Mark
  /-- The position inside the family rule (R40). -/
  pos : Pos
  /-- The requests the host has still to make, the next one first (10_state.md R45). -/
  host : List Request
  /-- The observation so far, oldest event first (00_scope.md R18). -/
  trace : List Event
  /-- The environment (00_scope.md R4). -/
  env : Env
deriving DecidableEq, Repr

/-- What one step answers. -/
abbrev Outcome := Host.Outcome State Fault Refusal

/-- The reference device at the launch premise (20_memory.md R74, 92_eei_decisions.md D36), with the
array erased, a Unique ID of zeros and status bits 7:2 zero (DESIGN CHOICE, unsafe for a claim about
`State.reset` alone: log entries 11 and 12). -/
def Dev.launch (c : Config) : Dev where
  mem := []
  wip := false
  wel := false
  pd := false
  busyLeft := 0
  pending := none
  uid := List.replicate c.uidLen.toNat 0#8
  srHigh := 0#6

/-- The reference device attached, no answer, failure or busy count laid out (log entries 7 to 10). -/
def Env.launch (c : Config) : Env where
  link := .reference
  answers := []
  failures := []
  busyFor := []
  dev := Dev.launch c
  draws := 0

/-- The state after construction with the parameters `c` (10_state.md R50, 70_reset_and_hazards.md
R360), with the reference device attached and no input waiting (log entries 7 to 10, 13). -/
def State.resetWith (c : Config) : State where
  cfg := c
  chan := none
  phase := .idle
  req := none
  polls := 0
  resp := none
  faults := []
  pos := .idle
  host := []
  trace := []
  env := Env.launch c

/-- The machine right after reset, with the parameters of `Config.standard` (log entry 5). -/
def State.reset : State := State.resetWith Config.standard

end Sys2Proof.Machine
end

