-- ==== Sys2Proof/Machine/Operands.lean ====
section
/-! DEFINITION. Every operand form: the sector and block address decoder (41_address_decoder.md), the
effective address (40_framing.md R136), the checked address field (30_encoding.md R103) and the slices
of a received buffer (00_scope.md R10). All arithmetic is on unbounded naturals (D19). -/

namespace Sys2Proof.Machine

/-- SECTOR_ADDR (41_address_decoder.md R161). -/
def sectorAddr (s : Nat) : Nat := s <<< 12

/-- BLOCK32_ADDR (41_address_decoder.md R161). -/
def block32Addr (b : Nat) : Nat := b <<< 15

/-- BLOCK64_ADDR (41_address_decoder.md R161). -/
def block64Addr (b : Nat) : Nat := b <<< 16

/-- SECTOR_OF (41_address_decoder.md R162). -/
def sectorOf (a : Nat) : Nat := a >>> 12

/-- SECTOR_OFFSET (41_address_decoder.md R162). -/
def sectorOffset (a : Nat) : Nat := a &&& 0xFFF

/-- BLOCK32_OF (41_address_decoder.md R163). -/
def block32Of (a : Nat) : Nat := a >>> 15

/-- BLOCK32_OFFSET (41_address_decoder.md R163). -/
def block32Offset (a : Nat) : Nat := a &&& 0x7FFF

/-- BLOCK64_OF (41_address_decoder.md R163). -/
def block64Of (a : Nat) : Nat := a >>> 16

/-- BLOCK64_OFFSET (41_address_decoder.md R163). -/
def block64Offset (a : Nat) : Nat := a &&& 0xFFFF

/-- LINEAR, `Linear_of` (41_address_decoder.md R164). -/
def linearOf (s off : Nat) : Except Fault Nat :=
  if 0x1000 ≤ off then .error .offsetRange else .ok (s <<< 12 ||| off)

/-- `F_q`: the decoder function a query names (41_address_decoder.md R160). -/
def decoderValue : DecodeQuery → Except Fault Nat
  | .sectorAddr s => .ok (sectorAddr s)
  | .block32Addr b => .ok (block32Addr b)
  | .block64Addr b => .ok (block64Addr b)
  | .sectorOf a => .ok (sectorOf a)
  | .sectorOffset a => .ok (sectorOffset a)
  | .block32Of a => .ok (block32Of a)
  | .block32Offset a => .ok (block32Offset a)
  | .block64Of a => .ok (block64Of a)
  | .block64Offset a => .ok (block64Offset a)
  | .linear s off => linearOf s off

/-- `EA(x)`: the effective address of an operand (40_framing.md R136). -/
def effectiveAddr : AddrOperand → Except Fault Nat
  | .linear a => .ok a
  | .sectorOff s off => linearOf s off

/-- `Addr24(a)`: the address field, after the range check (30_encoding.md R103). -/
def addr24 (a : Nat) : Except Fault (List Byte) :=
  if Config.addrTxLimit ≤ a then .error .addrRange else .ok (addrBytes a)

/-- The address field of an operand: `A <- Addr24(EA(x))`, the offset check first (60_exceptions.md
R325). -/
def operandField (x : AddrOperand) : Except Fault (List Byte) :=
  match effectiveAddr x with
  | .error k => .error k
  | .ok a => addr24 a

/-- `rx[i..i+n)` (00_scope.md R10). -/
def slice (rx : List Byte) (i n : Nat) : List Byte := (rx.drop i).take n

/-- `rx[i]`, for an index inside the buffer (00_scope.md R10). -/
def byteAt (rx : List Byte) (i : Nat) : Byte := rx.getD i 0#8

/-- The address a frame carries at indices 1 to 3 (20_memory.md R81). -/
def frameAddr (buf : List Byte) : Nat := ofAddrBytes (byteAt buf 1) (byteAt buf 2) (byteAt buf 3)

end Sys2Proof.Machine
end

