-- ==== Sys2Proof/Machine/Flags.lean ====
section
/-! DEFINITION. The two status flags (10_state.md R41, R43) and the numeric result codes. The block has
no flags of its own. -/

namespace Sys2Proof.Machine

/-- `busy(s)`: status bit 0, WIP (42_status_id.md R181). -/
def busy (s : Byte) : Bool := s.getLsbD 0

/-- `wel(s)`: status bit 1 (42_status_id.md R181). No rule of the block reads it. -/
def wel (s : Byte) : Bool := s.getLsbD 1

/-- The status byte the reference device reports: `(srHigh << 2) | (wel << 1) | wip` (20_memory.md
R77). -/
def statusByte (d : Dev) : Byte :=
  d.srHigh.zeroExtend 8 <<< 2 ||| (BitVec.ofBool d.wel).zeroExtend 8 <<< 1 |||
    (BitVec.ofBool d.wip).zeroExtend 8

/-- The numeric code of a result (60_exceptions.md R320). -/
def Result.code : Result → Nat
  | .ok => 0
  | .transportError => 1
  | .invalidLength => 2
  | .deviceBusy => 3
  | .pollTimeout => 4

/-- `POLL_INTERVAL(kind)` (45_busy_poller.md R231). -/
def pollInterval (c : Config) : PollKind → Nat
  | .pp => c.pollIntervalPP
  | .sector => c.pollIntervalSector
  | .block => c.pollIntervalBlock
  | .chip => c.pollIntervalChip

end Sys2Proof.Machine
end

