-- ==== Sys2Proof/Machine/Ops.lean ====
section
/-! DEFINITION. The named operations over the state: the flash array, the free values, recording a fault
or refusal (00_scope.md R15), returning a response (R14) and its non-OK form, the abort, which is the
block's equivalent of taking an exception (60_exceptions.md R326). -/

namespace Sys2Proof.Machine

/-! ## The flash array -/

/-- What an unlisted address of the array reads as: the erased byte (20_memory.md R87). Which bytes are
listed after power-on is a draw in the spec; `State.reset` lists none (log entry 11). -/
def erasedByte : Byte := 0xFF#8

/-- The canonical form of the array: addresses strictly rising, inside the array (20_memory.md R60), and
no cell equal to what an unlisted address reads as. -/
abbrev Memory.wf (m : Memory) : Prop :=
  m.Pairwise (fun c d => c.1 < d.1) ∧ ∀ c ∈ m, c.1 < Config.arraySize ∧ c.2 ≠ erasedByte

/-- `MemRead(a, 1)` (00_scope.md R16). -/
def Memory.read : Memory → Nat → Byte
  | [], _ => erasedByte
  | c :: m, a => if c.1 = a then c.2 else Memory.read m a

/-- `MemWrite(a, 1, b)` (00_scope.md R16), keeping the canonical form. -/
def Memory.write : Memory → Nat → Byte → Memory
  | [], a, b => if b = erasedByte then [] else [(a, b)]
  | c :: m, a, b =>
    if c.1 < a then c :: Memory.write m a b
    else
      let rest := if c.1 = a then m else c :: m
      if b = erasedByte then rest else (a, b) :: rest

/-- Writes bytes from an address upward, in address order (20_memory.md R66). -/
def Memory.store : Memory → Nat → List Byte → Memory
  | m, _, [] => m
  | m, a, b :: bs => Memory.store (m.write a b) (a + 1) bs

/-- Programs bytes from an address upward: each byte becomes the AND of what it was and the data, which
only clears bits (20_memory.md R86). -/
def Memory.program : Memory → Nat → List Byte → Memory
  | m, _, [] => m
  | m, a, b :: bs => Memory.program (m.write a (m.read a &&& b)) (a + 1) bs

/-- Sets every byte of `[base, base + size)` to the erased byte (20_memory.md R87). -/
def Memory.erase (m : Memory) (base size : Nat) : Memory :=
  m.filter fun c => decide (c.1 < base) || decide (base + size ≤ c.1)

/-! ## Free values -/

/-- `k` free bytes, starting with number `d` of the run (20_memory.md R90). -/
def freeBytes (d k : Nat) : List Byte := (List.range k).map fun i => Config.freeByte (d + i)

/-- Counts `k` free values as taken. -/
def Env.drawn (k : Nat) (e : Env) : Env := { e with draws := e.draws + k }

/-- The bytes `bs` laid over a buffer from index `off` on; the length stays the buffer's. -/
def overlay : List Byte → Nat → List Byte → List Byte
  | [], _, _ => []
  | b :: bs, k + 1, ds => b :: overlay bs k ds
  | b :: bs, 0, [] => b :: bs
  | _ :: bs, 0, d :: ds => d :: overlay bs 0 ds

/-! ## Events, faults and responses -/

/-- Adds an event to the observation (00_scope.md R18). -/
def State.log (e : Event) (s : State) : State := { s with trace := s.trace ++ [e] }

/-- `raise Fault(k)` and `Refuse(k)`: records the mark in the sticky set (00_scope.md R15). -/
def State.raise (m : Mark) (s : State) : State :=
  { s with faults := if m ∈ s.faults then s.faults else s.faults ++ [m] }.log (.stopped m)

/-- What a recorded mark answers to every later step (00_scope.md R15). -/
def Mark.stop : Mark → Outcome
  | .fault k => .fault k
  | .refusal k => .refused k

/-- A state with a recorded fault or refusal has no further step (10_state.md R37). -/
def unlessStopped (s : State) (o : Outcome) : Outcome :=
  match s.faults with
  | [] => o
  | m :: _ => m.stop

/-- `return (res, data)` (00_scope.md R14): the response is written, the phase is Idle, the request is
cleared. -/
def State.respond (r : Response) (s : State) : State :=
  { s with resp := some r, phase := .idle, req := none, pos := .idle }.log (.response r)

/-- The abort, the block's equivalent of taking an exception: the early return of a non-OK result, which
carries no data and changes nothing else (60_exceptions.md R326). -/
def State.abort (res : Result) (s : State) : State := s.respond ⟨res, .nothing⟩

/-- Puts the `return` of a response next (00_scope.md R14, 10_state.md R40). -/
def State.willReturn (r : Response) (s : State) : State := { s with pos := .ret r }

end Sys2Proof.Machine
end

