-- ==== Sys2Proof/Machine/Device.lean ====
section
/-! DEFINITION. The reference device (20_memory.md R74 to R92), an ASSUMED environment of the block: how
it carries out one frame. The block's own rules never depend on it. -/

namespace Sys2Proof.Machine

/-- A change of the device alone. -/
def Env.withDev (f : Dev → Dev) (v : Env) : Env := { v with dev := f v.dev }

/-- Applies an array effect (20_memory.md R86, R87). A page made a draw takes 256 free bytes. -/
def Env.applyEffect (e : Effect) (v : Env) : Env :=
  match e with
  | .program a data => v.withDev fun d => { d with mem := d.mem.program a data }
  | .havocPage p =>
    (v.withDev fun d => { d with mem := d.mem.store p (freeBytes v.draws Config.pageSize) }).drawn
      Config.pageSize
  | .erase base size => v.withDev fun d => { d with mem := d.mem.erase base size }
  | .noChange => v

/-- `Complete()` (20_memory.md R78): the pending effect lands, WIP and WEL clear. -/
def Env.complete (v : Env) : Env :=
  (v.applyEffect (v.dev.pending.getD .noChange)).withDev fun d =>
    { d with pending := none, wip := false, wel := false }

/-- The busy count the environment draws next (20_memory.md R85, R87, D27): the head of `busyFor`, or a
free value. -/
def Env.nextBusy (v : Env) : Nat := v.busyFor.headD (Config.freeNat v.draws)

/-- The environment after that draw. -/
def Env.busyDrawn (v : Env) : Env :=
  match v.busyFor with
  | [] => v.drawn 1
  | _ :: rest => { v with busyFor := rest }

/-- READ_STATUS: while busy, the read counts down, and the read that reaches zero completes
(20_memory.md R77). -/
def Env.countDown (v : Env) : Env :=
  if v.dev.wip then
    let v1 := v.withDev fun d => { d with busyLeft := d.busyLeft - 1 }
    if v1.dev.busyLeft = 0 then v1.complete else v1
  else v

/-- The array effect of a Page Program of `data` at `a` (20_memory.md R85). -/
def programEffect (a : Nat) (data : List Byte) : Effect :=
  if data.length = 0 then .noChange
  else if a % Config.pageSize + data.length ≤ Config.pageSize then .program a data
  else .havocPage (a - a % Config.pageSize)

/-- Starts a busy period that ends with an effect (20_memory.md R85, R87). -/
def Env.startBusy (e : Effect) (n : Nat) (v : Env) : Env :=
  v.withDev fun d => { d with pending := some e, wip := true, busyLeft := n }

/-- PAGE_PROGRAM, with its WEL gate; a busy count of 0 lands at once (20_memory.md R85). -/
def Env.devProgram (a : Nat) (data : List Byte) (v : Env) : Env :=
  if v.dev.wel then
    if v.nextBusy = 0 then
      (v.busyDrawn.applyEffect (programEffect a data)).withDev fun d => { d with wel := false }
    else v.busyDrawn.startBusy (programEffect a data) v.nextBusy
  else v

/-- An erase of `[base, base + size)`, with its WEL gate; the busy count is at least 1 (20_memory.md R87,
R88). -/
def Env.devErase (base size : Nat) (v : Env) : Env :=
  if v.dev.wel then v.busyDrawn.startBusy (.erase base size) (max 1 v.nextBusy) else v

/-- The bytes `n` reads from `a` upward give while the address is at most `0xFFFFFF`; the rest are draws
(20_memory.md R81, R82). -/
def readable (m : Memory) (a n : Nat) : List Byte :=
  (List.range (min n (Config.addrTxLimit - a))).map fun i => m.read (a + i)

/-- Whether the reference device gives a frame of this length a meaning (20_memory.md R77 to R89). -/
def frameLengthOk (c : Config) (k : Command) (l : Nat) : Bool :=
  match k with
  | .readStatus => decide (2 ≤ l)
  | .readJedecId => decide (l = 4)
  | .readUniqueId => decide (l = 5 + c.uidLen.toNat)
  | .read => decide (4 ≤ l)
  | .fastRead => decide (5 ≤ l)
  | .pageProgram => decide (4 ≤ l ∧ l ≤ 4 + Config.pageSize)
  | .sectorErase | .blockErase32K | .blockErase64K => decide (l = 4)
  | .writeEnable | .writeDisable | .chipErase | .deepPowerDown => decide (l = 1)

/-- The received bytes the reference device defines, with the index of the first; the others are draws
(20_memory.md R77, R79 to R82, R90). -/
def deviceBytes (k : Command) (buf : List Byte) (d : Dev) : Nat × List Byte :=
  match k with
  | .readStatus => (1, List.replicate (buf.length - 1) (statusByte d))
  | .readJedecId => (1, Config.expectedJedec)
  | .readUniqueId => (5, d.uid)
  | .read => (4, readable d.mem (frameAddr buf) (buf.length - 4))
  | .fastRead => (5, readable d.mem (frameAddr buf) (buf.length - 5))
  | .writeEnable | .writeDisable | .pageProgram | .sectorErase | .blockErase32K | .blockErase64K
  | .chipErase | .deepPowerDown => (0, [])

/-- What a command does to the reference device (20_memory.md R77 to R89). An erase covers the region
that holds the framed address (R87); CHIP_ERASE covers the whole array (R88). -/
def deviceEffect (k : Command) (buf : List Byte) (v : Env) : Env :=
  let a := frameAddr buf
  match k with
  | .readStatus => v.countDown
  | .readJedecId | .readUniqueId | .read | .fastRead => v
  | .writeEnable => v.withDev fun d => { d with wel := true }
  | .writeDisable => v.withDev fun d => { d with wel := false }
  | .pageProgram => v.devProgram a (buf.drop 4)
  | .sectorErase => v.devErase (a - a % 4096) 4096
  | .blockErase32K => v.devErase (a - a % 32768) 32768
  | .blockErase64K => v.devErase (a - a % 65536) 65536
  | .chipErase => v.devErase 0 Config.arraySize
  | .deepPowerDown => v.withDev fun d => { d with pd := true }

/-- The guards, in their order, before the command byte is acted on (20_memory.md R76). -/
def deviceGuard (op : Byte) (d : Dev) : Option Fault :=
  if d.pd then some .devPoweredDown
  else if d.wip && op != Command.readStatus.opcode then some .devBusyCmd
  else none

/-- One frame at the reference device: a fault, or the received bytes and the environment after
(20_memory.md R76 to R90). Every received byte it does not define is a free value. -/
def deviceFrame (c : Config) (buf : List Byte) (v : Env) : Except Fault (List Byte × Env) :=
  match buf with
  | [] => .error .devNoMeaning
  | op :: _ =>
    match deviceGuard op v.dev with
    | some k => .error k
    | none =>
      match Command.ofOpcode? op with
      | none => .error .devNoMeaning
      | some k =>
        if frameLengthOk c k buf.length then
          let given := deviceBytes k buf v.dev
          .ok (overlay (freeBytes v.draws buf.length) given.1 given.2,
            deviceEffect k buf (v.drawn buf.length))
        else .error .devNoMeaning

end Sys2Proof.Machine
end

