-- ==== Sys2Proof/Machine/Sequencer.lean ====
section
/-! DEFINITION. The mechanism every command family uses (40_framing.md, 44_write_latch.md R222,
45_busy_poller.md R230): the exchange, the transaction, acceptance, and carrying out a family rule one
event at a time. A family file says only what is its own: a `FamilyRule`. -/

namespace Sys2Proof.Machine

/-! ## The exchange -/

/-- What comes back from an exchange: the count and received bytes, or a fault of the reference device. -/
inductive Reply where
  | answered (cnt : Int) (rx : List Byte)
  | raised (k : Fault)
deriving DecidableEq, Repr

/-- The oracle's answer: any count, any received bytes of the frame's length (00_scope.md R12, R17). The
answers are `Env.answers`, then free values. -/
def oracleExchange (buf : List Byte) (v : Env) : Reply × Env :=
  let base := freeBytes v.draws buf.length
  let v1 := v.drawn buf.length
  match v.answers with
  | [] => (.answered (Config.freeCount v.draws) base, v1)
  | a :: rest => (.answered a.cnt (overlay base 0 a.rx), { v1 with answers := rest })

/-- The failure injected on this exchange, if there is one: an entry whose count is the frame's length is
no failure (20_memory.md R75, R91). -/
def Env.injected (l : Nat) (v : Env) : Option Failure :=
  match v.failures with
  | some f :: _ => if f.cnt = l then none else some f
  | _ => none

/-- The reference environment's answer (20_memory.md R75). An injected failure carries the frame out in
full or not at all, and its received bytes are draws (R91). -/
def referenceExchange (c : Config) (buf : List Byte) (v : Env) : Reply × Env :=
  let v1 := { v with failures := v.failures.tail }
  match v.injected buf.length with
  | none =>
    match deviceFrame c buf v1 with
    | .error k => (.raised k, v1)
    | .ok (rx, v2) => (.answered buf.length rx, v2)
  | some f =>
    if f.carriedOut then
      match deviceFrame c buf v1 with
      | .error k => (.raised k, v1)
      | .ok (_, v2) => (.answered f.cnt (freeBytes v2.draws buf.length), v2.drawn buf.length)
    else (.answered f.cnt (freeBytes v1.draws buf.length), v1.drawn buf.length)

/-- `Xfer(buf)`: one full-duplex exchange, answered by the environment (00_scope.md R12). -/
def exchange (c : Config) (buf : List Byte) (v : Env) : Reply × Env :=
  match v.link with
  | .oracle => oracleExchange buf v
  | .reference => referenceExchange c buf v

/-- `Txn(buf)`: the exchange on the bound channel, then `next` on the received bytes if the count is the
frame's length, and the return of `TRANSPORT_ERROR` otherwise (40_framing.md R132, R134). A fault of the
reference device is recorded. -/
def State.txn (buf : List Byte) (next : List Byte → State → State) (s : State) : State :=
  match exchange s.cfg buf s.env with
  | (.raised k, v) => ({ s with env := v }.log (.unanswered s.chan buf)).raise (.fault k)
  | (.answered cnt rx, v) =>
    let t := { s with env := v }.log (.xfer s.chan buf cnt rx)
    if cnt = buf.length then next rx t else t.willReturn ⟨.transportError, .nothing⟩

/-- The READ_STATUS frame `[0x05, PAD_BYTE]` (42_status_id.md R180). -/
def statusFrame (c : Config) : List Byte := Command.readStatus.opcode :: pad c 1

/-- The WRITE_ENABLE frame `[0x06]` (44_write_latch.md R220). -/
def wrenFrame : List Byte := [Command.writeEnable.opcode]

/-! ## Family rules -/

/-- What is a family's own in the sequence of events every family shares. -/
structure FamilyRule where
  /-- The refusal at acceptance, if the command is absent (40_framing.md R130). -/
  absent : Option Refusal := none
  /-- The command frame, or the fault its address raises (40_framing.md R136). -/
  frame : Except Fault (List Byte)
  /-- The payload is too long: `INVALID_LENGTH` (46_page_program.md R261). -/
  tooLong : Bool := false
  /-- The busy pre-check comes first (46_page_program.md R262). -/
  busyCheck : Bool := false
  /-- The WRITE_ENABLE frame comes immediately before the command frame (44_write_latch.md R222). -/
  writeEnable : Bool := false
  /-- The poll after the command frame, with the data its OK response carries (45_busy_poller.md
  R237). -/
  poll : Option (PollKind × RespData) := none
  /-- The data of the OK response of a rule without a poll, from the received bytes (30_encoding.md
  R109). -/
  data : List Byte → RespData := fun _ => .nothing

/-- The first event of a family rule (30_encoding.md R114). -/
def FamilyRule.start (r : FamilyRule) : Pos :=
  if r.busyCheck then .busyCheck else if r.writeEnable then .writeEnable else .command

/-- Acceptance with the checks before the first frame, in the order of 60_exceptions.md R325
(40_framing.md R130). -/
def accept (q : Instr) (r : FamilyRule) (s : State) : State :=
  let s1 := { s with req := some (.command q) }
  if s.chan = none then s1.raise (.fault .unbound)
  else
    match r.absent with
    | some k => s1.raise (.refusal k)
    | none =>
      let s2 := { s1 with phase := .accepted }
      match r.frame with
      | .error k => s2.raise (.fault k)
      | .ok _ => if r.tooLong then s2.abort .invalidLength else { s2 with pos := r.start }

/-- The busy pre-check: a busy device ends the request with `DEVICE_BUSY` (46_page_program.md R262). -/
def busyCheckEvent (s : State) : State :=
  s.txn (statusFrame s.cfg) fun rx t =>
    if busy (byteAt rx 1) then t.willReturn ⟨.deviceBusy, .nothing⟩
    else { t with phase := .busyChecked, pos := .writeEnable }

/-- The WRITE_ENABLE frame of a mutating request; its command frame is the very next event
(44_write_latch.md R222). -/
def writeEnableEvent (s : State) : State :=
  s.txn wrenFrame fun _ t => { t with phase := .writeEnabled, pos := .command }

/-- The command frame. After it the rule polls, from zero busy reads (45_busy_poller.md R230), or returns
OK. -/
def commandEvent (r : FamilyRule) (s : State) : State :=
  match r.frame with
  | .error k => s.raise (.fault k)
  | .ok buf =>
    s.txn buf fun rx t =>
      match r.poll with
      | none => { t with phase := .commandIssued }.willReturn ⟨.ok, r.data rx⟩
      | some _ => { t with phase := .commandIssued, polls := 0, pos := .pollRead }

/-- A status read of the poll: not busy is Ready; a busy read counts, and the bound ends the request
with `POLL_TIMEOUT` (45_busy_poller.md R230). -/
def pollReadEvent (p : PollKind × RespData) (s : State) : State :=
  s.txn (statusFrame s.cfg) fun rx t =>
    if busy (byteAt rx 1) then
      let t1 := { t with polls := t.polls + 1, phase := .polling }
      if t1.cfg.pollMax ≤ t1.polls then t1.willReturn ⟨.pollTimeout, .nothing⟩
      else { t1 with pos := .pollDelay }
    else t.willReturn ⟨.ok, p.2⟩

/-- `Delay(POLL_INTERVAL(kind))` (45_busy_poller.md R230, R231). -/
def pollDelayEvent (p : PollKind × RespData) (s : State) : State :=
  { s with pos := .pollRead }.log (.delay (pollInterval s.cfg p.1))

/-- The next event of a family rule, at the state's position (10_state.md R40); none where the position
is not inside the rule. -/
def familyEvent (r : FamilyRule) (s : State) : Option State :=
  match s.pos with
  | .idle => none
  | .busyCheck => if r.busyCheck then some (busyCheckEvent s) else none
  | .writeEnable => if r.writeEnable then some (writeEnableEvent s) else none
  | .command => some (commandEvent r s)
  | .pollRead => r.poll.map fun p => pollReadEvent p s
  | .pollDelay => r.poll.map fun p => pollDelayEvent p s
  | .ret v => some (s.respond v)

/-- One step of a request that emits a command: acceptance from Idle, and otherwise the next event of
its family rule. A request offered while another is in flight has no move (10_state.md R45). -/
def carryOut (q : Instr) (r : FamilyRule) (s : State) : Outcome :=
  unlessStopped s <|
    if s.phase = .idle then .next (accept q r s)
    else if s.req = some (.command q) then
      match familyEvent r s with
      | some t => .next t
      | none => .fault .noMove
    else .fault .noMove

end Sys2Proof.Machine
end

