-- ==== Sys2Proof/Machine/Erase.lean ====
section
/-! DEFINITION. Erase commands (47_erase.md). -/

namespace Sys2Proof.Machine

/-- The common erase sequence: WRITE_ENABLE, the command frame, the poll if `wait` (47_erase.md R280). -/
def eraseSeq (frame : Except Fault (List Byte)) (kind : PollKind) (wait : Bool) : FamilyRule where
  frame := frame
  writeEnable := true
  poll := if wait then some (kind, .nothing) else none

/-- SECTOR_ERASE (47_erase.md R281). -/
def sectorEraseRule (n : Nat) (wait : Bool) : FamilyRule :=
  eraseSeq ((addr24 (sectorAddr n)).map (Command.sectorErase.opcode :: ·)) .sector wait

/-- SECTOR_ERASE (47_erase.md R281). -/
def execSectorErase (n : Nat) (wait : Bool) (s : State) : Outcome :=
  carryOut (.sectorErase n wait) (sectorEraseRule n wait) s

/-- BLOCK_ERASE_32K, refused at acceptance when `HAS_ERASE32` is false (47_erase.md R282, 40_framing.md
R130). -/
def blockErase32KRule (c : Config) (b : Nat) (wait : Bool) : FamilyRule :=
  { eraseSeq ((addr24 (block32Addr b)).map (Command.blockErase32K.opcode :: ·)) .block wait with
    absent := if c.hasErase32 then none else some .erase32Absent }

/-- BLOCK_ERASE_32K (47_erase.md R282). -/
def execBlockErase32K (b : Nat) (wait : Bool) (s : State) : Outcome :=
  carryOut (.blockErase32K b wait) (blockErase32KRule s.cfg b wait) s

/-- BLOCK_ERASE_64K (47_erase.md R283). -/
def blockErase64KRule (b : Nat) (wait : Bool) : FamilyRule :=
  eraseSeq ((addr24 (block64Addr b)).map (Command.blockErase64K.opcode :: ·)) .block wait

/-- BLOCK_ERASE_64K (47_erase.md R283). -/
def execBlockErase64K (b : Nat) (wait : Bool) (s : State) : Outcome :=
  carryOut (.blockErase64K b wait) (blockErase64KRule b wait) s

/-- CHIP_ERASE, a frame without an address (47_erase.md R284). -/
def chipEraseRule (wait : Bool) : FamilyRule :=
  eraseSeq (.ok [Command.chipErase.opcode]) .chip wait

/-- CHIP_ERASE (47_erase.md R284). -/
def execChipErase (wait : Bool) (s : State) : Outcome :=
  carryOut (.chipErase wait) (chipEraseRule wait) s

end Sys2Proof.Machine
end

