-- ==== Sys2Proof/Machine/PageProgram.lean ====
section
/-! DEFINITION. Page Program (46_page_program.md). -/

namespace Sys2Proof.Machine

/-- PAGE_PROGRAM: the length check, the busy pre-check, WRITE_ENABLE, the command frame, an
unconditional poll, and the count `4 + m` (46_page_program.md R260 to R263). -/
def pageProgramRule (x : AddrOperand) (d : List Byte) : FamilyRule where
  frame := (operandField x).map fun A => Command.pageProgram.opcode :: A ++ d
  tooLong := decide (Config.pageSize < d.length)
  busyCheck := true
  writeEnable := true
  poll := some (.pp, .count (4 + d.length))

/-- PAGE_PROGRAM (46_page_program.md R260). -/
def execPageProgram (x : AddrOperand) (d : List Byte) (s : State) : Outcome :=
  carryOut (.pageProgram x d) (pageProgramRule x d) s

end Sys2Proof.Machine
end

