-- ==== Sys2Proof/Machine/Power.lean ====
section
/-! DEFINITION. Power control (48_power.md). -/

namespace Sys2Proof.Machine

/-- DEEP_POWER_DOWN: one frame of one byte; the block keeps no power state (48_power.md R310, R311). -/
def deepPowerDownRule : FamilyRule where
  frame := .ok [Command.deepPowerDown.opcode]

/-- DEEP_POWER_DOWN (48_power.md R310). -/
def execDeepPowerDown (s : State) : Outcome := carryOut .deepPowerDown deepPowerDownRule s

end Sys2Proof.Machine
end

