-- ==== Sys2Proof/Machine/Read.lean ====
section
/-! DEFINITION. Read commands (43_read.md). -/

namespace Sys2Proof.Machine

/-- READ: `n` placeholders after the address, and the bytes received in their place (43_read.md R200). -/
def readRule (c : Config) (x : AddrOperand) (n : Nat) : FamilyRule where
  frame := (operandField x).map fun A => Command.read.opcode :: A ++ pad c n
  data rx := .bytes (slice rx 4 n)

/-- READ (43_read.md R200). -/
def execRead (x : AddrOperand) (n : Nat) (s : State) : Outcome :=
  carryOut (.read x n) (readRule s.cfg x n) s

/-- FAST_READ: as READ, with one dummy byte after the address (43_read.md R201). -/
def fastReadRule (c : Config) (x : AddrOperand) (n : Nat) : FamilyRule where
  frame := (operandField x).map fun A => Command.fastRead.opcode :: A ++ pad c 1 ++ pad c n
  data rx := .bytes (slice rx 5 n)

/-- FAST_READ (43_read.md R201). -/
def execFastRead (x : AddrOperand) (n : Nat) (s : State) : Outcome :=
  carryOut (.fastRead x n) (fastReadRule s.cfg x n) s

end Sys2Proof.Machine
end

