-- ==== Sys2Proof/Machine/StatusId.lean ====
section
/-! DEFINITION. Status and identification commands (42_status_id.md). -/

namespace Sys2Proof.Machine

/-- READ_STATUS: the whole status byte, `rx[1]` (42_status_id.md R180). -/
def readStatusRule (c : Config) : FamilyRule where
  frame := .ok (statusFrame c)
  data rx := .bytes [byteAt rx 1]

/-- READ_STATUS (42_status_id.md R180). -/
def execReadStatus (s : State) : Outcome := carryOut .readStatus (readStatusRule s.cfg) s

/-- READ_JEDEC_ID: three bytes, as received, compared with nothing (42_status_id.md R182, R183). -/
def readJedecIdRule (c : Config) : FamilyRule where
  frame := .ok (Command.readJedecId.opcode :: pad c 3)
  data rx := .bytes (slice rx 1 3)

/-- READ_JEDEC_ID (42_status_id.md R182). -/
def execReadJedecId (s : State) : Outcome := carryOut .readJedecId (readJedecIdRule s.cfg) s

/-- READ_UNIQUE_ID: four reserved bytes, then `UID_LEN` placeholders (42_status_id.md R184). -/
def readUniqueIdRule (c : Config) : FamilyRule where
  frame := .ok (Command.readUniqueId.opcode :: pad c 4 ++ pad c c.uidLen.toNat)
  data rx := .bytes (slice rx 5 c.uidLen.toNat)

/-- READ_UNIQUE_ID (42_status_id.md R184). -/
def execReadUniqueId (s : State) : Outcome := carryOut .readUniqueId (readUniqueIdRule s.cfg) s

end Sys2Proof.Machine
end

