-- ==== Sys2Proof/Machine/WriteLatch.lean ====
section
/-! DEFINITION. Write-enable latch commands (44_write_latch.md). -/

namespace Sys2Proof.Machine

/-- WRITE_ENABLE: one frame of one byte, nothing kept (44_write_latch.md R220). -/
def writeEnableRule : FamilyRule where
  frame := .ok wrenFrame

/-- WRITE_ENABLE (44_write_latch.md R220). -/
def execWriteEnable (s : State) : Outcome := carryOut .writeEnable writeEnableRule s

/-- WRITE_DISABLE: one frame of one byte, nothing kept (44_write_latch.md R221). -/
def writeDisableRule : FamilyRule where
  frame := .ok [Command.writeDisable.opcode]

/-- WRITE_DISABLE (44_write_latch.md R221). -/
def execWriteDisable (s : State) : Outcome := carryOut .writeDisable writeDisableRule s

end Sys2Proof.Machine
end

