-- ==== Sys2Proof/Machine/Dispatch.lean ====
section
/-! DEFINITION. The meaning of each request that emits a command: one arm per constructor of Instr. -/

namespace Sys2Proof.Machine

def exec (i : Instr) (s : State) : Host.Outcome State Fault Refusal :=
  match i with
  -- 42_status_id.md
  | .readStatus => Sys2Proof.Machine.execReadStatus s
  | .readJedecId => Sys2Proof.Machine.execReadJedecId s
  | .readUniqueId => Sys2Proof.Machine.execReadUniqueId s
  -- 43_read.md
  | .read x n => Sys2Proof.Machine.execRead x n s
  | .fastRead x n => Sys2Proof.Machine.execFastRead x n s
  -- 44_write_latch.md
  | .writeEnable => Sys2Proof.Machine.execWriteEnable s
  | .writeDisable => Sys2Proof.Machine.execWriteDisable s
  -- 46_page_program.md
  | .pageProgram x d => Sys2Proof.Machine.execPageProgram x d s
  -- 47_erase.md
  | .sectorErase n w => Sys2Proof.Machine.execSectorErase n w s
  | .blockErase32K b w => Sys2Proof.Machine.execBlockErase32K b w s
  | .blockErase64K b w => Sys2Proof.Machine.execBlockErase64K b w s
  | .chipErase w => Sys2Proof.Machine.execChipErase w s
  -- 48_power.md
  | .deepPowerDown => Sys2Proof.Machine.execDeepPowerDown s

end Sys2Proof.Machine
end

