-- ==== Sys2Proof/Machine/HostOnly.lean ====
section
/-! DEFINITION. The two host requests that send no frame and return in the acceptance step itself
(10_state.md R45): BEGIN (70_reset_and_hazards.md R362) and DECODE (41_address_decoder.md R160). -/

namespace Sys2Proof.Machine

/-- A request that is carried out in its acceptance step, or has no move (10_state.md R45). -/
def atOnce (q : Request) (f : State → State) (s : State) : Outcome :=
  unlessStopped s <|
    if s.phase = .idle then .next (f { s with req := some q }) else .fault .noMove

/-- `Begin(ch)` (70_reset_and_hazards.md R362). -/
def State.bindChannel (ch : ChanId) (s : State) : State :=
  if s.chan = none then { s with chan := some ch }.respond ⟨.ok, .nothing⟩
  else s.raise (.fault .rebind)

/-- BEGIN: binds the block to a channel, once (70_reset_and_hazards.md R362). -/
def execBegin (ch : ChanId) (s : State) : Outcome := atOnce (.beginOn ch) (State.bindChannel ch) s

/-- `Decode(q)`: the number the query names, or `OFFSET_RANGE` (41_address_decoder.md R160). -/
def State.answerQuery (q : DecodeQuery) (s : State) : State :=
  match decoderValue q with
  | .error k => s.raise (.fault k)
  | .ok v => s.respond ⟨.ok, .num v⟩

/-- DECODE: needs no handle (41_address_decoder.md R160). -/
def execDecode (q : DecodeQuery) (s : State) : Outcome := atOnce (.decode q) (State.answerQuery q) s

end Sys2Proof.Machine
end

