-- ==== Sys2Proof/Machine/Offer.lean ====
section
/-! DEFINITION. Which request the next step carries on: the one in flight, or the host's next one, taken
only while none is in flight (10_state.md R45). -/

namespace Sys2Proof.Machine

/-- One step of a request, whichever it is. -/
def perform (q : Request) (s : State) : Outcome :=
  match q with
  | .beginOn ch => execBegin ch s
  | .decode q => execDecode q s
  | .command i => exec i s

/-- The machine's move: the next event of the request in flight; without one, the host's next request is
offered, or nothing happens while the host offers none (log entry 13). A term that is no request of the
closed set is refused by type (60_exceptions.md R323). -/
def move (s : State) : Outcome :=
  unlessStopped s <|
    match s.req with
    | some q => perform q s
    | none =>
      match s.host with
      | [] => .next s
      | q :: rest => if q.wf then perform q { s with host := rest } else .refused .notARequest

/-- The state in which the very next step accepts `i`: Idle, no mark, a bound channel (the host's BEGIN,
70_reset_and_hazards.md R363), and `i` the host's next request (log entry 16). -/
def State.offering (i : Instr) (s : State) : State :=
  { s with
    chan := some (s.chan.getD 0)
    phase := .idle
    req := none
    pos := .idle
    faults := []
    host := .command i :: s.host }

/-- The state in which the very next step accepts the instruction of an opcode-table word; unchanged
where the decoder reads none. -/
def State.offeringWord (nbits w : Nat) (s : State) : State :=
  match decodeTableWord nbits w with
  | some i => s.offering i
  | none => s

end Sys2Proof.Machine
end

