-- ==== Sys2Proof/Machine/Step.lean ====
section
/-! DEFINITION. The step: one event of the machine (00_scope.md R12 to R14, 10_state.md R40). -/

namespace Sys2Proof.Machine

/-- One step. -/
def step (s : State) : Host.Outcome State Fault Refusal := move s

/-- The state whose next step runs the instruction of an opcode-table word (log entry 16). -/
def State.withFetchWord (s : State) (nbits w : Nat) : State := s.offeringWord nbits w

end Sys2Proof.Machine
end

