-- ==== Sys2Proof/Safety.lean ====
section
/-! DEFINITION. The terms claims are made in: where a request stands, what counts as a safe state
(`State.Inv`), which addresses an effect covers, what an observation holds, and runs of one request. -/

namespace Sys2Proof

open Machine

/-! ## What a request asks for -/

/-- The phase in which a request's command frame is sent: after WRITE_ENABLE for a mutating one
(10_state.md R32). -/
def Instr.commandPhase (i : Instr) : Phase :=
  if i.toCommand.mutating then .writeEnabled else .accepted

/-- The request's address operand has an offset of 4096 or more (41_address_decoder.md R164). -/
def Instr.offsetBad : Instr → Bool
  | .read (.sectorOff _ o) _ | .fastRead (.sectorOff _ o) _ | .pageProgram (.sectorOff _ o) _ =>
    decide (4096 ≤ o)
  | _ => false

/-- The address the request frames is at or above `2^24` (30_encoding.md R103). -/
def Instr.addrBad : Instr → Bool
  | .read x _ | .fastRead x _ | .pageProgram x _ => decide (Config.addrTxLimit ≤ x.address)
  | .sectorErase n _ => decide (Config.addrTxLimit ≤ n <<< 12)
  | .blockErase32K b _ => decide (Config.addrTxLimit ≤ b <<< 15)
  | .blockErase64K b _ => decide (Config.addrTxLimit ≤ b <<< 16)
  | _ => false

/-- The request is BLOCK_ERASE_32K and the configuration lacks it (40_framing.md R130). -/
def Instr.absentIn (c : Config) : Instr → Bool
  | .blockErase32K _ _ => !c.hasErase32
  | _ => false

/-- The request is a PAGE_PROGRAM of more than 256 bytes (46_page_program.md R261). -/
def Instr.tooLong : Instr → Bool
  | .pageProgram _ d => decide (256 < d.length)
  | _ => false

/-- The `wait` operand of an erase; PAGE_PROGRAM always polls (45_busy_poller.md R237). -/
def Instr.polls : Instr → Bool
  | .pageProgram _ _ => true
  | .sectorErase _ w | .blockErase32K _ w | .blockErase64K _ w | .chipErase w => w
  | _ => false

/-- The kind of poll after each mutating request (45_busy_poller.md R231). -/
def Instr.pollKind : Instr → PollKind
  | .pageProgram _ _ => .pp
  | .blockErase32K _ _ | .blockErase64K _ _ => .block
  | .chipErase _ => .chip
  | _ => .sector

/-- The bytes of the command frame's answer that the response carries (30_encoding.md R109, R116). -/
def Instr.keeps (c : Config) (rx : List Byte) : Instr → RespData
  | .readStatus => .bytes (slice rx 1 1)
  | .readJedecId => .bytes (slice rx 1 3)
  | .readUniqueId => .bytes (slice rx 5 c.uidLen.toNat)
  | .read _ n => .bytes (slice rx 4 n)
  | .fastRead _ n => .bytes (slice rx 5 n)
  | .pageProgram _ d => .count (4 + d.length)
  | _ => .nothing

/-- The results each request can return (60_exceptions.md R321). -/
def Instr.results (i : Instr) : List Result :=
  match i with
  | .pageProgram _ _ => [.ok, .transportError, .invalidLength, .deviceBusy, .pollTimeout]
  | .sectorErase _ w | .blockErase32K _ w | .blockErase64K _ w | .chipErase w =>
    if w then [.ok, .transportError, .pollTimeout] else [.ok, .transportError]
  | _ => [.ok, .transportError]

/-- The frame a request sends at a position inside its family rule (30_encoding.md R114): a status frame
for the busy pre-check and the poll, WRITE_ENABLE, or the command frame. -/
def Instr.frameAt (c : Config) (i : Instr) : Pos → Option (List Byte)
  | .busyCheck | .pollRead => some [0x05#8, c.padByte]
  | .writeEnable => some [0x06#8]
  | .command => some (encode c i)
  | .idle | .pollDelay | .ret _ => none

/-- The number a decoder query asks for, by multiplication and division (41_address_decoder.md R161 to
R164). -/
def DecodeQuery.number : DecodeQuery → Nat
  | .sectorAddr n => n * 4096
  | .block32Addr n => n * 32768
  | .block64Addr n => n * 65536
  | .sectorOf a => a / 4096
  | .sectorOffset a => a % 4096
  | .block32Of a => a / 32768
  | .block32Offset a => a % 32768
  | .block64Of a => a / 65536
  | .block64Offset a => a % 65536
  | .linear s off => s * 4096 + off

/-- The query is LINEAR with an offset of 4096 or more (41_address_decoder.md R164). -/
def DecodeQuery.offsetBad : DecodeQuery → Bool
  | .linear _ off => decide (4096 ≤ off)
  | _ => false

/-- The three address bytes of an address, by division (20_memory.md R65). -/
def addressField (a : Nat) : List Byte :=
  [BitVec.ofNat 8 (a / 65536), BitVec.ofNat 8 (a / 256), BitVec.ofNat 8 a]

end Sys2Proof

namespace Sys2Proof.Machine

/-! ## Where a request stands -/

/-- The family rule of each request that emits a command (30_encoding.md R114). -/
def ruleOf (c : Config) : Instr → FamilyRule
  | .readStatus => readStatusRule c
  | .readJedecId => readJedecIdRule c
  | .readUniqueId => readUniqueIdRule c
  | .read x n => readRule c x n
  | .fastRead x n => fastReadRule c x n
  | .writeEnable => writeEnableRule
  | .writeDisable => writeDisableRule
  | .pageProgram x d => pageProgramRule x d
  | .sectorErase n w => sectorEraseRule n w
  | .blockErase32K b w => blockErase32KRule c b w
  | .blockErase64K b w => blockErase64KRule b w
  | .chipErase w => chipEraseRule w
  | .deepPowerDown => deepPowerDownRule

/-- The block waits for a request: no mark, Idle, nothing in flight. -/
abbrev State.waiting (s : State) : Prop :=
  s.faults = [] ∧ s.phase = .idle ∧ s.req = none ∧ s.pos = .idle

/-- The request `i` is in flight, its next event is `p`, the phase is `ph`, and no mark is recorded. -/
abbrev State.standsAt (i : Instr) (p : Pos) (ph : Phase) (s : State) : Prop :=
  s.faults = [] ∧ s.req = some (.command i) ∧ s.pos = p ∧ s.phase = ph

/-! ## Runs -/

/-- `k` steps of the one request `i`, stopping at a fault or refusal. -/
def execTimes (i : Instr) : Nat → State → Outcome
  | 0, s => .next s
  | k + 1, s =>
    match exec i s with
    | .next t => execTimes i k t
    | .fault f => .fault f
    | .refused r => .refused r

/-- `k` steps of the machine, stopping at a fault or refusal. -/
def stepTimes : Nat → State → Outcome
  | 0, s => .next s
  | k + 1, s =>
    match step s with
    | .next t => stepTimes k t
    | .fault f => .fault f
    | .refused r => .refused r

/-- The outcome of a step with its next state changed by `f`. -/
def mapNext (f : State → State) : Outcome → Outcome
  | .next t => .next (f t)
  | .fault k => .fault k
  | .refused k => .refused k

/-- The response of a request whose transaction returned `cnt` for a frame of `l` bytes: `OK` with the
data, or `TRANSPORT_ERROR` (40_framing.md R134). -/
def transactionResponse (cnt : Int) (l : Nat) (data : RespData) : Response :=
  if cnt = l then ⟨.ok, data⟩ else ⟨.transportError, .nothing⟩

/-- The request `i` is one frame: with a channel it is accepted, sends `frame` on it, and returns `OK`
with what `kept` keeps of the received bytes, or `TRANSPORT_ERROR` when the count is not the frame's
length; nothing else changes. Without a channel it records `UNBOUND` and sends nothing; that the stopped
request stays in `req`, with the phase Idle, is log entry 4. -/
def oneFrame (i : Instr) (frame : Config → List Byte) (kept : Config → List Byte → RespData) : Prop :=
  ∀ s : State, s.waiting →
    (s.chan = none →
      exec i s = .next { s with
        req := some (.command i)
        faults := [.fault .unbound]
        trace := s.trace ++ [.stopped (.fault .unbound)] }) ∧
    ∀ ch cnt rx v, s.chan = some ch → exchange s.cfg (frame s.cfg) s.env = (.answered cnt rx, v) →
      ∃ t u, exec i s = .next t ∧ t.phase = .accepted ∧ exec i t = .next u ∧
        (cnt = (frame s.cfg).length → u.phase = .commandIssued) ∧
        exec i u = .next { s with
          env := v
          resp := some (transactionResponse cnt (frame s.cfg).length (kept s.cfg rx))
          trace := s.trace ++ [.xfer (some ch) (frame s.cfg) cnt rx,
            .response (transactionResponse cnt (frame s.cfg).length (kept s.cfg rx))] }

/-- A request whose address operand is out of range, once it is bound and not refused, records the fault
and sends no frame: the offset is checked first (40_framing.md R136, 60_exceptions.md R325). That the
fault is raised inside the acceptance step is log entry 1; that the stopped request stays in `req`, with
the phase Accepted, is log entry 4. -/
def addressFaults (i : Instr) : Prop :=
  ∀ s : State, s.waiting → s.chan ≠ none → i.absentIn s.cfg = false →
    (i.offsetBad = true →
      exec i s = .next { s with
        req := some (.command i)
        phase := .accepted
        faults := [.fault .offsetRange]
        trace := s.trace ++ [.stopped (.fault .offsetRange)] }) ∧
    (i.offsetBad = false → i.addrBad = true →
      exec i s = .next { s with
        req := some (.command i)
        phase := .accepted
        faults := [.fault .addrRange]
        trace := s.trace ++ [.stopped (.fault .addrRange)] })

/-- The request `i` is an erase with this command frame: it is accepted, sends WRITE_ENABLE and then the
command frame as the very next one, and then polls from zero busy reads if `wait`, or returns `OK`; the
poll's Ready returns `OK` with no data (47_erase.md R280, 44_write_latch.md R222). -/
def eraseSequence (i : Instr) (frame : List Byte) (wait : Bool) : Prop :=
  ∀ s : State, s.waiting → i.absentIn s.cfg = false → ∀ ch rx1 rx2 v1 v2, s.chan = some ch →
    exchange s.cfg [0x06#8] s.env = (.answered 1 rx1, v1) →
    exchange s.cfg frame v1 = (.answered frame.length rx2, v2) →
    ∃ t u w, exec i s = .next t ∧ t.phase = .accepted ∧ exec i t = .next u ∧ u.phase = .writeEnabled ∧
      exec i u = .next w ∧
      w = { s with
        req := some (.command i)
        phase := .commandIssued
        pos := if wait then .pollRead else .ret ⟨.ok, .nothing⟩
        polls := if wait then 0 else s.polls
        env := v2
        trace := s.trace ++ [.xfer (some ch) [0x06#8] 1 rx1,
          .xfer (some ch) frame frame.length rx2] } ∧
      (wait = false →
        exec i w = .next { s with
          resp := some ⟨.ok, .nothing⟩
          env := v2
          trace := s.trace ++ [.xfer (some ch) [0x06#8] 1 rx1,
            .xfer (some ch) frame frame.length rx2, .response ⟨.ok, .nothing⟩] }) ∧
      (wait = true → ∀ rx3 v3, exchange s.cfg [0x05#8, s.cfg.padByte] v2 = (.answered 2 rx3, v3) →
        busy (byteAt rx3 1) = false →
        ∃ x, exec i w = .next x ∧ exec i x = .next { s with
          resp := some ⟨.ok, .nothing⟩
          polls := 0
          env := v3
          trace := s.trace ++ [.xfer (some ch) [0x06#8] 1 rx1,
            .xfer (some ch) frame frame.length rx2,
            .xfer (some ch) [0x05#8, s.cfg.padByte] 2 rx3, .response ⟨.ok, .nothing⟩] })

/-! ## Observations -/

/-- The frame an event sent, answered or not. -/
def Event.frame? : Event → Option (List Byte)
  | .xfer _ b _ _ | .unanswered _ b => some b
  | _ => none

/-- The channel an event's frame went to. -/
def Event.channel? : Event → Option ChanId
  | .xfer ch _ _ _ | .unanswered ch _ => ch
  | _ => none

/-- Whether an event is a delay. -/
def Event.isDelay : Event → Bool
  | .delay _ => true
  | _ => false

/-- The number of frames sent among some events. -/
def framesIn (es : List Event) : Nat := (es.filterMap Event.frame?).length

/-- The number of delays among some events. -/
def delaysIn (es : List Event) : Nat := (es.filter Event.isDelay).length

/-- A frame whose opcode is that of a mutating command. -/
abbrev mutatingFrame (b : List Byte) : Prop :=
  ∃ k : Command, k.mutating = true ∧ b.head? = some k.opcode

/-- A completed WRITE_ENABLE exchange. -/
abbrev Event.wrenDone (e : Event) : Prop := ∃ ch rx, e = .xfer ch wrenFrame 1 rx

/-- Every mutating command frame of an observation comes right after a completed WRITE_ENABLE exchange
(44_write_latch.md R222). -/
def wrenAdjacent (es : List Event) : Prop :=
  ∀ before e after, es = before ++ e :: after → (∃ b, e.frame? = some b ∧ mutatingFrame b) →
    ∃ earlier w, before = earlier ++ [w] ∧ w.wrenDone

/-! ## Effects and safe states -/

/-- The addresses an array effect may change (20_memory.md R86, R87). -/
def Effect.covers (e : Effect) (a : Nat) : Prop :=
  match e with
  | .program b data => b ≤ a ∧ a < b + data.length
  | .havocPage p => p ≤ a ∧ a < p + 256
  | .erase base size => base ≤ a ∧ a < base + size
  | .noChange => False

/-- An effect a frame of the block can start: a program or a page made a draw lies inside one page of the
transmissible window. -/
def Effect.wf : Effect → Prop
  | .program a data => a % 256 + data.length ≤ 256 ∧ a < Config.addrTxLimit
  | .havocPage p => p % 256 = 0 ∧ p < Config.addrTxLimit
  | .erase _ _ => True
  | .noChange => True

/-- What holds of the reference device in every run (20_memory.md R74 to R89): the array is in its
canonical form, the Unique ID has its length, and while busy WEL is set, an effect is pending and at
least one busy read is left; while not busy none is pending. -/
structure Dev.Ok (c : Config) (d : Dev) : Prop where
  mem : d.mem.wf
  uid : d.uid.length = c.uidLen.toNat
  busy : d.wip = true → d.wel = true ∧ 1 ≤ d.busyLeft ∧ d.pending.isSome = true
  notBusy : d.wip = false → d.pending = none
  effect : ∀ e, d.pending = some e → e.wf

/-- Where a request in flight can stand: the position is inside its family rule, and the phase is the one
of 10_state.md R32 there. -/
def State.placedIn (i : Instr) (s : State) : Prop :=
  match s.pos with
  | .idle => False
  | .busyCheck => i.toCommand = .pageProgram ∧ s.phase = .accepted
  | .writeEnable =>
    i.toCommand.mutating = true ∧
      s.phase = if i.toCommand = .pageProgram then .busyChecked else .accepted
  | .command => s.phase = i.commandPhase
  | .pollRead =>
    i.polls = true ∧
      (s.phase = .commandIssued ∧ s.polls = 0 ∨
        s.phase = .polling ∧ 1 ≤ s.polls ∧ s.polls < s.cfg.pollMax)
  | .pollDelay => i.polls = true ∧ s.phase = .polling ∧ 1 ≤ s.polls ∧ s.polls < s.cfg.pollMax
  | .ret v =>
    s.phase ≠ .idle ∧ v.res ∈ i.results ∧ v.res ≠ .invalidLength ∧ (v.res ≠ .ok → v.data = .nothing)

/-- A state in which a request in flight has passed its checks and has its place; a state without a
request is Idle. -/
def State.placed (s : State) : Prop :=
  match s.req with
  | none => s.phase = .idle ∧ s.pos = .idle
  | some (.command i) =>
    s.chan.isSome = true ∧ i.absentIn s.cfg = false ∧ i.framable = true ∧ s.placedIn i
  | some _ => False

/-- What holds at every step boundary of every run (10_state.md R51, and what it rests on). The clause
about the request is about states without a mark: log entry 4. -/
structure State.Inv (s : State) : Prop where
  config : s.cfg.wf
  polls : s.polls ≤ s.cfg.pollMax
  oneMark : s.faults.length ≤ 1
  place : s.faults = [] → s.placed
  device : s.env.dev.Ok s.cfg

end Sys2Proof.Machine
end

