-- ==== Sys2Proof/Certificates/Slice0/Obligations.lean ====
section
/-! DEFINITION. The statements for the provers. -/

open Sys2Proof Sys2Proof.Machine

/-! ## Encoding -/

/-- 30_encoding.md R102, R111: byte 0 tells the command, and the 13 opcodes are the only ones. -/
def Obligations.OpcodeMapIsExactlyThirteenCommands : Prop :=
  (∀ k : Command, Command.ofOpcode? k.opcode = some k) ∧
    ∀ b : Byte, (Command.ofOpcode? b).isSome = true ↔
      b.toNat ∈ [0x05, 0x9F, 0x4B, 0x03, 0x0B, 0x06, 0x04, 0x02, 0x20, 0x52, 0xD8, 0xC7, 0xB9]

/-- 30_encoding.md R101, R102: frames written out from the spec's tables decode to the commands they
stand for (95_test_vectors.md V-FR1, V-RD2, V-PP9, V-ER2, V-ER5, V-ER9). The linear operand and
`wait = false` are the model's choice: log entry 15. -/
def Obligations.WrittenFramesDecodeToTheirCommands : Prop :=
  decode Config.standard [0x05#8, 0x00#8] = .ok .readStatus ∧
    decode Config.standard [0x03#8, 0x12#8, 0x34#8, 0x56#8, 0x00#8, 0x00#8] =
      .ok (.read (.linear 0x123456) 2) ∧
    decode Config.standard [0x0B#8, 0x12#8, 0x34#8, 0x56#8, 0x00#8, 0x00#8, 0x00#8] =
      .ok (.fastRead (.linear 0x123456) 2) ∧
    decode Config.standard [0x02#8, 0x00#8, 0x00#8, 0x0A#8, 0x41#8, 0x42#8] =
      .ok (.pageProgram (.linear 0x00000A) [0x41#8, 0x42#8]) ∧
    decode Config.standard [0x20#8, 0xFF#8, 0xF0#8, 0x00#8] = .ok (.sectorErase 4095 false) ∧
    decode Config.standard [0x52#8, 0x01#8, 0x80#8, 0x00#8] = .ok (.blockErase32K 3 false) ∧
    decode Config.standard [0xD8#8, 0x12#8, 0x00#8, 0x00#8] = .ok (.blockErase64K 0x12 false) ∧
    decode Config.standard [0xC7#8] = .ok (.chipErase false)

/-- Decoding the frame of a request gives back the request, up to what no frame carries (the `wait`
operand and the `SectorOff` form, which `onWire` fixes by the model's choice: log entry 15); for a
request in that form it gives back the request itself. -/
def Obligations.DecodeOfEncodeGivesTheRequest : Prop :=
  ∀ (c : Config) (i : Instr), i.framable = true →
    decode c (encode c i) = .ok i.onWire ∧ (i.onWire = i → decode c (encode c i) = .ok i)

/-- 30_encoding.md R101, R108, R111: the decoder accepts only frames the block sends: what it accepts is
the frame of what it answers. That it answers only the `Linear` operand and `wait = false`, and takes only
`PAD_BYTE` in the placeholder, dummy and reserved bytes and only aligned erase addresses, is the model's
choice: log entry 15. -/
def Obligations.EncodeOfDecodeGivesTheFrame : Prop :=
  ∀ (c : Config) (b : List Byte) (i : Instr), decode c b = .ok i →
    encode c i = b ∧ i.framable = true ∧ i.onWire = i

/-- 30_encoding.md R101, R103, R114: the command frame that each family rule builds is the one of the
format table, unless the offset or the address is out of range. -/
def Obligations.FamilyFramesFollowTheFormatTable : Prop :=
  ∀ (c : Config) (i : Instr),
    (i.offsetBad = true → (ruleOf c i).frame = .error .offsetRange) ∧
      (i.offsetBad = false → i.addrBad = true → (ruleOf c i).frame = .error .addrRange) ∧
      (i.offsetBad = false → i.addrBad = false → (ruleOf c i).frame = .ok (encode c i))

/-! ## The address decoder -/

/-- 41_address_decoder.md R165. -/
def Obligations.AddressDecompositionRoundTrips : Prop :=
  (∀ a : Nat, linearOf (sectorOf a) (sectorOffset a) = .ok a ∧
      block32Of a <<< 15 ||| block32Offset a = a ∧ block64Of a <<< 16 ||| block64Offset a = a) ∧
    ∀ n : Nat, sectorOf (sectorAddr n) = n ∧ sectorOffset (sectorAddr n) = 0 ∧
      block32Of (block32Addr n) = n ∧ block32Offset (block32Addr n) = 0 ∧
      block64Of (block64Addr n) = n ∧ block64Offset (block64Addr n) = 0

/-- 41_address_decoder.md R167. -/
def Obligations.EraseGranularitiesNest : Prop :=
  (∀ a : Nat, block32Of a = sectorOf a >>> 3 ∧ block64Of a = block32Of a >>> 1) ∧
    ∀ n : Nat,
      (block32Addr (n >>> 3) ≤ sectorAddr n ∧ sectorAddr (n + 1) ≤ block32Addr (n >>> 3 + 1)) ∧
        (block64Addr (n >>> 4) ≤ sectorAddr n ∧ sectorAddr (n + 1) ≤ block64Addr (n >>> 4 + 1))

/-- 41_address_decoder.md R160 to R164: a DECODE request answers, in its acceptance step and with or
without a handle, the number its query names, computed without wrapping; LINEAR with an offset of 4096
or more records `OFFSET_RANGE` and answers nothing. That a faulted request stays in `req` is log entry
4. -/
def Obligations.DecodeRequestsAnswerTheirNumber : Prop :=
  ∀ (s : State) (q : DecodeQuery), s.waiting →
    (q.offsetBad = false →
      execDecode q s = .next { s with
        resp := some ⟨.ok, .num q.number⟩
        trace := s.trace ++ [.response ⟨.ok, .num q.number⟩] }) ∧
    (q.offsetBad = true →
      execDecode q s = .next { s with
        req := some (.decode q)
        faults := [.fault .offsetRange]
        trace := s.trace ++ [.stopped (.fault .offsetRange)] })

/-! ## Acceptance, priority, stops -/

/-- 70_reset_and_hazards.md R362: BEGIN binds an unbound block and returns `OK` without a frame; on a
bound block it records `REBIND` and the channel stays. -/
def Obligations.BeginBindsTheChannelOnce : Prop :=
  ∀ (s : State) (ch : ChanId), s.waiting →
    (s.chan = none →
      execBegin ch s = .next { s with
        chan := some ch
        resp := some ⟨.ok, .nothing⟩
        trace := s.trace ++ [.response ⟨.ok, .nothing⟩] }) ∧
    (s.chan ≠ none →
      execBegin ch s = .next { s with
        req := some (.beginOn ch)
        faults := [.fault .rebind]
        trace := s.trace ++ [.stopped (.fault .rebind)] })

/-- 40_framing.md R130, 60_exceptions.md R325 (items 2 to 6): acceptance decides, in this order,
`UNBOUND`, `ERASE32_ABSENT`, `OFFSET_RANGE`, `ADDR_RANGE`, `INVALID_LENGTH`, and otherwise latches the
request with its first event next; it sends no frame. That acceptance is one step, with an
`INVALID_LENGTH` return inside it, is log entry 1; that a stopped request stays in `req` is log entry 4. -/
def Obligations.AcceptanceDecidesInPriorityOrder : Prop :=
  ∀ (i : Instr) (s : State), s.waiting →
    exec i s = .next (
      if s.chan = none then
        { s with
          req := some (.command i)
          faults := [.fault .unbound]
          trace := s.trace ++ [.stopped (.fault .unbound)] }
      else if i.absentIn s.cfg then
        { s with
          req := some (.command i)
          faults := [.refusal .erase32Absent]
          trace := s.trace ++ [.stopped (.refusal .erase32Absent)] }
      else if i.offsetBad then
        { s with
          req := some (.command i)
          phase := .accepted
          faults := [.fault .offsetRange]
          trace := s.trace ++ [.stopped (.fault .offsetRange)] }
      else if i.addrBad then
        { s with
          req := some (.command i)
          phase := .accepted
          faults := [.fault .addrRange]
          trace := s.trace ++ [.stopped (.fault .addrRange)] }
      else if i.tooLong then
        { s with
          resp := some ⟨.invalidLength, .nothing⟩
          trace := s.trace ++ [.response ⟨.invalidLength, .nothing⟩] }
      else
        { s with
          req := some (.command i)
          phase := .accepted
          pos :=
            if i.toCommand = .pageProgram then .busyCheck
            else if i.toCommand.mutating then .writeEnable else .command })

/-- 10_state.md R37: a state with a recorded fault or refusal has no further step, whichever request is
tried; a step that is taken starts without a mark and records at most one; reset records none. -/
def Obligations.MarkedStateHasNoFurtherStep : Prop :=
  (∀ (s : State) (m : Mark) (ms : List Mark), s.faults = m :: ms →
    step s = m.stop ∧ (∀ i, exec i s = m.stop) ∧ (∀ ch, execBegin ch s = m.stop) ∧
      ∀ q, execDecode q s = m.stop) ∧
    (∀ s t : State, step s = .next t → s.faults = [] ∧ (t.faults = [] ∨ ∃ m, t.faults = [m])) ∧
    ∀ c, (State.resetWith c).faults = []

/-- 10_state.md R45: a request offered while another is in flight has no move, and a step of a request in
flight takes nothing from the host. The stop's form is log entry 14. -/
def Obligations.OfferInFlightHasNoMove : Prop :=
  ∀ s : State, s.faults = [] → s.phase ≠ .idle →
    (∀ i, s.req ≠ some (.command i) → exec i s = .fault .noMove) ∧
      (∀ ch, execBegin ch s = .fault .noMove) ∧ (∀ q, execDecode q s = .fault .noMove) ∧
      ∀ q t, s.req = some q → step s = .next t → t.host = s.host

/-! ## The step -/

/-- A step is `perform` of the request in flight, or of the host's next request when none is in flight;
for a request that emits a command that is `exec` of it. The word of an opcode-table row, placed by
`withFetchWord`, is run by the very next step (log entry 16). -/
def Obligations.StepRunsTheRequest : Prop :=
  (∀ (s : State) (i : Instr), s.faults = [] → s.req = some (.command i) → step s = exec i s) ∧
    (∀ (s : State) (i : Instr) (rest : List Request), s.faults = [] → s.req = none →
      s.host = .command i :: rest → i.wf = true → step s = exec i { s with host := rest }) ∧
    (∀ (s : State) (ch : ChanId) (rest : List Request), s.faults = [] → s.req = none →
      s.host = .beginOn ch :: rest → step s = execBegin ch { s with host := rest }) ∧
    (∀ (s : State) (q : DecodeQuery) (rest : List Request), s.faults = [] → s.req = none →
      s.host = .decode q :: rest → q.wf = true → step s = execDecode q { s with host := rest }) ∧
    ∀ (s : State) (nbits w : Nat) (i : Instr), decodeTableWord nbits w = some i → i.wf = true →
      step (s.withFetchWord nbits w) =
        exec i { s with
          chan := some (s.chan.getD 0), phase := .idle, req := none, pos := .idle, faults := [] }

/-! ## The transport -/

/-- 00_scope.md R12, R17: under the oracle an exchange can return any signed count and any received bytes
of the frame's length, and the device plays no part. The list of answers is log entry 8. -/
def Obligations.OracleMayAnswerAnything : Prop :=
  ∀ (c : Config) (buf rx : List Byte) (cnt : Int) (v : Env) (rest : List Answer),
    v.link = .oracle → rx.length = buf.length → v.answers = ⟨cnt, rx⟩ :: rest →
    ∃ w, exchange c buf v = (.answered cnt rx, w) ∧ w.dev = v.dev ∧ w.answers = rest ∧
      w.link = .oracle

/-- 00_scope.md R12, 10_state.md R47: whichever environment answers, it receives as many bytes as were
sent. -/
def Obligations.ReceivedBufferHasTheFramesLength : Prop :=
  ∀ (c : Config) (buf rx : List Byte) (cnt : Int) (v w : Env),
    exchange c buf v = (.answered cnt rx, w) → rx.length = buf.length

/-- 20_memory.md R75, R91: the reference environment answers with the frame's length wherever no failure
is injected on this exchange, whatever failures are laid out for later ones; where one is injected, the
count is the failure's, and the device carried the frame out in full or not at all. An exchange takes one
entry of the list. The list of failures, and that a frame carried out meets the device's guards, are log
entry 9. -/
def Obligations.ReferenceFailsOnlyWhereInjected : Prop :=
  ∀ (c : Config) (buf : List Byte) (v : Env), v.link = .reference →
    (v.injected buf.length = none → ∀ cnt rx w, exchange c buf v = (.answered cnt rx, w) →
      cnt = buf.length ∧ w.failures = v.failures.tail) ∧
    ∀ f fs, v.failures = some f :: fs → f.cnt ≠ buf.length →
      (f.carriedOut = false →
        ∃ rx w, exchange c buf v = (.answered f.cnt rx, w) ∧ w.dev = v.dev ∧ w.failures = fs) ∧
      (f.carriedOut = true → ∀ rx w, deviceFrame c buf { v with failures := fs } = .ok (rx, w) →
        ∃ rx' w', exchange c buf v = (.answered f.cnt rx', w') ∧ w'.dev = w.dev ∧ w'.failures = fs)

/-- 40_framing.md R134, R135: wherever a request sends a frame, a count other than the frame's length
ends the request with `(TRANSPORT_ERROR, none)`: the next step returns it, and nothing is sent in
between. -/
def Obligations.WrongCountEndsInTransportError : Prop :=
  ∀ (i : Instr) (s : State) (p : Pos) (ph : Phase) (buf rx : List Byte) (cnt : Int) (v : Env),
    s.Inv → s.standsAt i p ph → i.frameAt s.cfg p = some buf →
    exchange s.cfg buf s.env = (.answered cnt rx, v) → cnt ≠ buf.length →
    ∃ t, exec i s = .next t ∧ t.phase = ph ∧ exec i t = .next { s with
      env := v
      resp := some ⟨.transportError, .nothing⟩
      phase := .idle
      req := none
      pos := .idle
      trace := s.trace ++ [.xfer s.chan buf cnt rx, .response ⟨.transportError, .nothing⟩] }

/-- 00_scope.md R14, 60_exceptions.md R326: a return writes the response, makes the phase Idle and clears
the request; nothing else changes. -/
def Obligations.ReturnWritesResponseAndGoesIdle : Prop :=
  ∀ (i : Instr) (s : State) (r : Response) (ph : Phase), ph ≠ .idle → s.standsAt i (.ret r) ph →
    exec i s = .next { s with
      resp := some r
      phase := .idle
      req := none
      pos := .idle
      trace := s.trace ++ [.response r] }

/-! ## Requests of one frame -/

/-- 42_status_id.md R180: `[05, PAD]`, and the whole status byte `rx[1]`. That a request stopped by
`UNBOUND` stays in `req`, with the phase Idle, is log entry 4. -/
def Obligations.ReadStatusReturnsTheStatusByte : Prop :=
  oneFrame .readStatus (fun c => [0x05#8, c.padByte]) (fun _ rx => .bytes [byteAt rx 1])

/-- 42_status_id.md R182: `[9F, PAD, PAD, PAD]`, and `rx[1..4)` as received. That a request stopped by
`UNBOUND` stays in `req`, with the phase Idle, is log entry 4. -/
def Obligations.ReadJedecIdReturnsThreeBytes : Prop :=
  oneFrame .readJedecId (fun c => [0x9F#8, c.padByte, c.padByte, c.padByte])
    (fun _ rx => .bytes (slice rx 1 3))

/-- 42_status_id.md R184: `[4B]`, four reserved bytes and `UID_LEN` placeholders, and
`rx[5..5+UID_LEN)`. That a request stopped by `UNBOUND` stays in `req`, with the phase Idle, is log entry
4. -/
def Obligations.ReadUniqueIdReturnsUidLenBytes : Prop :=
  oneFrame .readUniqueId
    (fun c => 0x4B#8 :: List.replicate 4 c.padByte ++ List.replicate c.uidLen.toNat c.padByte)
    (fun c rx => .bytes (slice rx 5 c.uidLen.toNat))

/-- 43_read.md R200: `[03] ++ A ++ Pad(n)`, and `rx[4..4+n)`; an operand out of range faults before any
frame. That it does so in the acceptance step is log entry 1; that a stopped request stays in `req`, with
the phase it had, is log entry 4. -/
def Obligations.ReadReturnsTheDataSlice : Prop :=
  ∀ (x : AddrOperand) (n : Nat),
    (x.framable = true →
      oneFrame (.read x n)
        (fun c => 0x03#8 :: addressField x.address ++ List.replicate n c.padByte)
        (fun _ rx => .bytes (slice rx 4 n))) ∧
    addressFaults (.read x n)

/-- 43_read.md R201: `[0B] ++ A ++ [PAD] ++ Pad(n)`, and `rx[5..5+n)`; an operand out of range faults
before any frame. That it does so in the acceptance step is log entry 1; that a stopped request stays in
`req`, with the phase it had, is log entry 4. -/
def Obligations.FastReadReturnsTheDataSlice : Prop :=
  ∀ (x : AddrOperand) (n : Nat),
    (x.framable = true →
      oneFrame (.fastRead x n)
        (fun c => 0x0B#8 :: addressField x.address ++ [c.padByte] ++ List.replicate n c.padByte)
        (fun _ rx => .bytes (slice rx 5 n))) ∧
    addressFaults (.fastRead x n)

/-- 44_write_latch.md R220, R221, 48_power.md R310: WRITE_ENABLE, WRITE_DISABLE and DEEP_POWER_DOWN are
one frame of one byte, and return `OK` with no data. That a request stopped by `UNBOUND` stays in `req`,
with the phase Idle, is log entry 4. -/
def Obligations.LatchAndPowerCommandsAreOneByte : Prop :=
  oneFrame .writeEnable (fun _ => [0x06#8]) (fun _ _ => .nothing) ∧
    oneFrame .writeDisable (fun _ => [0x04#8]) (fun _ _ => .nothing) ∧
    oneFrame .deepPowerDown (fun _ => [0xB9#8]) (fun _ _ => .nothing)

/-! ## Mutating requests -/

/-- 47_erase.md R281: sector `n` below 4096 is `[20] ++ Addr24(n << 12)` in the erase sequence; a larger
index faults. That it does so in the acceptance step is log entry 1; that a stopped request stays in
`req`, with the phase Accepted, is log entry 4. -/
def Obligations.SectorEraseRunsTheEraseSequence : Prop :=
  ∀ (n : Nat) (wait : Bool),
    (n < 4096 →
      eraseSequence (.sectorErase n wait) (0x20#8 :: addressField (n * 4096)) wait) ∧
    addressFaults (.sectorErase n wait)

/-- 47_erase.md R282, R283: 32 KiB block `b` below 512 is `[52] ++ Addr24(b << 15)`, and 64 KiB block `b`
below 256 is `[D8] ++ Addr24(b << 16)`, in the erase sequence; larger indices fault. A bound block without
the 32 KiB erase refuses BLOCK_ERASE_32K of any index with `ERASE32_ABSENT`, before any frame; the 64 KiB
erase is never absent. That a fault is raised in the acceptance step is log entry 1; that a stopped
request stays in `req`, with the phase it had, is log entry 4. -/
def Obligations.BlockErasesRunTheEraseSequence : Prop :=
  ∀ (b : Nat) (wait : Bool),
    (b < 512 → eraseSequence (.blockErase32K b wait) (0x52#8 :: addressField (b * 32768)) wait) ∧
    addressFaults (.blockErase32K b wait) ∧
    (b < 256 → eraseSequence (.blockErase64K b wait) (0xD8#8 :: addressField (b * 65536)) wait) ∧
    addressFaults (.blockErase64K b wait) ∧
    (∀ s : State, s.waiting → s.chan ≠ none → s.cfg.hasErase32 = false →
      exec (.blockErase32K b wait) s = .next { s with
        req := some (.command (.blockErase32K b wait))
        faults := [.refusal .erase32Absent]
        trace := s.trace ++ [.stopped (.refusal .erase32Absent)] }) ∧
    ∀ c : Config, (Instr.blockErase64K b wait).absentIn c = false ∧
      ((Instr.blockErase32K b wait).absentIn c = true ↔ c.hasErase32 = false)

/-- 47_erase.md R284: CHIP_ERASE is `[C7]`, without an address, in the erase sequence. -/
def Obligations.ChipEraseRunsTheEraseSequence : Prop :=
  ∀ wait : Bool, eraseSequence (.chipErase wait) [0xC7#8] wait

/-- 46_page_program.md R261: a payload of more than 256 bytes at an address in range ends in
`INVALID_LENGTH` before any frame, with the environment untouched. -/
def Obligations.OverlongProgramEndsInInvalidLength : Prop :=
  ∀ (x : AddrOperand) (d : List Byte) (s : State), s.waiting → s.chan ≠ none → x.framable = true →
    256 < d.length →
    exec (.pageProgram x d) s = .next { s with
      resp := some ⟨.invalidLength, .nothing⟩
      trace := s.trace ++ [.response ⟨.invalidLength, .nothing⟩] }

/-- 46_page_program.md R262: the busy pre-check sends one READ_STATUS frame; a busy answer ends the
request with `DEVICE_BUSY` and nothing more is sent, whatever WEL says. -/
def Obligations.BusyPreCheckEndsInDeviceBusy : Prop :=
  ∀ (x : AddrOperand) (d : List Byte) (s : State) (ch : ChanId) (rx : List Byte) (v : Env),
    s.waiting → s.chan = some ch → x.framable = true → d.length ≤ 256 →
    exchange s.cfg [0x05#8, s.cfg.padByte] s.env = (.answered 2 rx, v) → busy (byteAt rx 1) = true →
    ∃ t u, exec (.pageProgram x d) s = .next t ∧ exec (.pageProgram x d) t = .next u ∧
      exec (.pageProgram x d) u = .next { s with
        env := v
        resp := some ⟨.deviceBusy, .nothing⟩
        trace := s.trace ++ [.xfer (some ch) [0x05#8, s.cfg.padByte] 2 rx,
          .response ⟨.deviceBusy, .nothing⟩] }

/-- 46_page_program.md R260, R263: on a device that is not busy, PAGE_PROGRAM sends the status frame,
WRITE_ENABLE and `[02] ++ A ++ d`, through the phases of 10_state.md R32, and then polls from zero busy
reads whatever the host asked; a first poll read that is not busy returns `(OK, count(4 + m))`. -/
def Obligations.PageProgramRunsItsSequence : Prop :=
  ∀ (x : AddrOperand) (d : List Byte) (s : State) (ch : ChanId) (rx1 rx2 rx3 : List Byte)
    (v1 v2 v3 : Env),
    s.waiting → s.chan = some ch → x.framable = true → d.length ≤ 256 →
    exchange s.cfg [0x05#8, s.cfg.padByte] s.env = (.answered 2 rx1, v1) →
    busy (byteAt rx1 1) = false →
    exchange s.cfg [0x06#8] v1 = (.answered 1 rx2, v2) →
    exchange s.cfg (0x02#8 :: addressField x.address ++ d) v2 = (.answered (4 + d.length : Nat) rx3, v3) →
    ∃ t u w y, exec (.pageProgram x d) s = .next t ∧ t.phase = .accepted ∧
      exec (.pageProgram x d) t = .next u ∧ u.phase = .busyChecked ∧
      exec (.pageProgram x d) u = .next w ∧ w.phase = .writeEnabled ∧
      exec (.pageProgram x d) w = .next y ∧
      y = { s with
        req := some (.command (.pageProgram x d))
        phase := .commandIssued
        pos := .pollRead
        polls := 0
        env := v3
        trace := s.trace ++ [.xfer (some ch) [0x05#8, s.cfg.padByte] 2 rx1,
          .xfer (some ch) [0x06#8] 1 rx2,
          .xfer (some ch) (0x02#8 :: addressField x.address ++ d) (4 + d.length : Nat) rx3] } ∧
      ∀ rx4 v4, exchange s.cfg [0x05#8, s.cfg.padByte] v3 = (.answered 2 rx4, v4) →
        busy (byteAt rx4 1) = false →
        ∃ z, exec (.pageProgram x d) y = .next z ∧ exec (.pageProgram x d) z = .next { s with
          polls := 0
          env := v4
          resp := some ⟨.ok, .count (4 + d.length)⟩
          trace := s.trace ++ [.xfer (some ch) [0x05#8, s.cfg.padByte] 2 rx1,
            .xfer (some ch) [0x06#8] 1 rx2,
            .xfer (some ch) (0x02#8 :: addressField x.address ++ d) (4 + d.length : Nat) rx3,
            .xfer (some ch) [0x05#8, s.cfg.padByte] 2 rx4, .response ⟨.ok, .count (4 + d.length)⟩] }

/-! ## The poll -/

/-- 45_busy_poller.md R230, R236: a status read of the poll that is not busy is Ready; a busy one adds 1
to `polls`, and at `POLL_MAX` ends the request with `POLL_TIMEOUT`, or puts a delay next. -/
def Obligations.PollReadDecidesOnBusyAlone : Prop :=
  ∀ (i : Instr) (s : State) (ph : Phase) (rx : List Byte) (v : Env), i.polls = true → ph ≠ .idle →
    s.standsAt i .pollRead ph →
    exchange s.cfg [0x05#8, s.cfg.padByte] s.env = (.answered 2 rx, v) →
    exec i s = .next (
      if (byteAt rx 1).toNat % 2 = 1 then
        { s with
          env := v
          trace := s.trace ++ [.xfer s.chan [0x05#8, s.cfg.padByte] 2 rx]
          polls := s.polls + 1
          phase := .polling
          pos := if s.cfg.pollMax ≤ s.polls + 1 then .ret ⟨.pollTimeout, .nothing⟩ else .pollDelay }
      else
        { s with
          env := v
          trace := s.trace ++ [.xfer s.chan [0x05#8, s.cfg.padByte] 2 rx]
          pos := .ret ⟨.ok, i.keeps s.cfg []⟩ })

/-- 45_busy_poller.md R231, 00_scope.md R13: the delay between two status reads carries the interval of
its kind, and changes nothing else. -/
def Obligations.PollDelayCarriesTheKindsInterval : Prop :=
  ∀ (s : State) (ph : Phase), ph ≠ .idle →
    (∀ x d, s.standsAt (.pageProgram x d) .pollDelay ph →
      exec (.pageProgram x d) s =
        .next { s with pos := .pollRead, trace := s.trace ++ [.delay s.cfg.pollIntervalPP] }) ∧
    (∀ n, s.standsAt (.sectorErase n true) .pollDelay ph →
      exec (.sectorErase n true) s =
        .next { s with pos := .pollRead, trace := s.trace ++ [.delay s.cfg.pollIntervalSector] }) ∧
    (∀ b, s.standsAt (.blockErase32K b true) .pollDelay ph →
      exec (.blockErase32K b true) s =
        .next { s with pos := .pollRead, trace := s.trace ++ [.delay s.cfg.pollIntervalBlock] }) ∧
    (∀ b, s.standsAt (.blockErase64K b true) .pollDelay ph →
      exec (.blockErase64K b true) s =
        .next { s with pos := .pollRead, trace := s.trace ++ [.delay s.cfg.pollIntervalBlock] }) ∧
    (s.standsAt (.chipErase true) .pollDelay ph →
      exec (.chipErase true) s =
        .next { s with pos := .pollRead, trace := s.trace ++ [.delay s.cfg.pollIntervalChip] })

/-- 45_busy_poller.md R233: after `k` busy reads, `k` below `POLL_MAX`, and one read that is not busy, a
poll has sent `k + 1` status frames and `k` delays and the request returns its `OK` response. The
oracle's answers are the busy ones, then the last. -/
def Obligations.PollEndsReadyAfterFewerBusyReads : Prop :=
  ∀ (i : Instr) (s : State) (ph : Phase) (busyAnswers : List (List Byte)) (last : List Byte)
    (rest : List Answer),
    i.polls = true → ph ≠ .idle → s.standsAt i .pollRead ph → s.polls = 0 → s.env.link = .oracle →
    s.env.answers = busyAnswers.map (fun rx => ⟨2, rx⟩) ++ ⟨2, last⟩ :: rest →
    (∀ rx ∈ busyAnswers, rx.length = 2 ∧ busy (byteAt rx 1) = true) →
    last.length = 2 → busy (byteAt last 1) = false → busyAnswers.length < s.cfg.pollMax →
    ∃ t, execTimes i (2 * busyAnswers.length + 2) s = .next t ∧ t.phase = .idle ∧ t.req = none ∧
      t.resp = some ⟨.ok, i.keeps s.cfg []⟩ ∧ t.polls = busyAnswers.length ∧ t.faults = [] ∧
      t.env.answers = rest ∧
      t.trace = s.trace ++
        busyAnswers.flatMap (fun rx => [.xfer s.chan [0x05#8, s.cfg.padByte] 2 rx,
          .delay (pollInterval s.cfg i.pollKind)]) ++
        [.xfer s.chan [0x05#8, s.cfg.padByte] 2 last, .response ⟨.ok, i.keeps s.cfg []⟩]

/-- 45_busy_poller.md R233: after `POLL_MAX` busy reads a poll has sent `POLL_MAX` status frames and
`POLL_MAX - 1` delays and the request returns `POLL_TIMEOUT`. -/
def Obligations.PollTimesOutAfterPollMaxBusyReads : Prop :=
  ∀ (i : Instr) (s : State) (ph : Phase) (busyAnswers : List (List Byte)) (rest : List Answer),
    i.polls = true → ph ≠ .idle → s.standsAt i .pollRead ph → s.polls = 0 → s.env.link = .oracle →
    s.env.answers = busyAnswers.map (fun rx => ⟨2, rx⟩) ++ rest →
    (∀ rx ∈ busyAnswers, rx.length = 2 ∧ busy (byteAt rx 1) = true) →
    1 ≤ s.cfg.pollMax → busyAnswers.length = s.cfg.pollMax →
    ∃ t events, execTimes i (2 * busyAnswers.length) s = .next t ∧ t.phase = .idle ∧ t.req = none ∧
      t.resp = some ⟨.pollTimeout, .nothing⟩ ∧ t.polls = s.cfg.pollMax ∧ t.faults = [] ∧
      t.env.answers = rest ∧ t.trace = s.trace ++ events ++ [.response ⟨.pollTimeout, .nothing⟩] ∧
      events.filterMap Event.frame? = List.replicate s.cfg.pollMax [0x05#8, s.cfg.padByte] ∧
      framesIn events = s.cfg.pollMax ∧ delaysIn events = s.cfg.pollMax - 1

/-- 45_busy_poller.md R233: whatever the environment answers, a request that is accepted ends within a
bounded number of steps, in Idle or with a recorded mark, having sent at most `3 + POLL_MAX` frames and
`POLL_MAX - 1` delays. -/
def Obligations.EveryRequestEndsWithinItsBound : Prop :=
  ∀ (i : Instr) (s : State), s.Inv → s.waiting →
    ∃ k t events, 1 ≤ k ∧ k ≤ 2 * s.cfg.pollMax + 5 ∧ execTimes i k s = .next t ∧
      (t.faults ≠ [] ∨ (t.phase = .idle ∧ t.req = none ∧ t.resp.isSome = true)) ∧
      t.trace = s.trace ++ events ∧ framesIn events ≤ 3 + s.cfg.pollMax ∧
      delaysIn events ≤ s.cfg.pollMax - 1

/-! ## The whole machine -/

/-- 10_state.md R51 and what it rests on: every step keeps the invariant, from every state that has it. -/
def Obligations.EveryStepKeepsTheInvariant : Prop :=
  ∀ s t : State, s.Inv → step s = .next t → t.Inv

/-- 10_state.md R50: construction gives every element its reset value, and the state has the invariant,
for every configuration that meets its conditions. -/
def Obligations.ResetValuesMeetTheInvariant : Prop :=
  State.reset.Inv ∧
    ∀ c : Config, c.wf →
      (State.resetWith c).Inv ∧ (State.resetWith c).chan = none ∧
        (State.resetWith c).phase = .idle ∧ (State.resetWith c).req = none ∧
        (State.resetWith c).polls = 0 ∧ (State.resetWith c).resp = none ∧
        (State.resetWith c).faults = [] ∧ (State.resetWith c).cfg = c

/-- 10_state.md R31, R44: a step changes the channel only from unbound, and only by a BEGIN that the host
offers; no step changes the configuration. -/
def Obligations.ChannelAndConfigurationAreFixed : Prop :=
  ∀ s t : State, s.Inv → step s = .next t →
    t.cfg = s.cfg ∧ (∀ ch, s.chan = some ch → t.chan = some ch) ∧
      (t.chan ≠ s.chan → s.chan = none ∧ s.req = none ∧
        ∃ ch rest, s.host = .beginOn ch :: rest ∧ t.chan = some ch)

/-- 44_write_latch.md R222: every mutating command frame of an observation comes right after a completed
WRITE_ENABLE exchange, with no frame and no delay between: every step keeps it, and keeps that a command
frame still to be sent in phase WriteEnabled has that exchange as the last event before it. -/
def Obligations.WriteEnableComesRightBeforeEveryMutatingFrame : Prop :=
  ∀ s t : State, s.Inv → step s = .next t →
    (wrenAdjacent s.trace ∧ (s.faults = [] → s.phase = .writeEnabled → s.pos = .command →
      ∃ w, s.trace.getLast? = some w ∧ w.wrenDone)) →
    wrenAdjacent t.trace ∧ (t.faults = [] → t.phase = .writeEnabled → t.pos = .command →
      ∃ w, t.trace.getLast? = some w ∧ w.wrenDone)

/-- 10_state.md R47, 30_encoding.md R108, R111, R114, 40_framing.md R139: a step sends at most one frame;
it goes to the bound channel, and it is the frame that the family rule of the request in flight sends at
the position it has reached. A request that is not mutating sends its command frame and no other. -/
def Obligations.OnlyFramesOfTheRequestAreSent : Prop :=
  ∀ s t : State, s.Inv → step s = .next t →
    ∃ events, t.trace = s.trace ++ events ∧ framesIn events ≤ 1 ∧
      ∀ e ∈ events, ∀ b, e.frame? = some b →
        e.channel? = s.chan ∧ s.chan ≠ none ∧
          ∃ i, s.req = some (.command i) ∧ i.framable = true ∧ i.frameAt s.cfg s.pos = some b ∧
            (i.toCommand.mutating = false → b = encode s.cfg i)

/-- 60_exceptions.md R320, R321: a request in flight returns only results of its row of the table, and a
result other than `OK` carries no data. -/
def Obligations.ResultsAreThoseOfTheTable : Prop :=
  ∀ (s t : State) (i : Instr), s.Inv → s.req = some (.command i) → step s = .next t → t.req = none →
    ∃ r, t.resp = some r ∧ r.res ∈ i.results ∧ (r.res ≠ .ok → r.data = .nothing)

/-- 10_state.md R36: the last response never affects a step. -/
def Obligations.LastResponseIsNeverRead : Prop :=
  ∀ (s : State) (r : Option Response),
    mapNext (fun t => { t with resp := none }) (step { s with resp := r }) =
      mapNext (fun t => { t with resp := none }) (step s)

/-- 10_state.md R38: the block reads no device state but by an exchange: under the oracle, the device has
no influence on any step. -/
def Obligations.OracleRunsIgnoreTheDevice : Prop :=
  ∀ (s : State) (d : Dev), s.env.link = .oracle →
    step { s with env := { s.env with dev := d } } =
      mapNext (fun t => { t with env := { t.env with dev := d } }) (step s)

/-- 10_state.md R45, R51, 60_exceptions.md R323: the machine never gets stuck. From every state that
has the invariant and no mark, the step answers a next state; the one exception is a term of the host
that is no request of the closed set, offered while none is in flight, which is refused by type. That the
machine stays as it is while the host offers nothing is log entry 13, and the form of the refusal is log
entry 19. -/
def Obligations.UnmarkedStateAlwaysSteps : Prop :=
  ∀ s : State, s.Inv → s.faults = [] →
    ((∀ q rest, s.req = none → s.host = q :: rest → q.wf = true) → ∃ t, step s = .next t) ∧
      (∀ q rest, s.req = none → s.host = q :: rest → q.wf = false → step s = .refused .notARequest) ∧
      (s.req = none → s.host = [] → step s = .next s)

/-- 20_memory.md R76, 30_encoding.md R111: no step of the machine sends the reference device a frame that
has no meaning to it (log entry 18), so that fault is never recorded. -/
def Obligations.EveryFrameHasAMeaningToTheDevice : Prop :=
  ∀ s t : State, s.Inv → step s = .next t → Mark.fault .devNoMeaning ∉ t.faults

/-! ## What a step leaves alone -/

/-- 10_state.md R30, R34, R36: a step of a request that emits a command leaves the configuration, the
channel, the host's requests, which environment answers, and the device's Unique ID and status bits 7:2
as they were; it leaves `polls` unless the request polls, the response unless it ends the request, and
the environment unless it sends a frame. -/
def Obligations.RequestStepFrame : Prop :=
  ∀ (i : Instr) (s t : State), exec i s = .next t →
    t.cfg = s.cfg ∧ t.chan = s.chan ∧ t.host = s.host ∧ t.env.link = s.env.link ∧
      t.env.dev.uid = s.env.dev.uid ∧ t.env.dev.srHigh = s.env.dev.srHigh ∧
      (i.polls = false → t.polls = s.polls) ∧
      (t.resp ≠ s.resp → t.phase = .idle ∧ t.req = none) ∧
      (s.phase = .idle ∨ i.frameAt s.cfg s.pos = none → t.env = s.env)

/-- 20_memory.md R66, R78, R85 to R88: a step of any request changes no byte of the array outside the
addresses of the effect that was pending, and, for PAGE_PROGRAM, of the effect its own frame starts. -/
def Obligations.ArrayChangesOnlyWhereAnEffectLands : Prop :=
  ∀ (i : Instr) (s t : State), s.Inv → exec i s = .next t → ∀ a : Nat,
    (∀ e, s.env.dev.pending = some e → ¬ e.covers a) →
    (∀ x d, i = .pageProgram x d → x.framable = true → ¬ (programEffect x.address d).covers a) →
    t.env.dev.mem.read a = s.env.dev.mem.read a

/-- 20_memory.md R79 to R84, R89, R98: a step of READ, FAST_READ, READ_JEDEC_ID or READ_UNIQUE_ID leaves
the device as it was; one of WRITE_ENABLE, WRITE_DISABLE or DEEP_POWER_DOWN changes at most WEL, WEL and
the power state. -/
def Obligations.NonMutatingStepsLeaveTheDevice : Prop :=
  ∀ (i : Instr) (s t : State), exec i s = .next t →
    (i.toCommand ∈ [.read, .fastRead, .readJedecId, .readUniqueId] → t.env.dev = s.env.dev) ∧
      (i = .writeEnable → t.env.dev = s.env.dev ∨ t.env.dev = { s.env.dev with wel := true }) ∧
      (i = .writeDisable → t.env.dev = s.env.dev ∨ t.env.dev = { s.env.dev with wel := false }) ∧
      (i = .deepPowerDown → t.env.dev = s.env.dev ∨ t.env.dev = { s.env.dev with pd := true })

/-! ## The reference device -/

/-- 20_memory.md R76: a powered-down device raises `DEV_POWERED_DOWN` on any frame, and a busy one
`DEV_BUSY_CMD` on any frame but READ_STATUS; the frame was sent, and the mark is recorded. The event `unanswered` is
the model's own, log entry 17; that the stopped request keeps `req` and its phase is log entry 4. -/
def Obligations.DeviceGuardsRecordTheirFaults : Prop :=
  ∀ (i : Instr) (s : State) (p : Pos) (ph : Phase) (buf : List Byte),
    s.Inv → s.standsAt i p ph → i.frameAt s.cfg p = some buf → s.env.link = .reference →
    s.env.failures = [] →
    (s.env.dev.pd = true →
      exec i s = .next { s with
        faults := [.fault .devPoweredDown]
        trace := s.trace ++ [.unanswered s.chan buf, .stopped (.fault .devPoweredDown)] }) ∧
    (s.env.dev.pd = false → s.env.dev.wip = true → buf.head? ≠ some 0x05#8 →
      exec i s = .next { s with
        faults := [.fault .devBusyCmd]
        trace := s.trace ++ [.unanswered s.chan buf, .stopped (.fault .devBusyCmd)] })

/-- 20_memory.md R77, R78: READ_STATUS returns the status from before the countdown; while busy it counts
down, and the read that reaches zero lands the pending effect and clears WIP and WEL. Free values in a
landing effect are log entry 6. -/
def Obligations.StatusReadReportsThenCountsDown : Prop :=
  ∀ s : State, s.Inv → s.standsAt .readStatus .command .accepted → s.env.link = .reference →
    s.env.failures = [] → s.env.dev.pd = false →
    ∃ t, exec .readStatus s = .next t ∧
      (∃ st : Byte, t.pos = .ret ⟨.ok, .bytes [st]⟩ ∧ busy st = s.env.dev.wip ∧ wel st = s.env.dev.wel ∧
        st.toNat / 4 = s.env.dev.srHigh.toNat) ∧
      (s.env.dev.wip = false → t.env.dev = s.env.dev) ∧
      (s.env.dev.wip = true → 2 ≤ s.env.dev.busyLeft →
        t.env.dev = { s.env.dev with busyLeft := s.env.dev.busyLeft - 1 }) ∧
      (s.env.dev.wip = true → s.env.dev.busyLeft = 1 →
        t.env.dev.wip = false ∧ t.env.dev.wel = false ∧ t.env.dev.pending = none ∧
          (∀ a data, s.env.dev.pending = some (.program a data) → ∀ j : Nat,
            t.env.dev.mem.read (a + j) = s.env.dev.mem.read (a + j) &&& (data[j]?).getD 0xFF#8) ∧
          (∀ base size, s.env.dev.pending = some (.erase base size) → ∀ a, base ≤ a → a < base + size →
            t.env.dev.mem.read a = 0xFF#8) ∧
          ∀ e a, s.env.dev.pending = some e → ¬ e.covers a →
            t.env.dev.mem.read a = s.env.dev.mem.read a)

/-- 20_memory.md R66, R79 to R82: at a device that is neither busy nor powered down, READ and FAST_READ
keep the array byte `a + i` as data byte `i` while `a + i` is at most `0xFFFFFF`, READ_JEDEC_ID keeps
`9D 60 19`, and READ_UNIQUE_ID the device's Unique ID; the device is unchanged. -/
def Obligations.ReadsReturnWhatTheDeviceHolds : Prop :=
  ∀ (s : State), s.Inv → s.faults = [] → s.phase = .accepted → s.pos = .command →
    s.env.link = .reference → s.env.failures = [] → s.env.dev.pd = false → s.env.dev.wip = false →
    (∀ x n, s.req = some (.command (.read x n)) →
      ∃ t bs, exec (.read x n) s = .next t ∧ t.env.dev = s.env.dev ∧ t.pos = .ret ⟨.ok, .bytes bs⟩ ∧
        bs.length = n ∧ ∀ j, j < n → x.address + j ≤ 0xFFFFFF →
          bs[j]? = some (s.env.dev.mem.read (x.address + j))) ∧
    (∀ x n, s.req = some (.command (.fastRead x n)) →
      ∃ t bs, exec (.fastRead x n) s = .next t ∧ t.env.dev = s.env.dev ∧ t.pos = .ret ⟨.ok, .bytes bs⟩ ∧
        bs.length = n ∧ ∀ j, j < n → x.address + j ≤ 0xFFFFFF →
          bs[j]? = some (s.env.dev.mem.read (x.address + j))) ∧
    (s.req = some (.command .readJedecId) →
      ∃ t, exec .readJedecId s = .next t ∧ t.env.dev = s.env.dev ∧
        t.pos = .ret ⟨.ok, .bytes [0x9D#8, 0x60#8, 0x19#8]⟩) ∧
    (s.req = some (.command .readUniqueId) →
      ∃ t, exec .readUniqueId s = .next t ∧ t.env.dev = s.env.dev ∧
        t.pos = .ret ⟨.ok, .bytes s.env.dev.uid⟩)

/-- 20_memory.md R83, R84, R89: at a device that is neither busy nor powered down, WRITE_ENABLE sets WEL,
WRITE_DISABLE clears it (general knowledge of the spec, log entry 20), DEEP_POWER_DOWN powers down; the
rest of the device is unchanged. -/
def Obligations.LatchAndPowerCommandsActOnTheDevice : Prop :=
  ∀ (s : State) (ph : Phase), ph ≠ .idle → s.env.link = .reference → s.env.failures = [] →
    s.env.dev.pd = false → s.env.dev.wip = false →
    (s.standsAt .writeEnable .command ph →
      ∃ t, exec .writeEnable s = .next t ∧ t.env.dev = { s.env.dev with wel := true } ∧
        t.pos = .ret ⟨.ok, .nothing⟩) ∧
    (s.standsAt .writeDisable .command ph →
      ∃ t, exec .writeDisable s = .next t ∧ t.env.dev = { s.env.dev with wel := false } ∧
        t.pos = .ret ⟨.ok, .nothing⟩) ∧
    (s.standsAt .deepPowerDown .command ph →
      ∃ t, exec .deepPowerDown s = .next t ∧ t.env.dev = { s.env.dev with pd := true } ∧
        t.pos = .ret ⟨.ok, .nothing⟩)

/-- 20_memory.md R85 to R88: the command frame of a mutating request at a device with WEL set, neither
busy nor powered down, and with no failure injected on it, draws a busy count and starts a busy period of
that count with its effect pending (at least 1 for an erase). A Page Program drawn as 0 lands at once and
clears WEL: each byte it covers becomes the AND of what it was and its payload byte. With WEL clear
nothing happens and nothing is drawn; that, and that CHIP_ERASE erases the whole array, is general
knowledge of the spec, log entry 20. The count is the next
of the list of busy counts, and any number where the list is empty: log entry 10. -/
def Obligations.MutatingFramesStartTheirEffect : Prop :=
  ∀ (i : Instr) (s : State) (e : Effect), s.Inv →
    s.standsAt i .command .writeEnabled → s.env.link = .reference →
    s.env.injected (encode s.cfg i).length = none → s.env.dev.pd = false → s.env.dev.wip = false →
    (match i with
      | .pageProgram x d =>
        e = if d.length = 0 then .noChange
          else if x.address % 256 + d.length ≤ 256 then .program x.address d
          else .havocPage (x.address / 256 * 256)
      | .sectorErase k _ => e = .erase (k * 4096) 4096
      | .blockErase32K k _ => e = .erase (k * 32768) 32768
      | .blockErase64K k _ => e = .erase (k * 65536) 65536
      | .chipErase _ => e = .erase 0 0x2000000
      | _ => False) →
    ∃ t, exec i s = .next t ∧
      (s.env.dev.wel = false → t.env.dev = s.env.dev ∧ t.env.busyFor = s.env.busyFor) ∧
      (s.env.dev.wel = true → ∃ n : Nat,
        (∀ m ms, s.env.busyFor = m :: ms → n = m ∧ t.env.busyFor = ms) ∧
        (1 ≤ n → t.env.dev = { s.env.dev with pending := some e, wip := true, busyLeft := n }) ∧
        (n = 0 → i.toCommand ≠ .pageProgram →
          t.env.dev = { s.env.dev with pending := some e, wip := true, busyLeft := 1 }) ∧
        (n = 0 → i.toCommand = .pageProgram →
          t.env.dev.wip = false ∧ t.env.dev.wel = false ∧ t.env.dev.pending = none ∧
            (∀ a data, e = .program a data → ∀ j : Nat, t.env.dev.mem.read (a + j) =
              s.env.dev.mem.read (a + j) &&& (data[j]?).getD 0xFF#8) ∧
            ∀ a, ¬ e.covers a → t.env.dev.mem.read a = s.env.dev.mem.read a))

/-- 20_memory.md R92, 47_erase.md R287: at an idle reference device, an erase of any of the four kinds with
`wait`, busy for fewer reads than `POLL_MAX`, followed by READ of any bytes of its region below `2^24`,
returns bytes of 0xFF; at the end every byte of the region is 0xFF, and no byte outside it has changed.
The list of busy counts is log entry 10. That CHIP_ERASE erases the whole array, the upper half included,
is general knowledge of the spec: log entry 20. -/
def Obligations.EraseThenReadReturnsErasedBytes : Prop :=
  ∀ (s : State) (i : Instr) (base size : Nat) (x : AddrOperand) (n k : Nat) (ks : List Nat), s.Inv →
    s.waiting → s.chan ≠ none →
    (match i with
      | .sectorErase b w => w = true ∧ b < 4096 ∧ base = b * 4096 ∧ size = 4096
      | .blockErase32K b w =>
        w = true ∧ s.cfg.hasErase32 = true ∧ b < 512 ∧ base = b * 32768 ∧ size = 32768
      | .blockErase64K b w => w = true ∧ b < 256 ∧ base = b * 65536 ∧ size = 65536
      | .chipErase w => w = true ∧ base = 0 ∧ size = 0x2000000
      | _ => False) →
    x.framable = true → base ≤ x.address → x.address + n ≤ base + size → x.address + n ≤ 0x1000000 →
    s.env.link = .reference → s.env.failures = [] → s.env.dev.pd = false → s.env.dev.wip = false →
    s.env.busyFor = k :: ks → 1 ≤ k → k < s.cfg.pollMax →
    s.host = [.command i, .command (.read x n)] →
    ∃ j t, stepTimes j s = .next t ∧ t.waiting ∧ t.host = [] ∧
      t.resp = some ⟨.ok, .bytes (List.replicate n 0xFF#8)⟩ ∧
      ∀ a, t.env.dev.mem.read a =
        if base ≤ a ∧ a < base + size then 0xFF#8 else s.env.dev.mem.read a

/-- 20_memory.md R92, 46_page_program.md R267: at an idle reference device, PAGE_PROGRAM of `b` over erased
bytes, inside one page and busy for fewer reads than `POLL_MAX`, followed by READ of the same operand,
`Linear` or `SectorOff`, returns `b`, and no byte outside changes. The list of busy counts is log entry
10. -/
def Obligations.ProgramThenReadReturnsTheProgrammedBytes : Prop :=
  ∀ (s : State) (x : AddrOperand) (b : List Byte) (k : Nat) (ks : List Nat), s.Inv → s.waiting →
    s.chan ≠ none → x.framable = true → x.address % 256 + b.length ≤ 256 →
    (∀ j, j < b.length → s.env.dev.mem.read (x.address + j) = 0xFF#8) →
    s.env.link = .reference → s.env.failures = [] → s.env.dev.pd = false → s.env.dev.wip = false →
    s.env.busyFor = k :: ks → k < s.cfg.pollMax →
    s.host = [.command (.pageProgram x b), .command (.read x b.length)] →
    ∃ j t, stepTimes j s = .next t ∧ t.waiting ∧ t.host = [] ∧
      t.resp = some ⟨.ok, .bytes b⟩ ∧
      ∀ a, a < x.address ∨ x.address + b.length ≤ a →
        t.env.dev.mem.read a = s.env.dev.mem.read a
end

