-- ==== Sys2Proof/Laws/State.lean ====
section
/-! SUPPORT. One lemma per field per update of the state, each true by rfl: no later proof unfolds a record
update. -/

namespace Sys2Proof.Machine

/-! ## Logging an event -/

@[simp] theorem State.log_cfg (e : Event) (s : State) : (s.log e).cfg = s.cfg := rfl
@[simp] theorem State.log_chan (e : Event) (s : State) : (s.log e).chan = s.chan := rfl
@[simp] theorem State.log_phase (e : Event) (s : State) : (s.log e).phase = s.phase := rfl
@[simp] theorem State.log_req (e : Event) (s : State) : (s.log e).req = s.req := rfl
@[simp] theorem State.log_polls (e : Event) (s : State) : (s.log e).polls = s.polls := rfl
@[simp] theorem State.log_resp (e : Event) (s : State) : (s.log e).resp = s.resp := rfl
@[simp] theorem State.log_faults (e : Event) (s : State) : (s.log e).faults = s.faults := rfl
@[simp] theorem State.log_pos (e : Event) (s : State) : (s.log e).pos = s.pos := rfl
@[simp] theorem State.log_host (e : Event) (s : State) : (s.log e).host = s.host := rfl
@[simp] theorem State.log_trace (e : Event) (s : State) : (s.log e).trace = s.trace ++ [e] := rfl
@[simp] theorem State.log_env (e : Event) (s : State) : (s.log e).env = s.env := rfl

/-! ## Recording a mark -/

@[simp] theorem State.raise_cfg (m : Mark) (s : State) : (s.raise m).cfg = s.cfg := rfl
@[simp] theorem State.raise_chan (m : Mark) (s : State) : (s.raise m).chan = s.chan := rfl
@[simp] theorem State.raise_phase (m : Mark) (s : State) : (s.raise m).phase = s.phase := rfl
@[simp] theorem State.raise_req (m : Mark) (s : State) : (s.raise m).req = s.req := rfl
@[simp] theorem State.raise_polls (m : Mark) (s : State) : (s.raise m).polls = s.polls := rfl
@[simp] theorem State.raise_resp (m : Mark) (s : State) : (s.raise m).resp = s.resp := rfl
@[simp] theorem State.raise_faults (m : Mark) (s : State) : (s.raise m).faults = if m ∈ s.faults then s.faults else s.faults ++ [m] := rfl
@[simp] theorem State.raise_pos (m : Mark) (s : State) : (s.raise m).pos = s.pos := rfl
@[simp] theorem State.raise_host (m : Mark) (s : State) : (s.raise m).host = s.host := rfl
@[simp] theorem State.raise_trace (m : Mark) (s : State) : (s.raise m).trace = s.trace ++ [.stopped m] := rfl
@[simp] theorem State.raise_env (m : Mark) (s : State) : (s.raise m).env = s.env := rfl

/-! ## Returning a response -/

@[simp] theorem State.respond_cfg (r : Response) (s : State) : (s.respond r).cfg = s.cfg := rfl
@[simp] theorem State.respond_chan (r : Response) (s : State) : (s.respond r).chan = s.chan := rfl
@[simp] theorem State.respond_phase (r : Response) (s : State) : (s.respond r).phase = .idle := rfl
@[simp] theorem State.respond_req (r : Response) (s : State) : (s.respond r).req = none := rfl
@[simp] theorem State.respond_polls (r : Response) (s : State) : (s.respond r).polls = s.polls := rfl
@[simp] theorem State.respond_resp (r : Response) (s : State) : (s.respond r).resp = some r := rfl
@[simp] theorem State.respond_faults (r : Response) (s : State) : (s.respond r).faults = s.faults := rfl
@[simp] theorem State.respond_pos (r : Response) (s : State) : (s.respond r).pos = .idle := rfl
@[simp] theorem State.respond_host (r : Response) (s : State) : (s.respond r).host = s.host := rfl
@[simp] theorem State.respond_trace (r : Response) (s : State) : (s.respond r).trace = s.trace ++ [.response r] := rfl
@[simp] theorem State.respond_env (r : Response) (s : State) : (s.respond r).env = s.env := rfl

/-! ## The abort -/

@[simp] theorem State.abort_cfg (x : Result) (s : State) : (s.abort x).cfg = s.cfg := rfl
@[simp] theorem State.abort_chan (x : Result) (s : State) : (s.abort x).chan = s.chan := rfl
@[simp] theorem State.abort_phase (x : Result) (s : State) : (s.abort x).phase = .idle := rfl
@[simp] theorem State.abort_req (x : Result) (s : State) : (s.abort x).req = none := rfl
@[simp] theorem State.abort_polls (x : Result) (s : State) : (s.abort x).polls = s.polls := rfl
@[simp] theorem State.abort_resp (x : Result) (s : State) : (s.abort x).resp = some ⟨x, .nothing⟩ := rfl
@[simp] theorem State.abort_faults (x : Result) (s : State) : (s.abort x).faults = s.faults := rfl
@[simp] theorem State.abort_pos (x : Result) (s : State) : (s.abort x).pos = .idle := rfl
@[simp] theorem State.abort_host (x : Result) (s : State) : (s.abort x).host = s.host := rfl
@[simp] theorem State.abort_trace (x : Result) (s : State) : (s.abort x).trace = s.trace ++ [.response ⟨x, .nothing⟩] := rfl
@[simp] theorem State.abort_env (x : Result) (s : State) : (s.abort x).env = s.env := rfl

/-! ## Putting a return next -/

@[simp] theorem State.willReturn_cfg (r : Response) (s : State) : (s.willReturn r).cfg = s.cfg := rfl
@[simp] theorem State.willReturn_chan (r : Response) (s : State) : (s.willReturn r).chan = s.chan := rfl
@[simp] theorem State.willReturn_phase (r : Response) (s : State) : (s.willReturn r).phase = s.phase := rfl
@[simp] theorem State.willReturn_req (r : Response) (s : State) : (s.willReturn r).req = s.req := rfl
@[simp] theorem State.willReturn_polls (r : Response) (s : State) : (s.willReturn r).polls = s.polls := rfl
@[simp] theorem State.willReturn_resp (r : Response) (s : State) : (s.willReturn r).resp = s.resp := rfl
@[simp] theorem State.willReturn_faults (r : Response) (s : State) : (s.willReturn r).faults = s.faults := rfl
@[simp] theorem State.willReturn_pos (r : Response) (s : State) : (s.willReturn r).pos = .ret r := rfl
@[simp] theorem State.willReturn_host (r : Response) (s : State) : (s.willReturn r).host = s.host := rfl
@[simp] theorem State.willReturn_trace (r : Response) (s : State) : (s.willReturn r).trace = s.trace := rfl
@[simp] theorem State.willReturn_env (r : Response) (s : State) : (s.willReturn r).env = s.env := rfl

/-! ## The environment -/

@[simp] theorem Env.withDev_link (f : Dev → Dev) (v : Env) : (v.withDev f).link = v.link := rfl
@[simp] theorem Env.withDev_answers (f : Dev → Dev) (v : Env) : (v.withDev f).answers = v.answers := rfl
@[simp] theorem Env.withDev_failures (f : Dev → Dev) (v : Env) : (v.withDev f).failures = v.failures := rfl
@[simp] theorem Env.withDev_busyFor (f : Dev → Dev) (v : Env) : (v.withDev f).busyFor = v.busyFor := rfl
@[simp] theorem Env.withDev_dev (f : Dev → Dev) (v : Env) : (v.withDev f).dev = f v.dev := rfl
@[simp] theorem Env.withDev_draws (f : Dev → Dev) (v : Env) : (v.withDev f).draws = v.draws := rfl

@[simp] theorem Env.drawn_link (k : Nat) (v : Env) : (v.drawn k).link = v.link := rfl
@[simp] theorem Env.drawn_answers (k : Nat) (v : Env) : (v.drawn k).answers = v.answers := rfl
@[simp] theorem Env.drawn_failures (k : Nat) (v : Env) : (v.drawn k).failures = v.failures := rfl
@[simp] theorem Env.drawn_busyFor (k : Nat) (v : Env) : (v.drawn k).busyFor = v.busyFor := rfl
@[simp] theorem Env.drawn_dev (k : Nat) (v : Env) : (v.drawn k).dev = v.dev := rfl
@[simp] theorem Env.drawn_draws (k : Nat) (v : Env) : (v.drawn k).draws = v.draws + k := rfl

@[simp] theorem Env.startBusy_link (e : Effect) (n : Nat) (v : Env) : (v.startBusy e n).link = v.link := rfl
@[simp] theorem Env.startBusy_answers (e : Effect) (n : Nat) (v : Env) : (v.startBusy e n).answers = v.answers := rfl
@[simp] theorem Env.startBusy_failures (e : Effect) (n : Nat) (v : Env) : (v.startBusy e n).failures = v.failures := rfl
@[simp] theorem Env.startBusy_busyFor (e : Effect) (n : Nat) (v : Env) : (v.startBusy e n).busyFor = v.busyFor := rfl
@[simp] theorem Env.startBusy_dev (e : Effect) (n : Nat) (v : Env) : (v.startBusy e n).dev = { v.dev with pending := some e, wip := true, busyLeft := n } := rfl
@[simp] theorem Env.startBusy_draws (e : Effect) (n : Nat) (v : Env) : (v.startBusy e n).draws = v.draws := rfl

/-! ## Reset -/

@[simp] theorem State.resetWith_cfg (c : Config) : (State.resetWith c).cfg = c := rfl
@[simp] theorem State.resetWith_env (c : Config) : (State.resetWith c).env = Env.launch c := rfl
@[simp] theorem Env.launch_dev (c : Config) : (Env.launch c).dev = Dev.launch c := rfl

/-- A recorded mark stops every later step; a state without one goes on. -/
@[simp] theorem unlessStopped_nil {s : State} (h : s.faults = []) (o : Outcome) : unlessStopped s o = o := by
  simp [unlessStopped, h]

theorem unlessStopped_cons {s : State} {m : Mark} {ms : List Mark} (h : s.faults = m :: ms) (o : Outcome) :
    unlessStopped s o = m.stop := by
  simp [unlessStopped, h]

/-- If a guarded outcome is a next state, no mark is recorded and the outcome is that next state. -/
theorem unlessStopped_next {s t : State} {o : Outcome} (h : unlessStopped s o = .next t) :
    s.faults = [] ∧ o = .next t := by
  unfold unlessStopped at h
  split at h
  · exact ⟨‹_›, h⟩
  · rename_i m _ _
    cases m <;> simp [Mark.stop] at h

/-- Recording a mark where none is recorded leaves that one mark. -/
theorem State.raise_faults_of_nil {s : State} (m : Mark) (h : s.faults = []) :
    (s.raise m).faults = [m] := by
  simp [h]

end Sys2Proof.Machine
end

