-- ==== Sys2Proof/Laws/Encoding.lean ====
section
/-! SUPPORT. The address field and the opcode map as arithmetic: what the bytes of a frame stand for. -/

namespace Sys2Proof

/-- An index and an offset below the shift's size combine as a sum (41_address_decoder.md R164). -/
theorem shiftLeft_or_eq_add {k a b : Nat} (h : b < 2 ^ k) : a <<< k ||| b = a * 2 ^ k + b := by
  rw [← Nat.shiftLeft_add_eq_or_of_lt h, Nat.shiftLeft_eq]

/-- The address three bytes stand for, as a number. -/
theorem ofAddrBytes_eq (b1 b2 b3 : Byte) :
    ofAddrBytes b1 b2 b3 = b1.toNat * 65536 + b2.toNat * 256 + b3.toNat := by
  have h1 := b1.isLt
  have h2 := b2.isLt
  have h3 := b3.isLt
  have e : b1.toNat <<< 16 ||| b2.toNat <<< 8 = (b1.toNat * 256 + b2.toNat) <<< 8 := by
    rw [shiftLeft_or_eq_add (k := 16) (by rw [Nat.shiftLeft_eq]; omega)]
    simp only [Nat.shiftLeft_eq]
    omega
  rw [ofAddrBytes, e, shiftLeft_or_eq_add (k := 8) (by omega)]
  omega

/-- A framed address is below `2^24` (30_encoding.md R103). -/
theorem ofAddrBytes_lt (b1 b2 b3 : Byte) : ofAddrBytes b1 b2 b3 < Config.addrTxLimit := by
  have h1 := b1.isLt
  have h2 := b2.isLt
  have h3 := b3.isLt
  rw [ofAddrBytes_eq, Config.addrTxLimit]
  omega

/-- An address in the transmissible window is read back from its field. -/
theorem ofAddrBytes_addrBytes {a : Nat} (h : a < Config.addrTxLimit) :
    ofAddrBytes (BitVec.ofNat 8 (a >>> 16)) (BitVec.ofNat 8 (a >>> 8)) (BitVec.ofNat 8 a) = a := by
  rw [Config.addrTxLimit] at h
  rw [ofAddrBytes_eq]
  simp only [BitVec.toNat_ofNat, Nat.shiftRight_eq_div_pow]
  omega

/-- Three bytes are the field of the address they stand for. -/
theorem addrBytes_ofAddrBytes (b1 b2 b3 : Byte) : addrBytes (ofAddrBytes b1 b2 b3) = [b1, b2, b3] := by
  have h1 := b1.isLt
  have h2 := b2.isLt
  have h3 := b3.isLt
  rw [ofAddrBytes_eq]
  simp only [addrBytes, Nat.shiftRight_eq_div_pow, List.cons.injEq, and_true]
  refine ⟨?_, ?_, ?_⟩ <;> apply BitVec.eq_of_toNat_eq <;> simp only [BitVec.toNat_ofNat] <;> omega

@[simp] theorem addrBytes_length (a : Nat) : (addrBytes a).length = 3 := rfl

@[simp] theorem pad_length (c : Config) (k : Nat) : (pad c k).length = k := List.length_replicate

/-- Placeholders of two fields in a row are placeholders of one. -/
theorem pad_append (c : Config) (j k : Nat) : pad c j ++ pad c k = pad c (j + k) := by
  simp [pad, List.replicate_append_replicate]

/-- A receiver tells the command from its opcode (30_encoding.md R102). -/
@[simp] theorem Command.ofOpcode?_opcode (k : Command) : Command.ofOpcode? k.opcode = some k := by
  cases k <;> decide

/-- A byte from which a command is told is that command's opcode. -/
theorem Command.opcode_of_ofOpcode? {b : Byte} {k : Command} (h : Command.ofOpcode? b = some k) :
    b = k.opcode := by
  have := List.find?_some h
  exact (eq_of_beq this).symm

/-- No two commands share an opcode. -/
theorem Command.opcode_inj {j k : Command} (h : j.opcode = k.opcode) : j = k := by
  have := congrArg Command.ofOpcode? h
  rw [Command.ofOpcode?_opcode, Command.ofOpcode?_opcode] at this
  exact Option.some.inj this

end Sys2Proof
end

