-- ==== Sys2Proof/Laws/Memory.lean ====
section
/-! SUPPORT. The flash array: what each operation reads back as, that each keeps the canonical form, and
that two arrays in canonical form that read alike are equal. -/

namespace Sys2Proof.Machine

namespace Memory

variable {m : Memory} {a x : Nat} {b : Byte}

@[simp] theorem read_nil (a : Nat) : read [] a = erasedByte := rfl

theorem read_cons (c : Host.Cell) (m : Memory) (a : Nat) :
    read (c :: m) a = if c.1 = a then c.2 else read m a := rfl

/-- The cells after the first of a canonical array have higher addresses. -/
theorem wf_cons {c : Host.Cell} :
    wf (c :: m) ↔ (∀ d ∈ m, c.1 < d.1) ∧ c.1 < Config.arraySize ∧ c.2 ≠ erasedByte ∧ wf m := by
  simp only [wf, List.pairwise_cons, List.mem_cons, forall_eq_or_imp]
  tauto

/-- An address below every listed one reads as erased. -/
theorem read_of_lt (h : ∀ c ∈ m, a < c.1) : read m a = erasedByte := by
  induction m with
  | nil => rfl
  | cons c m ih =>
    have hc := h c (by simp)
    rw [read_cons, if_neg (by omega)]
    exact ih fun d hd => h d (by simp [hd])

/-- A write keeps every address bound that the written address meets. -/
theorem write_mem {P : Nat → Prop} (hm : ∀ c ∈ m, P c.1) (ha : P a) : ∀ c ∈ write m a b, P c.1 := by
  induction m with
  | nil =>
    intro c hc
    simp only [write] at hc
    split at hc <;> simp_all
  | cons d m ih =>
    have hd := hm d (by simp)
    have ht : ∀ c ∈ m, P c.1 := fun c hc => hm c (by simp [hc])
    intro c hc
    simp only [write] at hc
    split at hc
    · rcases List.mem_cons.1 hc with rfl | hc
      · exact hd
      · exact ih ht c hc
    · have key : c = (a, b) ∨ c = d ∨ c ∈ m := by
        split at hc <;> split at hc <;> (simp_all; try tauto)
      rcases key with rfl | rfl | hc
      · exact ha
      · exact hd
      · exact ht c hc

/-- A write keeps the canonical form. -/
theorem write_wf (hm : wf m) (ha : a < Config.arraySize) : wf (write m a b) := by
  induction m with
  | nil =>
    simp only [write]
    split
    · exact hm
    · exact wf_cons.2 ⟨by simp, ha, by assumption, hm⟩
  | cons c m ih =>
    obtain ⟨h1, h2, h3, h4⟩ := wf_cons.1 hm
    simp only [write]
    split
    · refine wf_cons.2 ⟨write_mem h1 (by omega), h2, h3, ih h4⟩
    · split <;> split <;> try assumption
      · exact wf_cons.2 ⟨fun d hd => by have := h1 d hd; show a < d.1; omega, ha, by assumption, h4⟩
      · refine wf_cons.2 ⟨?_, ha, by assumption, hm⟩
        intro d hd
        rcases List.mem_cons.1 hd with rfl | hd
        · show a < d.1; omega
        · have := h1 d hd; show a < d.1; omega

/-- Read after write: the written address gives the written byte, every other address what it gave. -/
theorem read_write (hm : wf m) : read (write m a b) x = if x = a then b else read m x := by
  induction m with
  | nil =>
    simp only [write]
    split <;> simp only [read_cons, read_nil] <;> split <;> simp_all [eq_comm]
  | cons c m ih =>
    obtain ⟨h1, -, -, h4⟩ := wf_cons.1 hm
    simp only [write]
    split
    · rw [read_cons, ih h4, read_cons]
      split <;> split <;> first | rfl | omega
    · have hlow : c.1 = a → read m a = erasedByte := fun h => read_of_lt fun d hd => h ▸ h1 d hd
      have hlow' : a < c.1 → read (c :: m) a = erasedByte := fun h => read_of_lt fun d hd => by
        rcases List.mem_cons.1 hd with rfl | hd
        · exact h
        · have := h1 d hd; omega
      rcases eq_or_ne b erasedByte with hb | hb <;> rcases eq_or_ne c.1 a with hca | hca <;>
        simp only [hb, hca, if_true, if_false]
      · by_cases hx : x = a
        · subst hx; simp [hlow hca]
        · simp [read_cons, hx, hca, Ne.symm hx]
      · by_cases hx : x = a
        · subst hx; simp [hlow' (by omega)]
        · simp [hx]
      · by_cases hx : x = a
        · simp [read_cons, hx]
        · simp [read_cons, hx, hca, Ne.symm hx]
      · by_cases hx : x = a
        · simp [read_cons, hx]
        · simp [read_cons, hx, Ne.symm hx]

/-- Two arrays in canonical form that read alike are equal. -/
theorem ext_of_wf {m n : Memory} (hm : wf m) (hn : wf n) (h : ∀ a, read m a = read n a) : m = n := by
  induction m generalizing n with
  | nil =>
    cases n with
    | nil => rfl
    | cons d n =>
      have := h d.1
      obtain ⟨-, -, h3, -⟩ := wf_cons.1 hn
      simp [read_cons] at this
      exact absurd this.symm h3
  | cons c m ih =>
    obtain ⟨c1, c2, c3, c4⟩ := wf_cons.1 hm
    cases n with
    | nil =>
      have := h c.1
      simp [read_cons] at this
      exact absurd this c3
    | cons d n =>
      obtain ⟨d1, d2, d3, d4⟩ := wf_cons.1 hn
      have key : c.1 = d.1 := by
        by_contra hne
        rcases Nat.lt_or_gt_of_ne hne with hlt | hlt
        · have := h c.1
          rw [read_cons, if_pos rfl, read_of_lt (fun e he => by
            rcases List.mem_cons.1 he with rfl | he
            · exact hlt
            · have := d1 e he; omega)] at this
          exact c3 this
        · have := h d.1
          rw [read_cons (c := d), if_pos rfl, read_of_lt (fun e he => by
            rcases List.mem_cons.1 he with rfl | he
            · exact hlt
            · have := c1 e he; omega)] at this
          exact d3 this.symm
      have hv : c.2 = d.2 := by
        have := h c.1
        simpa [read_cons, key] using this
      have hcd : c = d := Prod.ext key hv
      subst hcd
      congr 1
      refine ih c4 d4 fun a => ?_
      by_cases hca : c.1 = a
      · subst hca
        rw [read_of_lt c1, read_of_lt d1]
      · simpa [read_cons, hca] using h a

/-- Storing bytes keeps the canonical form. -/
theorem store_wf {bs : List Byte} (hm : wf m) (ha : a + bs.length ≤ Config.arraySize) :
    wf (store m a bs) := by
  induction bs generalizing m a with
  | nil => exact hm
  | cons b bs ih =>
    simp only [List.length_cons] at ha
    exact ih (write_wf hm (by omega)) (by omega)

/-- Stored bytes read back in address order; every other address is unchanged. -/
theorem read_store {bs : List Byte} (hm : wf m) (ha : a + bs.length ≤ Config.arraySize) :
    read (store m a bs) x = if a ≤ x then (bs[x - a]?).getD (read m x) else read m x := by
  induction bs generalizing m a with
  | nil => simp [store]
  | cons b bs ih =>
    simp only [List.length_cons] at ha
    rw [store, ih (write_wf hm (by omega)) (by omega), read_write hm]
    by_cases h1 : a + 1 ≤ x
    · obtain ⟨k, rfl⟩ : ∃ k, x = a + 1 + k := ⟨x - (a + 1), by omega⟩
      have e1 : a + 1 + k - (a + 1) = k := by omega
      have e2 : a + 1 + k - a = k + 1 := by omega
      have h2 : ¬ a + 1 + k = a := by omega
      have h3 : a ≤ a + 1 + k := by omega
      simp [h2, h3, e1, e2]
    · by_cases h2 : x = a
      · subst h2; simp
      · rw [if_neg h1, if_neg h2, if_neg (by omega)]

/-- Programming keeps the canonical form. -/
theorem program_wf {bs : List Byte} (hm : wf m) (ha : a + bs.length ≤ Config.arraySize) :
    wf (program m a bs) := by
  induction bs generalizing m a with
  | nil => exact hm
  | cons b bs ih =>
    simp only [List.length_cons] at ha
    exact ih (write_wf hm (by omega)) (by omega)

/-- A programmed byte is the AND of what it was and the data; every other address is unchanged. -/
theorem read_program {bs : List Byte} (hm : wf m) (ha : a + bs.length ≤ Config.arraySize) :
    read (program m a bs) x =
      if a ≤ x then read m x &&& (bs[x - a]?).getD (BitVec.allOnes 8) else read m x := by
  induction bs generalizing m a with
  | nil =>
    have h : ∀ y : Byte, y &&& BitVec.allOnes 8 = y := fun y => BitVec.and_allOnes
    simp only [program, List.getElem?_nil, Option.getD_none, h, ite_self]
  | cons b bs ih =>
    simp only [List.length_cons] at ha
    rw [program, ih (write_wf hm (by omega)) (by omega), read_write hm]
    by_cases h1 : a + 1 ≤ x
    · obtain ⟨k, rfl⟩ : ∃ k, x = a + 1 + k := ⟨x - (a + 1), by omega⟩
      have e1 : a + 1 + k - (a + 1) = k := by omega
      have e2 : a + 1 + k - a = k + 1 := by omega
      have h2 : ¬ a + 1 + k = a := by omega
      have h3 : a ≤ a + 1 + k := by omega
      simp [h2, h3, e1, e2]
    · by_cases h2 : x = a
      · subst h2; simp
      · rw [if_neg h1, if_neg h2, if_neg (by omega)]

/-- Erasing keeps the canonical form. -/
theorem erase_wf (hm : wf m) (base size : Nat) : wf (erase m base size) :=
  ⟨hm.1.filter _, fun c hc => hm.2 c (List.mem_of_mem_filter hc)⟩

/-- An erased byte reads as 0xFF; every other address is unchanged. -/
theorem read_erase (m : Memory) (base size : Nat) :
    read (erase m base size) x = if base ≤ x ∧ x < base + size then erasedByte else read m x := by
  induction m with
  | nil => simp [erase]
  | cons c m ih =>
    simp only [erase, List.filter_cons] at ih ⊢
    split <;> rename_i hc <;>
      simp only [Bool.or_eq_true, decide_eq_true_eq, not_or, not_lt, not_le] at hc
    · rw [read_cons, ih, read_cons]
      split <;> split <;> first | rfl | omega
    · rw [ih, read_cons]
      by_cases hx : base ≤ x ∧ x < base + size
      · simp [hx]
      · rw [if_neg hx, if_neg hx, if_neg (by omega)]

end Memory

end Sys2Proof.Machine
end

