-- ==== Sys2Proof/Laws/Device.lean ====
section
/-! SUPPORT. The reference device: what a frame can do to it, that every frame keeps `Dev.Ok`, and that
received buffers have the frame's length. -/

namespace Sys2Proof.Machine

@[simp] theorem freeBytes_length (d k : Nat) : (freeBytes d k).length = k := by simp [freeBytes]

/-- Laying bytes over a buffer keeps its length (00_scope.md R12: `|rx| = |buf|`). -/
@[simp] theorem overlay_length (bs : List Byte) (k : Nat) (ds : List Byte) :
    (overlay bs k ds).length = bs.length := by
  fun_induction overlay bs k ds <;> simp_all

/-- The bytes laid over a buffer are read back from it where they fit. -/
theorem slice_overlay (bs : List Byte) (k : Nat) (ds : List Byte) (h : k + ds.length ≤ bs.length) :
    slice (overlay bs k ds) k ds.length = ds := by
  fun_induction overlay bs k ds with
  | case1 => simp_all [slice]
  | case2 b bs k ds ih => simpa [slice] using ih (by simp at h; omega)
  | case3 => simp [slice]
  | case4 b bs d ds ih => simpa [slice] using ih (by simp at h ⊢; omega)

/-- Bytes of the frame's length laid from index 0 replace the whole buffer. -/
theorem overlay_all {bs ds : List Byte} (h : ds.length = bs.length) : overlay bs 0 ds = ds := by
  have := slice_overlay bs 0 ds (by omega)
  simpa [slice, List.take_of_length_le, h] using this

/-- A status byte's WIP is the device's (20_memory.md R77). -/
@[simp] theorem busy_statusByte (d : Dev) : busy (statusByte d) = d.wip := by
  cases h : d.wip <;> cases h' : d.wel <;> simp [busy, statusByte, h, h']

/-- A status byte's WEL is the device's (20_memory.md R77). -/
@[simp] theorem wel_statusByte (d : Dev) : wel (statusByte d) = d.wel := by
  cases h : d.wip <;> cases h' : d.wel <;> simp [wel, statusByte, h, h']

/-! ## What an environment operation leaves alone -/

@[simp] theorem Env.busyDrawn_dev (v : Env) : v.busyDrawn.dev = v.dev := by
  unfold Env.busyDrawn; split <;> rfl

@[simp] theorem Env.busyDrawn_link (v : Env) : v.busyDrawn.link = v.link := by
  unfold Env.busyDrawn; split <;> rfl

@[simp] theorem Env.busyDrawn_failures (v : Env) : v.busyDrawn.failures = v.failures := by
  unfold Env.busyDrawn; split <;> rfl

@[simp] theorem Env.busyDrawn_answers (v : Env) : v.busyDrawn.answers = v.answers := by
  unfold Env.busyDrawn; split <;> rfl

/-- The array after an effect, with the free values numbered from `d` (20_memory.md R86). -/
def Memory.after (m : Memory) (d : Nat) : Effect → Memory
  | .program a data => m.program a data
  | .havocPage p => m.store p (freeBytes d Config.pageSize)
  | .erase base size => m.erase base size
  | .noChange => m

/-- An effect changes the array and nothing else of the device. -/
@[simp] theorem Env.applyEffect_dev (e : Effect) (v : Env) :
    (v.applyEffect e).dev = { v.dev with mem := v.dev.mem.after v.draws e } := by
  cases e <;> rfl

@[simp] theorem Env.applyEffect_link (e : Effect) (v : Env) : (v.applyEffect e).link = v.link := by
  cases e <;> simp [Env.applyEffect]

@[simp] theorem Env.applyEffect_answers (e : Effect) (v : Env) :
    (v.applyEffect e).answers = v.answers := by
  cases e <;> simp [Env.applyEffect]

@[simp] theorem Env.applyEffect_failures (e : Effect) (v : Env) :
    (v.applyEffect e).failures = v.failures := by
  cases e <;> simp [Env.applyEffect]

@[simp] theorem Env.applyEffect_busyFor (e : Effect) (v : Env) :
    (v.applyEffect e).busyFor = v.busyFor := by
  cases e <;> simp [Env.applyEffect]

/-- An effect keeps the array's canonical form. -/
theorem Memory.after_wf {m : Memory} (hm : m.wf) (d : Nat) {e : Effect} (he : e.wf) :
    (m.after d e).wf := by
  cases e with
  | program a data =>
    obtain ⟨h1, h2⟩ := he
    exact Memory.program_wf hm (by rw [Config.addrTxLimit] at h2; rw [Config.arraySize]; omega)
  | havocPage p =>
    obtain ⟨h1, h2⟩ := he
    refine Memory.store_wf hm ?_
    rw [freeBytes_length, Config.pageSize, Config.arraySize]
    rw [Config.addrTxLimit] at h2
    omega
  | erase base size => exact Memory.erase_wf hm base size
  | noChange => exact hm

/-- An effect changes only the addresses it covers (20_memory.md R86, R87). -/
theorem Memory.read_after_of_not_covers {m : Memory} (hm : m.wf) (d : Nat) {e : Effect} (he : e.wf)
    {a : Nat} (h : ¬ e.covers a) : (m.after d e).read a = m.read a := by
  cases e with
  | program b data =>
    obtain ⟨h1, h2⟩ := he
    simp only [Effect.covers, not_and, not_lt] at h
    have hlen : b + data.length ≤ Config.arraySize := by
      rw [Config.addrTxLimit] at h2; rw [Config.arraySize]; omega
    rw [Memory.after, Memory.read_program hm hlen]
    split
    · have := h ‹_›
      rw [List.getElem?_eq_none (by omega), Option.getD_none, BitVec.and_allOnes]
    · rfl
  | havocPage p =>
    obtain ⟨h1, h2⟩ := he
    simp only [Effect.covers, not_and, not_lt] at h
    have hlen : p + (freeBytes d Config.pageSize).length ≤ Config.arraySize := by
      rw [freeBytes_length, Config.pageSize, Config.arraySize]; rw [Config.addrTxLimit] at h2; omega
    rw [Memory.after, Memory.read_store hm hlen]
    split
    · have := h ‹_›
      rw [List.getElem?_eq_none (by rw [freeBytes_length, Config.pageSize]; omega), Option.getD_none]
    · rfl
  | erase base size =>
    simp only [Effect.covers] at h
    rw [Memory.after, Memory.read_erase, if_neg h]
  | noChange => rfl

/-- The effect of a Page Program whose frame the block sends stays inside one page. -/
theorem programEffect_wf {a : Nat} {data : List Byte} (ha : a < Config.addrTxLimit) :
    (programEffect a data).wf := by
  unfold programEffect
  split
  · trivial
  · split
    · exact ⟨by simpa [Config.pageSize] using ‹_›, ha⟩
    · rw [Config.addrTxLimit] at ha
      simp only [Effect.wf, Config.pageSize, Config.addrTxLimit]
      omega

/-! ## Completion and the countdown -/

/-- Completion lands the pending effect and clears WIP and WEL (20_memory.md R78). -/
@[simp] theorem Env.complete_dev (v : Env) :
    v.complete.dev =
      { v.dev with
        mem := v.dev.mem.after v.draws (v.dev.pending.getD .noChange)
        pending := none
        wip := false
        wel := false } := by
  simp [Env.complete]

@[simp] theorem Env.complete_link (v : Env) : v.complete.link = v.link := by simp [Env.complete]
@[simp] theorem Env.complete_answers (v : Env) : v.complete.answers = v.answers := by simp [Env.complete]
@[simp] theorem Env.complete_failures (v : Env) : v.complete.failures = v.failures := by
  simp [Env.complete]
@[simp] theorem Env.complete_busyFor (v : Env) : v.complete.busyFor = v.busyFor := by
  simp [Env.complete]

/-- A status read at a device that is not busy changes nothing. -/
theorem Env.countDown_of_not_busy {v : Env} (h : v.dev.wip = false) : v.countDown = v := by
  simp [Env.countDown, h]

/-- A status read with more than one busy read left counts down. -/
theorem Env.countDown_of_busy {v : Env} (h : v.dev.wip = true) (hb : 2 ≤ v.dev.busyLeft) :
    v.countDown = v.withDev fun d => { d with busyLeft := d.busyLeft - 1 } := by
  simp only [Env.countDown, h, if_true, Env.withDev_dev]
  rw [if_neg (by omega)]

/-- The last busy status read completes the operation (20_memory.md R77, R78). -/
theorem Env.countDown_of_last {v : Env} (h : v.dev.wip = true) (hb : v.dev.busyLeft ≤ 1) :
    v.countDown = (v.withDev fun d => { d with busyLeft := d.busyLeft - 1 }).complete := by
  simp only [Env.countDown, h, if_true, Env.withDev_dev]
  rw [if_pos (by omega)]

/-- What a status read can do to the device: nothing, one count down, or completion. -/
theorem Env.countDown_cases (v : Env) :
    v.dev.wip = false ∧ v.countDown = v ∨
      v.dev.wip = true ∧ 2 ≤ v.dev.busyLeft ∧
        v.countDown = (v.withDev fun d => { d with busyLeft := d.busyLeft - 1 }) ∨
      v.dev.wip = true ∧ v.dev.busyLeft ≤ 1 ∧
        v.countDown = (v.withDev fun d => { d with busyLeft := d.busyLeft - 1 }).complete := by
  cases h : v.dev.wip
  · exact .inl ⟨rfl, Env.countDown_of_not_busy h⟩
  · rcases Nat.lt_or_ge v.dev.busyLeft 2 with hb | hb
    · exact .inr (.inr ⟨rfl, by omega, Env.countDown_of_last h (by omega)⟩)
    · exact .inr (.inl ⟨rfl, hb, Env.countDown_of_busy h hb⟩)

/-! ## The device invariant -/

variable {c : Config}

theorem Dev.Ok.launch (c : Config) : (Dev.launch c).Ok c where
  mem := ⟨.nil, by simp [Dev.launch]⟩
  uid := by simp [Dev.launch]
  busy := by simp [Dev.launch]
  notBusy := fun _ => rfl
  effect := by simp [Dev.launch]

theorem Dev.Ok.completed {v : Env} (h : v.dev.Ok c) : v.complete.dev.Ok c := by
  rw [Env.complete_dev]
  refine ⟨Memory.after_wf h.mem _ ?_, h.uid, by simp, fun _ => rfl, by simp⟩
  cases hp : v.dev.pending with
  | none => trivial
  | some e => exact h.effect e hp

theorem Dev.Ok.counted {v : Env} (h : v.dev.Ok c) : v.countDown.dev.Ok c := by
  rcases v.countDown_cases with ⟨-, e⟩ | ⟨hw, hb, e⟩ | ⟨hw, hb, e⟩
  · rwa [e]
  · rw [e]
    exact ⟨h.mem, h.uid, fun _ => ⟨(h.busy hw).1, by simp; omega, (h.busy hw).2.2⟩,
      fun hn => by simp [hw] at hn, h.effect⟩
  · rw [e, Env.complete_dev]
    refine ⟨Memory.after_wf h.mem _ ?_, h.uid, by simp, fun _ => rfl, by simp⟩
    simp only [Env.withDev_dev]
    cases hp : v.dev.pending with
    | none => trivial
    | some e => exact h.effect e hp

/-- Starting a busy period at a device that accepts a mutating command keeps the invariant. -/
theorem Dev.Ok.started {v : Env} (h : v.dev.Ok c) {e : Effect} (he : e.wf) {n : Nat} (hn : 1 ≤ n)
    (hwel : v.dev.wel = true) : (v.startBusy e n).dev.Ok c :=
  ⟨h.mem, h.uid, fun _ => ⟨hwel, hn, rfl⟩, fun hf => by simp at hf, fun _ h' => by
    simp at h'; exact h' ▸ he⟩

/-- Every command the device carries out keeps the invariant: the guards let only READ_STATUS reach a
busy device (20_memory.md R76 to R89). -/
theorem Dev.Ok.effected {v : Env} (h : v.dev.Ok c) (k : Command) (buf : List Byte)
    (hk : v.dev.wip = true → k = .readStatus) : (deviceEffect k buf v).dev.Ok c := by
  have idle : k ≠ .readStatus → v.dev.wip = false := fun hne => by
    cases hw : v.dev.wip
    · rfl
    · exact absurd (hk hw) hne
  cases k
  case readStatus => exact h.counted
  case readJedecId | readUniqueId | read | fastRead => exact h
  case writeEnable =>
    have hi := idle (by simp)
    exact ⟨h.mem, h.uid, fun hw => absurd (hi.symm.trans hw) (by simp), h.notBusy, h.effect⟩
  case writeDisable =>
    have hi := idle (by simp)
    exact ⟨h.mem, h.uid, fun hw => absurd (hi.symm.trans hw) (by simp), h.notBusy, h.effect⟩
  case deepPowerDown => exact ⟨h.mem, h.uid, h.busy, h.notBusy, h.effect⟩
  case pageProgram =>
    have hi := idle (by simp)
    have he : (programEffect (frameAddr buf) (buf.drop 4)).wf := programEffect_wf (ofAddrBytes_lt _ _ _)
    simp only [deviceEffect, Env.devProgram]
    split
    · split
      · refine ⟨?_, ?_, ?_, ?_, ?_⟩ <;> simp only [Env.withDev_dev, Env.applyEffect_dev, Env.busyDrawn_dev]
        · exact Memory.after_wf h.mem _ he
        · exact h.uid
        · simp [hi]
        · exact h.notBusy
        · exact h.effect
      · exact Dev.Ok.started (by simpa using h) he (by omega) (by simpa using ‹_›)
    · exact h
  case sectorErase | blockErase32K | blockErase64K | chipErase =>
    simp only [deviceEffect, Env.devErase]
    split
    · exact Dev.Ok.started (e := .erase _ _) (by simpa using h) trivial (by omega) (by simpa using ‹_›)
    · exact h

/-- What a frame the device answers is: the guards passed, a known opcode, a length it gives a meaning. -/
theorem deviceFrame_ok {buf : List Byte} {v w : Env} {rx : List Byte}
    (h : deviceFrame c buf v = .ok (rx, w)) :
    ∃ k, buf.head? = some k.opcode ∧ deviceGuard k.opcode v.dev = none ∧
      frameLengthOk c k buf.length = true ∧
      rx = overlay (freeBytes v.draws buf.length) (deviceBytes k buf v.dev).1 (deviceBytes k buf v.dev).2 ∧
      w = deviceEffect k buf (v.drawn buf.length) := by
  unfold deviceFrame at h
  split at h
  · cases h
  · rename_i op rest
    split at h
    · cases h
    · rename_i hg
      split at h
      · cases h
      · rename_i k hk
        have := Command.opcode_of_ofOpcode? hk
        subst this
        split at h
        · injection h with h
          injection h with h1 h2
          exact ⟨k, rfl, hg, ‹_›, h1.symm, h2.symm⟩
        · cases h

/-- A frame of a known command that passes the guards, with a length it has a meaning for, is carried
out. -/
theorem deviceFrame_of_command {k : Command} {rest : List Byte} {v : Env}
    (hg : deviceGuard k.opcode v.dev = none)
    (hl : frameLengthOk c k (rest.length + 1) = true) :
    deviceFrame c (k.opcode :: rest) v =
      .ok (overlay (freeBytes v.draws (rest.length + 1)) (deviceBytes k (k.opcode :: rest) v.dev).1
          (deviceBytes k (k.opcode :: rest) v.dev).2,
        deviceEffect k (k.opcode :: rest) (v.drawn (rest.length + 1))) := by
  simp [deviceFrame, hg, hl]

theorem deviceGuard_none {op : Byte} {d : Dev} :
    deviceGuard op d = none ↔ d.pd = false ∧ (d.wip = true → op = Command.readStatus.opcode) := by
  unfold deviceGuard
  cases d.pd <;> cases d.wip <;> simp

/-- A frame that begins with a command's opcode, if the device answers it, has that command's effect. -/
theorem deviceFrame_head {buf : List Byte} {v w : Env} {rx : List Byte} {k : Command}
    (hb : buf.head? = some k.opcode) (h : deviceFrame c buf v = .ok (rx, w)) :
    w = deviceEffect k buf (v.drawn buf.length) ∧ deviceGuard k.opcode v.dev = none := by
  obtain ⟨j, h1, h2, -, -, h3⟩ := deviceFrame_ok h
  rw [hb] at h1
  have := Command.opcode_inj (Option.some.inj h1)
  subst this
  exact ⟨h3, h2⟩

/-- The address of a frame that carries it (20_memory.md R81). -/
theorem frameAddr_of_addrBytes (op : Byte) {a : Nat} (h : a < Config.addrTxLimit) (rest : List Byte) :
    frameAddr (op :: (addrBytes a ++ rest)) = a := by
  simpa [frameAddr, addrBytes, byteAt] using ofAddrBytes_addrBytes h

/-- A command leaves which environment answers, the Unique ID and status bits 7:2 as they were. -/
theorem deviceEffect_keeps (k : Command) (buf : List Byte) (v : Env) :
    (deviceEffect k buf v).link = v.link ∧ (deviceEffect k buf v).dev.uid = v.dev.uid ∧
      (deviceEffect k buf v).dev.srHigh = v.dev.srHigh := by
  cases k <;> simp only [deviceEffect, Env.withDev_link, Env.withDev_dev, and_self]
  · rcases v.countDown_cases with ⟨-, e⟩ | ⟨-, -, e⟩ | ⟨-, -, e⟩ <;> rw [e] <;> simp
  · simp only [Env.devProgram]; split <;> [(split <;> simp); simp]
  all_goals simp only [Env.devErase]; split <;> simp

/-- A frame the device answers keeps the invariant. -/
theorem Dev.Ok.framed {buf : List Byte} {v w : Env} {rx : List Byte} (h : v.dev.Ok c)
    (hf : deviceFrame c buf v = .ok (rx, w)) : w.dev.Ok c := by
  obtain ⟨k, -, hg, -, -, rfl⟩ := deviceFrame_ok hf
  exact Dev.Ok.effected (by simpa using h) k buf fun hw =>
    Command.opcode_inj ((deviceGuard_none.1 hg).2 (by simpa using hw))

end Sys2Proof.Machine
end

