-- ==== Sys2Proof/Laws/Sequencer.lean ====
section
/-! SUPPORT. The exchange, the transaction and the family rule: what each can answer, said once. -/

namespace Sys2Proof.Machine

/-! ## The exchange -/

/-- An exchange under the oracle never raises a fault, and leaves the device alone. -/
theorem oracleExchange_cases (buf : List Byte) (v : Env) :
    ∃ cnt rx, (oracleExchange buf v).1 = .answered cnt rx ∧ rx.length = buf.length ∧
      (oracleExchange buf v).2.dev = v.dev := by
  unfold oracleExchange
  split
  · exact ⟨_, _, rfl, by simp, rfl⟩
  · exact ⟨_, _, rfl, by simp, rfl⟩

/-- With an answer laid out, the oracle gives it (00_scope.md R12). -/
theorem exchange_oracle {c : Config} {buf : List Byte} {v : Env} {a : Answer} {rest : List Answer}
    (hl : v.link = .oracle) (ha : v.answers = a :: rest) (hrx : a.rx.length = buf.length) :
    exchange c buf v =
      (.answered a.cnt a.rx, { v with answers := rest, draws := v.draws + buf.length }) := by
  simp only [exchange, hl, oracleExchange, ha]
  rw [overlay_all (by simpa using hrx)]
  simp [← hl]

/-- Without an injected failure, the reference environment answers with the frame's length (20_memory.md
R75). -/
theorem exchange_reference {c : Config} {buf : List Byte} {v : Env} (hl : v.link = .reference)
    (hf : v.injected buf.length = none) :
    exchange c buf v =
      match deviceFrame c buf { v with failures := v.failures.tail } with
      | .error k => (.raised k, { v with failures := v.failures.tail })
      | .ok (rx, w) => (.answered buf.length rx, w) := by
  simp only [exchange, hl, referenceExchange, hf] <;> rfl

/-- The device after an exchange: as it was, or as a frame it answered left it. -/
theorem exchange_dev (c : Config) (buf : List Byte) (v : Env) :
    (exchange c buf v).2.dev = v.dev ∨
      ∃ rx w, deviceFrame c buf { v with failures := v.failures.tail } = .ok (rx, w) ∧
        (exchange c buf v).2.dev = w.dev := by
  unfold exchange
  split
  · obtain ⟨-, -, -, -, h⟩ := oracleExchange_cases buf v
    exact .inl h
  · unfold referenceExchange
    simp only
    split
    · split
      · exact .inl rfl
      · exact .inr ⟨_, _, ‹_›, rfl⟩
    · split
      · split
        · exact .inl rfl
        · rename_i rx w hd
          exact .inr ⟨rx, w, hd, rfl⟩
      · exact .inl rfl

/-- No failure is injected where none is laid out. -/
theorem Env.injected_of_nil {v : Env} (hf : v.failures = []) (l : Nat) : v.injected l = none := by
  simp [Env.injected, hf]

/-- Under the reference environment, with no failure injected on it, a frame that the device answers
(20_memory.md R75). -/
theorem exchange_of_command_of_not_injected {c : Config} {k : Command} {rest : List Byte} {v : Env}
    (hl : v.link = .reference) (hf : v.injected (rest.length + 1) = none)
    (hg : deviceGuard k.opcode v.dev = none) (hlen : frameLengthOk c k (rest.length + 1) = true) :
    exchange c (k.opcode :: rest) v =
      (.answered (k.opcode :: rest).length
        (overlay (freeBytes v.draws (rest.length + 1)) (deviceBytes k (k.opcode :: rest) v.dev).1
          (deviceBytes k (k.opcode :: rest) v.dev).2),
        deviceEffect k (k.opcode :: rest)
          (Env.drawn (rest.length + 1) { v with failures := v.failures.tail })) := by
  have h := exchange_reference (c := c) (buf := k.opcode :: rest) hl hf
  rw [deviceFrame_of_command (v := { v with failures := v.failures.tail }) hg hlen] at h
  exact h

/-- The same where no failure is laid out at all: the list of failures stays empty. -/
theorem exchange_of_command {c : Config} {k : Command} {rest : List Byte} {v : Env}
    (hl : v.link = .reference) (hf : v.failures = [])
    (hg : deviceGuard k.opcode v.dev = none) (hlen : frameLengthOk c k (rest.length + 1) = true) :
    exchange c (k.opcode :: rest) v =
      (.answered (k.opcode :: rest).length
        (overlay (freeBytes v.draws (rest.length + 1)) (deviceBytes k (k.opcode :: rest) v.dev).1
          (deviceBytes k (k.opcode :: rest) v.dev).2),
        deviceEffect k (k.opcode :: rest) (v.drawn (rest.length + 1))) := by
  have he : ({ v with failures := v.failures.tail } : Env) = v := by cases v; simp_all
  rw [exchange_of_command_of_not_injected hl (Env.injected_of_nil hf _) hg hlen, he]

/-- The device after an exchange of a frame that begins with a command's opcode: as it was, or with that
command's effect. -/
theorem exchange_dev_of_head {c : Config} {buf : List Byte} {v : Env} {k : Command}
    (hb : buf.head? = some k.opcode) :
    (exchange c buf v).2.dev = v.dev ∨
      ∃ w : Env, w.dev = v.dev ∧ (exchange c buf v).2.dev = (deviceEffect k buf w).dev ∧
        deviceGuard k.opcode v.dev = none := by
  rcases exchange_dev c buf v with h | ⟨rx, w, h1, h2⟩
  · exact .inl h
  · obtain ⟨rfl, h4⟩ := deviceFrame_head hb h1
    exact .inr ⟨Env.drawn buf.length { v with failures := v.failures.tail }, rfl, h2, h4⟩

/-- A received buffer has the frame's length (00_scope.md R12). -/
theorem exchange_length {c : Config} {buf : List Byte} {v w : Env} {cnt : Int} {rx : List Byte}
    (h : exchange c buf v = (.answered cnt rx, w)) : rx.length = buf.length := by
  unfold exchange at h
  split at h
  · obtain ⟨cnt', rx', h1, h2, -⟩ := oracleExchange_cases buf v
    rw [h] at h1
    cases h1
    exact h2
  · unfold referenceExchange at h
    simp only at h
    split at h
    · split at h
      · cases h
      · rename_i hd
        obtain ⟨k, -, -, -, hrx, -⟩ := deviceFrame_ok hd
        cases h
        simp [hrx]
    · split at h
      · split at h <;> cases h
        simp
      · cases h
        simp

/-- An exchange keeps the device invariant. -/
theorem Dev.Ok.exchanged {c : Config} {v : Env} (h : v.dev.Ok c) (buf : List Byte) :
    (exchange c buf v).2.dev.Ok c := by
  rcases exchange_dev c buf v with e | ⟨rx, w, hd, e⟩
  · rwa [e]
  · rw [e]
    exact Dev.Ok.framed (v := { v with failures := v.failures.tail }) h hd

/-! ## The transaction -/

/-- What a transaction can do: record a fault of the device, continue on a full count, or put the return
of `TRANSPORT_ERROR` next (40_framing.md R132, R134). -/
theorem State.txn_cases (buf : List Byte) (next : List Byte → State → State) (s : State) :
    (∃ k v, exchange s.cfg buf s.env = (.raised k, v) ∧
      s.txn buf next = ({ s with env := v }.log (.unanswered s.chan buf)).raise (.fault k)) ∨
    (∃ rx v, exchange s.cfg buf s.env = (.answered buf.length rx, v) ∧ rx.length = buf.length ∧
      s.txn buf next = next rx ({ s with env := v }.log (.xfer s.chan buf buf.length rx))) ∨
    (∃ cnt rx v, exchange s.cfg buf s.env = (.answered cnt rx, v) ∧ cnt ≠ buf.length ∧
      s.txn buf next = ({ s with env := v }.log (.xfer s.chan buf cnt rx)).willReturn
        ⟨.transportError, .nothing⟩) := by
  unfold State.txn
  rcases h : exchange s.cfg buf s.env with ⟨r, v⟩
  cases r with
  | raised k => exact .inl ⟨k, v, rfl, rfl⟩
  | answered cnt rx =>
    by_cases hc : cnt = buf.length
    · subst hc
      exact .inr (.inl ⟨rx, v, rfl, exchange_length h, by simp⟩)
    · exact .inr (.inr ⟨cnt, rx, v, rfl, hc, by simp [hc]⟩)

/-- A transaction whose count is the frame's length continues on the received bytes. -/
theorem State.txn_ok {buf rx : List Byte} {next : List Byte → State → State} {s : State} {v : Env}
    (h : exchange s.cfg buf s.env = (.answered buf.length rx, v)) :
    s.txn buf next = next rx ({ s with env := v }.log (.xfer s.chan buf buf.length rx)) := by
  simp [State.txn, h]

/-- A transaction with another count puts the return of `TRANSPORT_ERROR` next (40_framing.md R134). -/
theorem State.txn_failed {buf rx : List Byte} {next : List Byte → State → State} {s : State} {v : Env}
    {cnt : Int} (h : exchange s.cfg buf s.env = (.answered cnt rx, v)) (hc : cnt ≠ buf.length) :
    s.txn buf next =
      ({ s with env := v }.log (.xfer s.chan buf cnt rx)).willReturn ⟨.transportError, .nothing⟩ := by
  simp [State.txn, h, hc]

/-- A fault of the reference device is recorded. -/
theorem State.txn_raised {buf : List Byte} {next : List Byte → State → State} {s : State} {v : Env}
    {k : Fault} (h : exchange s.cfg buf s.env = (.raised k, v)) :
    s.txn buf next = ({ s with env := v }.log (.unanswered s.chan buf)).raise (.fault k) := by
  simp [State.txn, h]

/-! ## The family rule -/

/-- The meaning of an instruction is its family rule, carried out (30_encoding.md R114). -/
theorem exec_eq_carryOut (i : Instr) (s : State) : exec i s = carryOut i (ruleOf s.cfg i) s := by
  cases i <;> rfl

/-- A step of a request that answers a next state is its acceptance, or the next event of its family
rule. -/
theorem carryOut_next {q : Instr} {r : FamilyRule} {s t : State} (h : carryOut q r s = .next t) :
    s.faults = [] ∧
      (s.phase = .idle ∧ t = accept q r s ∨
        s.phase ≠ .idle ∧ s.req = some (.command q) ∧ familyEvent r s = some t) := by
  obtain ⟨hf, h⟩ := unlessStopped_next h
  refine ⟨hf, ?_⟩
  split at h
  · cases h
    exact .inl ⟨‹_›, rfl⟩
  · split at h
    · split at h
      · cases h
        exact .inr ⟨‹_›, ‹_›, ‹_›⟩
      · cases h
    · cases h

/-- A step of an instruction that answers a next state is its acceptance, or the next event of its family
rule. -/
theorem exec_next {i : Instr} {s t : State} (h : exec i s = .next t) :
    s.faults = [] ∧
      (s.phase = .idle ∧ t = accept i (ruleOf s.cfg i) s ∨
        s.phase ≠ .idle ∧ s.req = some (.command i) ∧ familyEvent (ruleOf s.cfg i) s = some t) :=
  carryOut_next (exec_eq_carryOut i s ▸ h)

/-- From Idle, a request is accepted. -/
theorem exec_of_idle {i : Instr} {s : State} (hf : s.faults = []) (hp : s.phase = .idle) :
    exec i s = .next (accept i (ruleOf s.cfg i) s) := by
  rw [exec_eq_carryOut, carryOut, unlessStopped_nil hf, if_pos hp]

/-- In flight, a request performs the next event of its rule. -/
theorem exec_of_inFlight {i : Instr} {s t : State} (hf : s.faults = []) (hp : s.phase ≠ .idle)
    (hr : s.req = some (.command i)) (ht : familyEvent (ruleOf s.cfg i) s = some t) :
    exec i s = .next t := by
  rw [exec_eq_carryOut, carryOut, unlessStopped_nil hf, if_neg hp, if_pos hr, ht]

/-- What acceptance can do, in the order of 60_exceptions.md R325. -/
theorem accept_cases (q : Instr) (r : FamilyRule) (s : State) :
    (s.chan = none ∧ accept q r s = { s with req := some (.command q) }.raise (.fault .unbound)) ∨
    (∃ k, s.chan ≠ none ∧ r.absent = some k ∧
      accept q r s = { s with req := some (.command q) }.raise (.refusal k)) ∨
    (∃ k, s.chan ≠ none ∧ r.absent = none ∧ r.frame = .error k ∧
      accept q r s = { s with req := some (.command q), phase := .accepted }.raise (.fault k)) ∨
    (∃ buf, s.chan ≠ none ∧ r.absent = none ∧ r.frame = .ok buf ∧ r.tooLong = true ∧
      accept q r s = { s with req := some (.command q), phase := .accepted }.abort .invalidLength) ∨
    (∃ buf, s.chan ≠ none ∧ r.absent = none ∧ r.frame = .ok buf ∧ r.tooLong = false ∧
      accept q r s = { s with req := some (.command q), phase := .accepted, pos := r.start }) := by
  unfold accept
  by_cases hc : s.chan = none
  · exact .inl ⟨hc, by simp [hc]⟩
  · cases ha : r.absent with
    | some k => exact .inr (.inl ⟨k, hc, rfl, by simp [hc]⟩)
    | none =>
      cases hf : r.frame with
      | error k => exact .inr (.inr (.inl ⟨k, hc, rfl, rfl, by simp [hc]⟩))
      | ok buf =>
        cases ht : r.tooLong
        · exact .inr (.inr (.inr (.inr ⟨buf, hc, rfl, rfl, rfl, by simp [hc]⟩)))
        · exact .inr (.inr (.inr (.inl ⟨buf, hc, rfl, rfl, rfl, by simp [hc]⟩)))

/-- What the next event of a rule can be, by the position. -/
theorem familyEvent_cases {r : FamilyRule} {s t : State} (h : familyEvent r s = some t) :
    (s.pos = .busyCheck ∧ r.busyCheck = true ∧ t = busyCheckEvent s) ∨
    (s.pos = .writeEnable ∧ r.writeEnable = true ∧ t = writeEnableEvent s) ∨
    (s.pos = .command ∧ t = commandEvent r s) ∨
    (∃ p, s.pos = .pollRead ∧ r.poll = some p ∧ t = pollReadEvent p s) ∨
    (∃ p, s.pos = .pollDelay ∧ r.poll = some p ∧ t = pollDelayEvent p s) ∨
    (∃ v, s.pos = .ret v ∧ t = s.respond v) := by
  unfold familyEvent at h
  split at h
  · cases h
  · split at h <;> cases h
    exact .inl ⟨‹_›, ‹_›, rfl⟩
  · split at h <;> cases h
    exact .inr (.inl ⟨‹_›, ‹_›, rfl⟩)
  · cases h
    exact .inr (.inr (.inl ⟨‹_›, rfl⟩))
  · obtain ⟨p, hp, rfl⟩ := Option.map_eq_some_iff.1 h
    exact .inr (.inr (.inr (.inl ⟨p, ‹_›, hp, rfl⟩)))
  · obtain ⟨p, hp, rfl⟩ := Option.map_eq_some_iff.1 h
    exact .inr (.inr (.inr (.inr (.inl ⟨p, ‹_›, hp, rfl⟩))))
  · cases h
    exact .inr (.inr (.inr (.inr (.inr ⟨_, ‹_›, rfl⟩))))

/-! ## What each family rule is, in the terms of `Instr` -/

section Rules

variable (c : Config) (i : Instr)

@[simp] theorem ruleOf_busyCheck : (ruleOf c i).busyCheck = decide (i.toCommand = .pageProgram) := by
  cases i <;> rfl

@[simp] theorem ruleOf_writeEnable : (ruleOf c i).writeEnable = i.toCommand.mutating := by
  cases i <;> rfl

@[simp] theorem ruleOf_poll :
    (ruleOf c i).poll = if i.polls then some (i.pollKind, i.keeps c []) else none := by
  cases i <;> rfl

theorem ruleOf_absent :
    (ruleOf c i).absent = if i.absentIn c then some .erase32Absent else none := by
  cases i <;> try rfl
  simp only [ruleOf, blockErase32KRule, Instr.absentIn]
  by_cases h : c.hasErase32 = true <;> simp [h]

@[simp] theorem ruleOf_tooLong : (ruleOf c i).tooLong = i.tooLong := by
  cases i <;> rfl

/-- The first event after acceptance: PAGE_PROGRAM's busy pre-check, WRITE_ENABLE for the erases, the
command frame for the rest (30_encoding.md R114). -/
theorem ruleOf_start : (ruleOf c i).start =
    if i.toCommand = .pageProgram then .busyCheck
    else if i.toCommand.mutating then .writeEnable else .command := by
  cases i <;> rfl

end Rules

end Sys2Proof.Machine
end

