-- ==== Sys2Proof/Laws/Operands.lean ====
section
/-! SUPPORT. Address operands: when the address field is built and when it faults, and which requests have
a command frame. -/

namespace Sys2Proof.Machine

/-- An address below `2^24` has its three-byte field (30_encoding.md R103). -/
theorem addr24_of_lt {a : Nat} (h : a < Config.addrTxLimit) : addr24 a = .ok (addrBytes a) := by
  rw [addr24, if_neg (by omega)]

/-- An address at or above `2^24` faults (30_encoding.md R103). -/
theorem addr24_of_ge {a : Nat} (h : Config.addrTxLimit ≤ a) : addr24 a = .error .addrRange := by
  rw [addr24, if_pos h]

theorem addr24_lt {a : Nat} {A : List Byte} (h : addr24 a = .ok A) : a < Config.addrTxLimit := by
  by_contra hh
  rw [addr24_of_ge (a := a) (by omega)] at h
  cases h

theorem operandField_linear (a : Nat) : operandField (.linear a) = addr24 a := rfl

/-- An offset of 4096 or more faults before the address is looked at (60_exceptions.md R325). -/
theorem operandField_of_bad_offset {s o : Nat} (h : 4096 ≤ o) :
    operandField (.sectorOff s o) = .error .offsetRange := by
  rw [operandField, effectiveAddr, linearOf, if_pos h]

theorem operandField_of_offset {s o : Nat} (h : o < 4096) :
    operandField (.sectorOff s o) = addr24 (s <<< 12 ||| o) := by
  rw [operandField, effectiveAddr, linearOf, if_neg (by omega)]

/-- An operand that can be framed has an address in the transmissible window (20_memory.md R61). -/
theorem address_lt {x : AddrOperand} (h : x.framable = true) : x.address < Config.addrTxLimit := by
  cases x with
  | linear a => simpa [AddrOperand.framable, AddrOperand.address] using h
  | sectorOff s o =>
    simp [AddrOperand.framable] at h
    rw [AddrOperand.address, shiftLeft_or_eq_add (by omega), Config.addrTxLimit]
    omega

/-- An operand that can be framed has the field of its address. -/
theorem operandField_of_framable {x : AddrOperand} (h : x.framable = true) :
    operandField x = .ok (addrBytes x.address) := by
  have hlt := address_lt h
  cases x with
  | linear a => exact addr24_of_lt (a := a) hlt
  | sectorOff s o =>
    simp [AddrOperand.framable] at h
    rw [operandField_of_offset h.1]
    exact addr24_of_lt (a := s <<< 12 ||| o) hlt

/-- An operand with a field can be framed. -/
theorem framable_of_operandField {x : AddrOperand} {A : List Byte} (h : operandField x = .ok A) :
    x.framable = true := by
  cases x with
  | linear a => simpa [AddrOperand.framable] using addr24_lt h
  | sectorOff s o =>
    by_cases ho : o < 4096
    · rw [operandField_of_offset ho] at h
      have := addr24_lt h
      rw [shiftLeft_or_eq_add (by omega), Config.addrTxLimit] at this
      simp [AddrOperand.framable, ho]
      omega
    · rw [operandField_of_bad_offset (by omega)] at h
      cases h

theorem ok_of_map_eq_ok {e : Except Fault (List Byte)} {g : List Byte → List Byte} {b : List Byte}
    (h : e.map g = .ok b) : ∃ A, e = .ok A := by
  cases e with
  | error => cases h
  | ok A => exact ⟨A, rfl⟩

/-- A request that can be framed has the command frame of the format table (30_encoding.md R101). -/
theorem ruleOf_frame {c : Config} {i : Instr} (h : i.framable = true) :
    (ruleOf c i).frame = .ok (encode c i) := by
  cases i
  case readStatus | readJedecId | readUniqueId | writeEnable | writeDisable | chipErase | deepPowerDown =>
    rfl
  case read x n =>
    rw [ruleOf, readRule, operandField_of_framable (by simpa [Instr.framable] using h)]; rfl
  case fastRead x n =>
    rw [ruleOf, fastReadRule, operandField_of_framable (by simpa [Instr.framable] using h)]; rfl
  case pageProgram x d =>
    simp [Instr.framable] at h
    rw [ruleOf, pageProgramRule, operandField_of_framable h.1]; rfl
  case sectorErase n w =>
    simp [Instr.framable] at h
    rw [ruleOf, sectorEraseRule, eraseSeq, sectorAddr,
      addr24_of_lt (by rw [Nat.shiftLeft_eq, Config.addrTxLimit]; omega)]; rfl
  case blockErase32K b w =>
    simp [Instr.framable] at h
    rw [ruleOf, blockErase32KRule, eraseSeq, block32Addr,
      addr24_of_lt (by rw [Nat.shiftLeft_eq, Config.addrTxLimit]; omega)]; rfl
  case blockErase64K b w =>
    simp [Instr.framable] at h
    rw [ruleOf, blockErase64KRule, eraseSeq, block64Addr,
      addr24_of_lt (by rw [Nat.shiftLeft_eq, Config.addrTxLimit]; omega)]; rfl

/-- A request with a command frame and no overlong payload can be framed. -/
theorem framable_of_ruleOf_frame {c : Config} {i : Instr} {buf : List Byte}
    (h : (ruleOf c i).frame = .ok buf) (ht : i.tooLong = false) : i.framable = true := by
  cases i
  case readStatus | readJedecId | readUniqueId | writeEnable | writeDisable | chipErase | deepPowerDown =>
    rfl
  case read x n | fastRead x n =>
    obtain ⟨A, hA⟩ := ok_of_map_eq_ok h
    simpa [Instr.framable] using framable_of_operandField hA
  case pageProgram x d =>
    obtain ⟨A, hA⟩ := ok_of_map_eq_ok h
    simp [Instr.tooLong] at ht
    simp [Instr.framable, framable_of_operandField hA, Config.pageSize, ht]
  case sectorErase n w =>
    simp only [ruleOf, sectorEraseRule, eraseSeq] at h
    obtain ⟨A, hA⟩ := ok_of_map_eq_ok h
    have := addr24_lt hA
    rw [sectorAddr, Nat.shiftLeft_eq, Config.addrTxLimit] at this
    simp [Instr.framable]; omega
  case blockErase32K n w =>
    simp only [ruleOf, blockErase32KRule, eraseSeq] at h
    obtain ⟨A, hA⟩ := ok_of_map_eq_ok h
    have := addr24_lt hA
    rw [block32Addr, Nat.shiftLeft_eq, Config.addrTxLimit] at this
    simp [Instr.framable]; omega
  case blockErase64K n w =>
    simp only [ruleOf, blockErase64KRule, eraseSeq] at h
    obtain ⟨A, hA⟩ := ok_of_map_eq_ok h
    have := addr24_lt hA
    rw [block64Addr, Nat.shiftLeft_eq, Config.addrTxLimit] at this
    simp [Instr.framable]; omega

end Sys2Proof.Machine
end

