-- ==== Sys2Proof/Laws/PerInstr.lean ====
section
/-! SUPPORT. Facts about every instruction as syntax, one lemma per constructor. -/

namespace Sys2Proof.Laws.FrameLength

/-- The frame length of each command as a function of the request (30_encoding.md R108). -/
def length (c : Config) : Instr → Nat
  | .writeEnable | .writeDisable | .chipErase _ | .deepPowerDown => 1
  | .readStatus => 2
  | .readJedecId => 4
  | .readUniqueId => 5 + c.uidLen.toNat
  | .sectorErase _ _ | .blockErase32K _ _ | .blockErase64K _ _ => 4
  | .read _ n => 4 + n
  | .fastRead _ n => 5 + n
  | .pageProgram _ d => 4 + d.length

/-- The encoded frame has the length of 30_encoding.md R108. -/
def Statement (i : Instr) : Prop := ∀ c, (encode c i).length = length c i

theorem readStatus : Statement .readStatus := fun _ => rfl
theorem readJedecId : Statement .readJedecId := fun _ => rfl

theorem readUniqueId : Statement .readUniqueId := fun c => by
  simp [encode, length, Instr.toCommand, Command.format, Format.layout]; omega

theorem read (x : AddrOperand) (n : Nat) : Statement (.read x n) := fun c => by
  simp [encode, length, Instr.toCommand, Command.format, Format.layout, Instr.fields]; omega

theorem fastRead (x : AddrOperand) (n : Nat) : Statement (.fastRead x n) := fun c => by
  simp [encode, length, Instr.toCommand, Command.format, Format.layout, Instr.fields]; omega

theorem writeEnable : Statement .writeEnable := fun _ => rfl
theorem writeDisable : Statement .writeDisable := fun _ => rfl

theorem pageProgram (x : AddrOperand) (payload : List Byte) : Statement (.pageProgram x payload) :=
  fun c => by
    simp [encode, length, Instr.toCommand, Command.format, Format.layout, Instr.fields]; omega

theorem sectorErase (s : Nat) (wait : Bool) : Statement (.sectorErase s wait) := fun _ => rfl
theorem blockErase32K (b : Nat) (wait : Bool) : Statement (.blockErase32K b wait) := fun _ => rfl
theorem blockErase64K (b : Nat) (wait : Bool) : Statement (.blockErase64K b wait) := fun _ => rfl
theorem chipErase (wait : Bool) : Statement (.chipErase wait) := fun _ => rfl
theorem deepPowerDown : Statement .deepPowerDown := fun _ => rfl

end Sys2Proof.Laws.FrameLength
end

