-- ==== Sys2Proof/Laws/Step.lean ====
section
/-! SUPPORT. What one step can be: an inversion of `step`, cited by every whole-machine lemma. -/

namespace Sys2Proof.Machine

/-- BEGIN and DECODE answer a next state only from Idle, in one step (10_state.md R45). -/
theorem atOnce_next {q : Request} {f : State → State} {s t : State} (h : atOnce q f s = .next t) :
    s.faults = [] ∧ s.phase = .idle ∧ t = f { s with req := some q } := by
  obtain ⟨hf, h⟩ := unlessStopped_next h
  split at h <;> cases h
  exact ⟨hf, ‹_›, rfl⟩

/-- What a step that answers a next state is: a step of the request in flight, a step of the host's next
request, or nothing while the host offers none. -/
theorem step_next {s t : State} (h : step s = .next t) :
    s.faults = [] ∧
      ((∃ q, s.req = some q ∧ perform q s = .next t) ∨
        (∃ q rest, s.req = none ∧ s.host = q :: rest ∧ q.wf = true ∧
          perform q { s with host := rest } = .next t) ∨
        (s.req = none ∧ s.host = [] ∧ t = s)) := by
  obtain ⟨hf, h⟩ := unlessStopped_next h
  refine ⟨hf, ?_⟩
  split at h
  · exact .inl ⟨_, ‹_›, h⟩
  · split at h
    · cases h
      exact .inr (.inr ⟨‹_›, ‹_›, rfl⟩)
    · split at h
      · exact .inr (.inl ⟨_, _, ‹_›, ‹_›, ‹_›, h⟩)
      · cases h

/-! ## Runs -/

theorem execTimes_succ {i : Instr} {k : Nat} {s t : State} (h : exec i s = .next t) :
    execTimes i (k + 1) s = execTimes i k t := by
  rw [execTimes, h]

theorem stepTimes_succ {k : Nat} {s t : State} (h : step s = .next t) :
    stepTimes (k + 1) s = stepTimes k t := by
  rw [stepTimes, h]

/-- Two runs in a row are one run. -/
theorem stepTimes_add {j k : Nat} {s t u : State} (h : stepTimes j s = .next t)
    (h' : stepTimes k t = .next u) : stepTimes (j + k) s = .next u := by
  induction j generalizing s with
  | zero => cases h; simpa using h'
  | succ j ih =>
    rw [stepTimes] at h
    split at h
    · rename_i v hv
      rw [Nat.add_right_comm, stepTimes_succ hv]
      exact ih h
    · cases h
    · cases h

/-! ## Where a request stands -/

/-- A request that has its place is not Idle. -/
theorem State.phase_ne_idle_of_placedIn {i : Instr} {s : State} (h : s.placedIn i) : s.phase ≠ .idle := by
  intro h0
  cases hpos : s.pos <;> rw [State.placedIn, hpos] at h <;> simp [h0] at h
  · split at h <;> simp at h
  · rw [Instr.commandPhase] at h
    split at h <;> simp at h

/-- A request in flight in a safe state emits a command and has its place. -/
theorem State.Inv.inFlight {s : State} {q : Request} (hi : s.Inv) (hf : s.faults = [])
    (hr : s.req = some q) :
    ∃ i, q = .command i ∧ s.chan.isSome = true ∧ i.absentIn s.cfg = false ∧ i.framable = true ∧
      s.placedIn i := by
  have := hi.place hf
  simp only [State.placed, hr] at this
  cases q with
  | command i => exact ⟨i, rfl, this⟩
  | beginOn ch => exact this.elim
  | decode q => exact this.elim

/-- A safe state with nothing in flight is Idle (10_state.md R51). -/
theorem State.Inv.idle {s : State} (hi : s.Inv) (hf : s.faults = []) (hr : s.req = none) :
    s.phase = .idle ∧ s.pos = .idle := by
  have := hi.place hf
  simpa only [State.placed, hr] using this

/-- The step of a request in flight. -/
theorem step_of_req {s : State} {q : Request} (hf : s.faults = []) (hr : s.req = some q) :
    step s = perform q s := by
  rw [step, move, unlessStopped_nil hf, hr]

/-- The step that offers the host's next request. -/
theorem step_of_host {s : State} {q : Request} {rest : List Request} (hf : s.faults = [])
    (hr : s.req = none) (hh : s.host = q :: rest) (hq : q.wf = true) :
    step s = perform q { s with host := rest } := by
  rw [step, move, unlessStopped_nil hf, hr, hh]
  simp [hq]

end Sys2Proof.Machine
end

