-- ==== Sys2Proof/Tests/Slice0.lean ====
section
/-! SUPPORT. Tests of the model, with expected results from the spec's tables and test vectors, and a
concrete witness for the hypotheses of every statement that has any. -/

namespace Sys2Proof.Tests

open Sys2Proof Sys2Proof.Machine

/-! ## Small states -/

/-- The environment after reset: the reference device at the launch premise. -/
def launch : Env := Env.launch Config.standard

/-- The oracle with these answers laid out. -/
def oracle (as : List Answer) : Env := { launch with link := .oracle, answers := as }

/-- The reference device in the middle of an operation. -/
def working (e : Effect) (n : Nat) : Env :=
  (launch.withDev fun d => { d with wel := true }).startBusy e n

/-- A bound block that waits for a request. -/
def bound (v : Env) (h : List Request := []) : State :=
  { State.reset with chan := some 0, host := h, env := v }

/-- A request in flight. -/
def flying (i : Instr) (p : Pos) (ph : Phase) (v : Env) (n : Nat := 0) : State :=
  { State.reset with chan := some 0, req := some (.command i), pos := p, phase := ph, polls := n, env := v }

theorem oracle_ok (as : List Answer) : (oracle as).dev.Ok Config.standard := Dev.Ok.launch _

theorem working_ok {e : Effect} (he : e.wf) {n : Nat} (hn : 1 ≤ n) :
    (working e n).dev.Ok Config.standard := by
  have hl : launch.dev.Ok Config.standard := Dev.Ok.launch _
  exact Dev.Ok.started (v := launch.withDev fun d => { d with wel := true })
    ⟨hl.mem, hl.uid, fun h => absurd h (by decide), hl.notBusy, hl.effect⟩ he hn rfl

theorem bound_inv {v : Env} (hv : v.dev.Ok Config.standard) (h : List Request) : (bound v h).Inv :=
  ⟨(by decide : Config.standard.wf), Nat.zero_le _, Nat.zero_le _, fun _ => ⟨rfl, rfl⟩, hv⟩

theorem flying_inv {i : Instr} {p : Pos} {ph : Phase} {v : Env} {n : Nat}
    (hv : v.dev.Ok Config.standard) (hn : n ≤ 8) (ha : i.absentIn Config.standard = false)
    (hf : i.framable = true) (hp : (flying i p ph v n).placedIn i) : (flying i p ph v n).Inv :=
  ⟨(by decide : Config.standard.wf), hn, Nat.zero_le _, fun _ => ⟨rfl, ha, hf, hp⟩, hv⟩

/-- The outcome's next state, or the state after reset. -/
def after : Outcome → State
  | .next t => t
  | _ => State.reset

/-! ## Well-formedness: each check refuses an ill-formed term (30_encoding.md R113, R103, R108) -/

theorem test_wf_refuses_linear : (Instr.read (.linear 0x100000000) 1).wf = false := by decide
theorem test_wf_refuses_sector : (Instr.read (.sectorOff 0x100000000 0) 1).wf = false := by decide
theorem test_wf_refuses_offset : (Instr.pageProgram (.sectorOff 0 0x100000000) []).wf = false := by decide
theorem test_wf_refuses_erase_index : (Instr.sectorErase 0x100000000 true).wf = false := by decide
theorem test_wf_refuses_block32 : (Instr.blockErase32K 0x100000000 true).wf = false := by decide
theorem test_wf_refuses_block64 : (Instr.blockErase64K 0x100000000 true).wf = false := by decide
theorem test_wf_refuses_query : (DecodeQuery.sectorOf 0x100000000).wf = false := by decide
theorem test_wf_refuses_linear_query : (Request.decode (.linear 0 0x100000000)).wf = false := by decide
theorem test_wf_accepts_largest : (Instr.read (.linear 0xFFFFFFFF) 7).wf = true := by decide
theorem test_framable_refuses_window : (Instr.read (.linear 0x1000000) 1).framable = false := by decide
theorem test_framable_refuses_offset : (Instr.read (.sectorOff 0 4096) 1).framable = false := by decide
theorem test_framable_refuses_sector : (Instr.sectorErase 4096 false).framable = false := by decide
theorem test_framable_refuses_block32 : (Instr.blockErase32K 512 false).framable = false := by decide
theorem test_framable_refuses_block64 : (Instr.blockErase64K 256 false).framable = false := by decide
theorem test_framable_refuses_payload :
    (Instr.pageProgram (.linear 0) (List.replicate 257 0#8)).framable = false := by
  simp only [Instr.framable, List.length_replicate]; decide
theorem test_config_refuses_no_polls : ¬ Config.wf { Config.standard with pollMax := 0 } := by decide
theorem test_config_refuses_short_interval :
    ¬ Config.wf { Config.standard with tTurnaroundMin := 6 } := by decide

/-! ## Decoding: one frame of every command, from 95_test_vectors.md E1 and the vectors named -/

/-- E1. -/
theorem test_decode_read_status : decode Config.standard [0x05#8, 0x00#8] = .ok .readStatus := by decide
/-- V-ID1. -/
theorem test_decode_read_jedec_id :
    decode Config.standard [0x9F#8, 0x00#8, 0x00#8, 0x00#8] = .ok .readJedecId := by decide
/-- V-ID3. -/
theorem test_decode_read_unique_id :
    decode Config.standard (0x4B#8 :: List.replicate 12 0x00#8) = .ok .readUniqueId := by decide
/-- V-FR1. -/
theorem test_decode_read :
    decode Config.standard [0x03#8, 0x12#8, 0x34#8, 0x56#8, 0x00#8, 0x00#8] =
      .ok (.read (.linear 0x123456) 2) := by decide
/-- V-RD2. -/
theorem test_decode_fast_read :
    decode Config.standard [0x0B#8, 0x12#8, 0x34#8, 0x56#8, 0x00#8, 0x00#8, 0x00#8] =
      .ok (.fastRead (.linear 0x123456) 2) := by decide
/-- V-WL1. -/
theorem test_decode_write_enable : decode Config.standard [0x06#8] = .ok .writeEnable := by decide
/-- V-WL2. -/
theorem test_decode_write_disable : decode Config.standard [0x04#8] = .ok .writeDisable := by decide
/-- V-PP9. -/
theorem test_decode_page_program :
    decode Config.standard [0x02#8, 0x00#8, 0x00#8, 0x0A#8, 0x41#8, 0x42#8] =
      .ok (.pageProgram (.linear 0x00000A) [0x41#8, 0x42#8]) := by decide
/-- V-ER2. -/
theorem test_decode_sector_erase :
    decode Config.standard [0x20#8, 0xFF#8, 0xF0#8, 0x00#8] = .ok (.sectorErase 4095 false) := by decide
/-- V-ER4. -/
theorem test_decode_block_erase_32k :
    decode Config.standard [0x52#8, 0xFF#8, 0x80#8, 0x00#8] = .ok (.blockErase32K 511 false) := by decide
/-- V-ER9. -/
theorem test_decode_block_erase_64k :
    decode Config.standard [0xD8#8, 0x12#8, 0x00#8, 0x00#8] = .ok (.blockErase64K 0x12 false) := by decide
/-- V-ER10. -/
theorem test_decode_chip_erase : decode Config.standard [0xC7#8] = .ok (.chipErase false) := by decide
/-- V-PW1. -/
theorem test_decode_deep_power_down : decode Config.standard [0xB9#8] = .ok .deepPowerDown := by decide

theorem test_decode_refuses_empty : decode Config.standard [] = .error .empty := by decide
/-- 0xAB is none of the 13 opcodes (30_encoding.md R111). -/
theorem test_decode_refuses_opcode :
    decode Config.standard [0xAB#8] = .error (.unknownOpcode 0xAB#8) := by decide
theorem test_decode_refuses_length :
    decode Config.standard [0x06#8, 0x00#8] = .error (.badFormat .writeEnable) := by decide
theorem test_decode_refuses_placeholder :
    decode Config.standard [0x05#8, 0x01#8] = .error (.badFormat .readStatus) := by decide
theorem test_decode_refuses_unaligned :
    decode Config.standard [0x20#8, 0x00#8, 0x10#8, 0x01#8] =
      .error (.unalignedErase .sectorErase 0x1001) := by decide

/-- V-FR4: the address of a sector and offset. -/
theorem test_encode_sector_offset :
    encode Config.standard (.read (.sectorOff 0x123 0x456) 1) =
      [0x03#8, 0x12#8, 0x34#8, 0x56#8, 0x00#8] := by decide
/-- V-ID4: 21 bytes with the 16-byte Unique ID. -/
theorem test_encode_unique_id_sixteen :
    encode { Config.standard with uidLen := .sixteen } .readUniqueId =
      0x4B#8 :: List.replicate 20 0x00#8 := by decide

/-- Every word of the opcode table, eight bits each (30_encoding.md R102). -/
theorem test_table_words :
    [0x05, 0x9F, 0x4B, 0x03, 0x0B, 0x06, 0x04, 0x02, 0x20, 0x52, 0xD8, 0xC7, 0xB9].map
        (decodeTableWord 8) =
      [some .readStatus, some .readJedecId, some .readUniqueId, some (.read (.linear 0) 0),
        some (.fastRead (.linear 0) 0), some .writeEnable, some .writeDisable,
        some (.pageProgram (.linear 0) []), some (.sectorErase 0 false), some (.blockErase32K 0 false),
        some (.blockErase64K 0 false), some (.chipErase false), some .deepPowerDown] := by decide

/-- A placed word is the request in flight after one step from reset. -/
theorem test_placed_word_runs :
    [0x05, 0x9F, 0x4B, 0x03, 0x0B, 0x06, 0x04, 0x02, 0x20, 0x52, 0xD8, 0xC7, 0xB9].map
        (fun w => (after (step (State.reset.withFetchWord 8 w))).req) =
      [.readStatus, .readJedecId, .readUniqueId, .read (.linear 0) 0, .fastRead (.linear 0) 0,
        .writeEnable, .writeDisable, .pageProgram (.linear 0) [], .sectorErase 0 false,
        .blockErase32K 0 false, .blockErase64K 0 false, .chipErase false, .deepPowerDown].map
        fun i => some (.command i) := by decide

/-! ## The decoder requests and the handle -/

/-- V-DEC1 to V-DEC3. -/
theorem test_decode_requests :
    [DecodeQuery.sectorOf 0x123456, .sectorOffset 0x123456, .block32Of 0x123456, .block32Offset 0x123456,
        .block64Of 0x123456, .block64Offset 0x123456, .sectorAddr 4096, .block32Addr 511,
        .block64Addr 255, .linear 0x123 0x456].map (fun q => (after (execDecode q State.reset)).resp) =
      [0x123, 0x456, 0x24, 0x3456, 0x12, 0x3456, 0x1000000, 0xFF8000, 0xFF0000, 0x123456].map
        fun n => some ⟨.ok, .num n⟩ := by decide
/-- V-DEC8: no wrap. -/
theorem test_decode_does_not_wrap :
    (after (execDecode (.sectorAddr 0x100000) State.reset)).resp = some ⟨.ok, .num 0x100000000⟩ := by
  decide
/-- V-DEC11. -/
theorem test_decode_offset_fault :
    (after (execDecode (.linear 0 0x1000) State.reset)).faults = [.fault .offsetRange] := by decide
/-- V-RS2. -/
theorem test_begin :
    execBegin 7 State.reset = .next { State.reset with
      chan := some 7, resp := some ⟨.ok, .nothing⟩, trace := [.response ⟨.ok, .nothing⟩] } := rfl
/-- V-FR8. -/
theorem test_begin_twice : (after (execBegin 1 (bound launch))).faults = [.fault .rebind] := by decide
/-- V-FR7. -/
theorem test_unbound : (after (exec .readStatus State.reset)).faults = [.fault .unbound] := by decide

/-! ## One step of each instruction, under the oracle or the reference device -/

/-- V-ST9: the whole status byte. -/
theorem test_read_status_event :
    (after (exec .readStatus (flying .readStatus .command .accepted (oracle [⟨2, [0xAA#8, 0x02#8]⟩])))).pos =
      .ret ⟨.ok, .bytes [0x02#8]⟩ := by decide
/-- V-TX2: a negative count. -/
theorem test_read_status_transport_error :
    (after (exec .readStatus (flying .readStatus .command .accepted (oracle [⟨-1, [0#8, 0#8]⟩])))).pos =
      .ret ⟨.transportError, .nothing⟩ := by decide
/-- V-ID2: another identification is no error. -/
theorem test_read_jedec_id_event :
    (after (exec .readJedecId
      (flying .readJedecId .command .accepted (oracle [⟨4, [0#8, 0xEF#8, 0x40#8, 0x19#8]⟩])))).pos =
      .ret ⟨.ok, .bytes [0xEF#8, 0x40#8, 0x19#8]⟩ := by decide
/-- V-ID3: the kept slice starts at index 5. -/
theorem test_read_unique_id_event :
    (after (exec .readUniqueId (flying .readUniqueId .command .accepted
      (oracle [⟨13, [0#8, 1#8, 2#8, 3#8, 4#8, 5#8, 6#8, 7#8, 8#8, 9#8, 10#8, 11#8, 12#8]⟩])))).pos =
      .ret ⟨.ok, .bytes [5#8, 6#8, 7#8, 8#8, 9#8, 10#8, 11#8, 12#8]⟩ := by decide
/-- V-FR1. -/
theorem test_read_event :
    (after (exec (.read (.linear 0x123456) 2) (flying (.read (.linear 0x123456) 2) .command .accepted
      (oracle [⟨6, [0#8, 1#8, 2#8, 3#8, 0xD0#8, 0xD1#8]⟩])))).trace =
      [.xfer (some 0) [0x03#8, 0x12#8, 0x34#8, 0x56#8, 0#8, 0#8] 6
        [0#8, 1#8, 2#8, 3#8, 0xD0#8, 0xD1#8]] := by decide
/-- V-FR6. -/
theorem test_read_address_fault :
    (after (exec (.read (.sectorOff 0x1000 0) 1) (bound launch))).faults = [.fault .addrRange] := by decide
/-- V-RD2: the dummy byte shifts the slice. -/
theorem test_fast_read_event :
    (after (exec (.fastRead (.linear 0) 2) (flying (.fastRead (.linear 0) 2) .command .accepted
      (oracle [⟨7, [0#8, 1#8, 2#8, 3#8, 4#8, 0xD0#8, 0xD1#8]⟩])))).pos =
      .ret ⟨.ok, .bytes [0xD0#8, 0xD1#8]⟩ := by decide
/-- V-WL1. -/
theorem test_write_enable_event :
    (after (exec .writeEnable (flying .writeEnable .command .accepted launch))).env.dev =
      { launch.dev with wel := true } := by decide
/-- V-WL2. -/
theorem test_write_disable_event :
    (after (exec .writeDisable (flying .writeDisable .command .accepted
      (launch.withDev fun d => { d with wel := true })))).env.dev = launch.dev := by decide
/-- V-PP7: programming only clears bits. -/
theorem test_page_program_ands :
    (after (exec (.pageProgram (.linear 0x10) [0x0F#8])
      (flying (.pageProgram (.linear 0x10) [0x0F#8]) .command .writeEnabled
        { (launch.withDev fun d => { d with wel := true, mem := [(0x10, 0xF0#8)] }) with
          busyFor := [0] }))).env.dev = { launch.dev with mem := [(0x10, 0x00#8)] } := by decide
/-- V-PP4: busy at the pre-check. -/
theorem test_page_program_busy :
    (after (exec (.pageProgram (.linear 0) [0x55#8]) (flying (.pageProgram (.linear 0) [0x55#8]) .busyCheck
      .accepted (oracle [⟨2, [0#8, 0x03#8]⟩])))).pos = .ret ⟨.deviceBusy, .nothing⟩ := by decide
/-- V-ER1: the device is busy after the frame. -/
theorem test_sector_erase_event :
    (after (exec (.sectorErase 1 false) (flying (.sectorErase 1 false) .command .writeEnabled
      { (launch.withDev fun d => { d with wel := true }) with busyFor := [2] }))).env.dev =
      { launch.dev with
        wel := true, wip := true, busyLeft := 2, pending := some (.erase 4096 4096) } := by decide
/-- V-POLL5: a poll of at most one read. -/
theorem test_sector_erase_timeout :
    (after (exec (.sectorErase 0 true)
      { flying (.sectorErase 0 true) .pollRead .commandIssued (oracle [⟨2, [0#8, 0x03#8]⟩]) with
        cfg := { Config.standard with pollMax := 1 } })).pos = .ret ⟨.pollTimeout, .nothing⟩ := by decide
/-- V-FR9. -/
theorem test_block_erase_32k_absent :
    (after (exec (.blockErase32K 0 false)
      { bound launch with cfg := { Config.standard with hasErase32 := false } })).faults =
      [.refusal .erase32Absent] := by decide
/-- V-ER4. -/
theorem test_block_erase_32k_event :
    (after (exec (.blockErase32K 511 false) (flying (.blockErase32K 511 false) .command .writeEnabled
      (oracle [⟨4, [0#8, 0#8, 0#8, 0#8]⟩])))).trace =
      [.xfer (some 0) [0x52#8, 0xFF#8, 0x80#8, 0x00#8] 4 [0#8, 0#8, 0#8, 0#8]] := by decide
/-- V-ER8. -/
theorem test_block_erase_64k_range :
    (after (exec (.blockErase64K 256 false) (bound launch))).faults = [.fault .addrRange] := by decide
/-- V-POLL7: the BLOCK interval. -/
theorem test_block_erase_64k_delay :
    (after (exec (.blockErase64K 1 true) (flying (.blockErase64K 1 true) .pollDelay .polling launch 1))).trace =
      [.delay 50] := by decide
/-- V-ER10 and 20_memory.md R88: the whole array, after the WEL gate. -/
theorem test_chip_erase_event :
    (after (exec (.chipErase false) (flying (.chipErase false) .command .writeEnabled
      { (launch.withDev fun d => { d with wel := true }) with busyFor := [3] }))).env.dev.pending =
      some (.erase 0 0x2000000) := by decide
/-- V-TX7: the CHIP interval. -/
theorem test_chip_erase_delay :
    (after (exec (.chipErase true) (flying (.chipErase true) .pollDelay .polling launch 1))).trace =
      [.delay 500] := by decide
/-- V-PW1. -/
theorem test_deep_power_down_event :
    (after (exec .deepPowerDown (flying .deepPowerDown .command .accepted launch))).env.dev.pd = true := by
  decide
/-- V-PW2. -/
theorem test_powered_down_device :
    (after (exec .readStatus (flying .readStatus .command .accepted
      (launch.withDev fun d => { d with pd := true })))).faults = [.fault .devPoweredDown] := by decide
/-- V-ER11. -/
theorem test_busy_device :
    (after (exec (.sectorErase 1 false) (flying (.sectorErase 1 false) .writeEnable .accepted
      (working (.erase 0 4096) 2)))).faults = [.fault .devBusyCmd] := by decide
/-- V-ST1 to V-ST7: bits 0 and 1 alone. -/
theorem test_status_decode :
    [0x00#8, 0x01#8, 0x02#8, 0x03#8, 0xFC#8, 0xFD#8, 0xFE#8].map (fun b => (busy b, wel b)) =
      [(false, false), (true, false), (false, true), (true, true), (false, false), (true, false),
        (false, true)] := by decide

/-! ## Witnesses: for every statement with hypotheses, a state and operands that meet all of them -/

/-- The largest address of a frame, and the sector that holds it. -/
theorem witness_DecodeOfEncodeGivesTheRequest :
    (Instr.read (.sectorOff 4095 4095) 3).framable = true ∧
      (Instr.read (.linear 0xFFFFFF) 3).framable = true ∧
      (Instr.read (.linear 0xFFFFFF) 3).onWire = .read (.linear 0xFFFFFF) 3 := by decide

theorem witness_EncodeOfDecodeGivesTheFrame :
    decode Config.standard [0x20#8, 0xFF#8, 0xF0#8, 0x00#8] = .ok (.sectorErase 4095 false) := by decide

/-- Offset 4096 faults, 4095 does not; address `2^24` faults, `2^24 - 1` does not. -/
theorem witness_FamilyFramesFollowTheFormatTable :
    (Instr.read (.sectorOff 0 4096) 1).offsetBad = true ∧
      (Instr.read (.sectorOff 4096 4095) 1).offsetBad = false ∧
      (Instr.read (.sectorOff 4096 4095) 1).addrBad = true ∧
      (Instr.read (.sectorOff 4095 4095) 1).offsetBad = false ∧
      (Instr.read (.sectorOff 4095 4095) 1).addrBad = false := by decide

theorem witness_DecodeRequestsAnswerTheirNumber :
    State.reset.waiting ∧ (DecodeQuery.linear 0 4095).offsetBad = false ∧
      (DecodeQuery.linear 0 4096).offsetBad = true := by decide

theorem witness_BeginBindsTheChannelOnce :
    State.reset.waiting ∧ State.reset.chan = none ∧ (bound launch).waiting ∧ (bound launch).chan ≠ none := by
  decide

/-- Each of the six outcomes of acceptance, at its boundary. -/
theorem witness_AcceptanceDecidesInPriorityOrder :
    State.reset.waiting ∧ State.reset.chan = none ∧ (bound launch).waiting ∧
      (bound launch).chan = some 0 ∧
      (Instr.blockErase32K 512 false).absentIn { Config.standard with hasErase32 := false } = true ∧
      (Instr.pageProgram (.sectorOff 4096 4096) []).offsetBad = true ∧
      (Instr.pageProgram (.linear 0x1000000) []).addrBad = true ∧
      (Instr.pageProgram (.linear 0xFFFFFF) (List.replicate 257 0#8)).tooLong = true ∧
      (Instr.pageProgram (.linear 0xFFFFFF) (List.replicate 256 0#8)).tooLong = false := by
  refine ⟨by decide, rfl, by decide, rfl, by decide, by decide, by decide, ?_, ?_⟩ <;>
    simp only [Instr.tooLong, List.length_replicate] <;> decide

theorem witness_MarkedStateHasNoFurtherStep :
    ({ State.reset with faults := [.fault .rebind] } : State).faults = [.fault .rebind] ∧
      step State.reset = .next State.reset := ⟨rfl, rfl⟩

theorem witness_OfferInFlightHasNoMove :
    (flying .readStatus .command .accepted launch).faults = [] ∧
      (flying .readStatus .command .accepted launch).phase ≠ .idle ∧
      (flying .readStatus .command .accepted launch).req ≠ some (.command .writeEnable) ∧
      (flying .readStatus (.ret ⟨.ok, .nothing⟩) .commandIssued launch).req =
        some (.command .readStatus) ∧
      (∃ t, step (flying .readStatus (.ret ⟨.ok, .nothing⟩) .commandIssued launch) = .next t) := by
  refine ⟨rfl, by decide, by decide, rfl, _, rfl⟩

theorem witness_StepRunsTheRequest :
    (flying .readStatus .command .accepted launch).req = some (.command .readStatus) ∧
      (bound launch [.command (.sectorErase 0xFFFFFFFF true)]).host =
        [.command (.sectorErase 0xFFFFFFFF true)] ∧
      (Instr.sectorErase 0xFFFFFFFF true).wf = true ∧
      (bound launch [.beginOn 1]).host = [.beginOn 1] ∧
      (bound launch [.decode (.sectorOf 0xFFFFFFFF)]).host = [.decode (.sectorOf 0xFFFFFFFF)] ∧
      (DecodeQuery.sectorOf 0xFFFFFFFF).wf = true ∧ (bound launch).req = none ∧
      (bound launch).faults = [] ∧ decodeTableWord 8 0xC7 = some (.chipErase false) ∧
      (Instr.chipErase false).wf = true := by decide

theorem witness_OracleMayAnswerAnything :
    (oracle [⟨-5, [1#8, 2#8]⟩]).link = .oracle ∧ [1#8, 2#8].length = [0x05#8, 0x00#8].length ∧
      (oracle [⟨-5, [1#8, 2#8]⟩]).answers = [⟨-5, [1#8, 2#8]⟩] := ⟨rfl, rfl, rfl⟩

theorem witness_ReceivedBufferHasTheFramesLength :
    ∃ v, exchange Config.standard [0x06#8] (oracle [⟨1, [0#8]⟩]) = (.answered 1 [0#8], v) := ⟨_, rfl⟩

/-- No failure on this exchange: none laid out, none here but one on the next (V-TX5 to V-TX7), and an
entry whose count is the frame's length. A failure on this exchange, carried out and not. -/
theorem witness_ReferenceFailsOnlyWhereInjected :
    let lost : Failure := ⟨0, false⟩
    let done : Failure := ⟨-1, true⟩
    let v (fs : List (Option Failure)) : Env := { launch with failures := fs }
    launch.link = .reference ∧ launch.injected 1 = none ∧ (v [none, some lost]).injected 1 = none ∧
      (v [some ⟨1, false⟩, some lost]).injected 1 = none ∧
      (∃ rx w, exchange Config.standard [0x06#8] (v [none, some lost]) = (.answered 1 rx, w)) ∧
      (v [some lost, none]).failures = [some lost, none] ∧ lost.cnt ≠ [0x06#8].length ∧
      lost.carriedOut = false ∧ (v [some done]).failures = [some done] ∧ done.cnt ≠ [0x06#8].length ∧
      done.carriedOut = true ∧
      ∃ rx w, deviceFrame Config.standard [0x06#8] (v []) = .ok (rx, w) :=
  ⟨rfl, rfl, rfl, rfl, ⟨_, _, rfl⟩, rfl, by decide, rfl, rfl, by decide, rfl, _, _, rfl⟩

theorem witness_WrongCountEndsInTransportError :
    (flying .readStatus .command .accepted (oracle [⟨0, [0#8, 0#8]⟩])).Inv ∧
      (flying .readStatus .command .accepted (oracle [⟨0, [0#8, 0#8]⟩])).standsAt .readStatus .command
        .accepted ∧
      Instr.readStatus.frameAt Config.standard .command = some [0x05#8, 0x00#8] ∧
      (∃ v, exchange Config.standard [0x05#8, 0x00#8] (oracle [⟨0, [0#8, 0#8]⟩]) =
        (.answered 0 [0#8, 0#8], v)) ∧ (0 : Int) ≠ [0x05#8, 0x00#8].length :=
  ⟨flying_inv (oracle_ok _) (by decide) rfl rfl rfl, ⟨rfl, rfl, rfl, rfl⟩, rfl, ⟨_, rfl⟩, by decide⟩

theorem witness_ReturnWritesResponseAndGoesIdle :
    (flying .readStatus (.ret ⟨.ok, .bytes [2#8]⟩) .commandIssued launch).standsAt .readStatus
      (.ret ⟨.ok, .bytes [2#8]⟩) .commandIssued := ⟨rfl, rfl, rfl, rfl⟩

/-- The hypotheses of `oneFrame`: unbound; bound and answered with the frame's length; bound and answered
with another count. -/
theorem witness_oneFrame_unbound : State.reset.waiting ∧ State.reset.chan = none := by decide

theorem witness_ReadStatusReturnsTheStatusByte :
    (bound (oracle [⟨2, [0#8, 3#8]⟩])).waiting ∧ (bound (oracle [⟨2, [0#8, 3#8]⟩])).chan = some 0 ∧
      (∃ v, exchange Config.standard [0x05#8, 0x00#8] (oracle [⟨2, [0#8, 3#8]⟩]) =
        (.answered 2 [0#8, 3#8], v)) ∧
      ∃ v, exchange Config.standard [0x05#8, 0x00#8] (oracle [⟨3, [0#8, 3#8]⟩]) =
        (.answered 3 [0#8, 3#8], v) := ⟨by decide, rfl, ⟨_, rfl⟩, _, rfl⟩

theorem witness_ReadJedecIdReturnsThreeBytes :
    (bound launch).waiting ∧ (bound launch).chan = some 0 ∧
      ∃ rx v, exchange Config.standard [0x9F#8, 0x00#8, 0x00#8, 0x00#8] launch = (.answered 4 rx, v) :=
  ⟨by decide, rfl, _, _, rfl⟩

theorem witness_ReadUniqueIdReturnsUidLenBytes :
    (bound launch).waiting ∧ (bound launch).chan = some 0 ∧
      ∃ rx v, exchange Config.standard (0x4B#8 :: List.replicate 4 0#8 ++ List.replicate 8 0#8) launch =
        (.answered 13 rx, v) := ⟨by decide, rfl, _, _, rfl⟩

/-- Read lengths 0 and 2 at the last framable address; both ways an operand is out of range. -/
theorem witness_ReadReturnsTheDataSlice :
    (AddrOperand.sectorOff 4095 4095).framable = true ∧ (bound launch).waiting ∧
      (∃ rx v, exchange Config.standard (0x03#8 :: addressField 0xFFFFFF ++ List.replicate 0 0#8) launch =
        (.answered 4 rx, v)) ∧
      (∃ rx v, exchange Config.standard (0x03#8 :: addressField 0xFFFFFF ++ List.replicate 2 0#8) launch =
        (.answered 6 rx, v)) ∧
      (bound launch).chan ≠ none ∧ (Instr.read (.sectorOff 0 4096) 0).absentIn Config.standard = false ∧
      (Instr.read (.sectorOff 0 4096) 0).offsetBad = true ∧
      (Instr.read (.linear 0x1000000) 0).offsetBad = false ∧
      (Instr.read (.linear 0x1000000) 0).addrBad = true :=
  ⟨by decide, by decide, ⟨_, _, rfl⟩, ⟨_, _, rfl⟩, by decide, rfl, by decide, rfl, by decide⟩

theorem witness_FastReadReturnsTheDataSlice :
    (AddrOperand.linear 0xFFFFFF).framable = true ∧ (bound launch).waiting ∧
      (∃ rx v, exchange Config.standard
        (0x0B#8 :: addressField 0xFFFFFF ++ [0#8] ++ List.replicate 0 0#8) launch = (.answered 5 rx, v)) ∧
      (bound launch).chan ≠ none ∧
      (Instr.fastRead (.sectorOff 0 4096) 0).absentIn Config.standard = false ∧
      (Instr.fastRead (.sectorOff 0 4096) 0).offsetBad = true ∧
      (Instr.fastRead (.linear 0x1000000) 0).offsetBad = false ∧
      (Instr.fastRead (.linear 0x1000000) 0).addrBad = true :=
  ⟨by decide, by decide, ⟨_, _, rfl⟩, by decide, rfl, by decide, rfl, by decide⟩

theorem witness_LatchAndPowerCommandsAreOneByte :
    (bound launch).waiting ∧ (bound launch).chan = some 0 ∧
      (∃ rx v, exchange Config.standard [0x06#8] launch = (.answered 1 rx, v)) ∧
      (∃ rx v, exchange Config.standard [0x04#8] launch = (.answered 1 rx, v)) ∧
      ∃ rx v, exchange Config.standard [0xB9#8] launch = (.answered 1 rx, v) :=
  ⟨by decide, rfl, ⟨_, _, rfl⟩, ⟨_, _, rfl⟩, _, _, rfl⟩

/-- Three answers that take an erase through WRITE_ENABLE, a command frame of `l` bytes and a first
status read that is not busy. -/
def eraseAnswers (l : Nat) : List Answer :=
  [⟨1, [0#8]⟩, ⟨l, List.replicate l 0#8⟩, ⟨2, [0#8, 0x02#8]⟩]

theorem witness_SectorEraseRunsTheEraseSequence :
    (bound (oracle (eraseAnswers 4))).waiting ∧ (bound (oracle (eraseAnswers 4))).chan = some 0 ∧
      (Instr.sectorErase 4095 true).absentIn Config.standard = false ∧
      (∃ v1 v2 v3, exchange Config.standard [0x06#8] (oracle (eraseAnswers 4)) = (.answered 1 [0#8], v1) ∧
        exchange Config.standard (0x20#8 :: addressField (4095 * 4096)) v1 =
          (.answered 4 (List.replicate 4 0#8), v2) ∧
        exchange Config.standard [0x05#8, 0x00#8] v2 = (.answered 2 [0#8, 2#8], v3)) ∧
      busy (byteAt [0#8, 2#8] 1) = false ∧ (Instr.sectorErase 4096 true).offsetBad = false ∧
      (Instr.sectorErase 4096 true).addrBad = true :=
  ⟨by decide, rfl, rfl, ⟨_, _, _, rfl, rfl, rfl⟩, by decide, rfl, by decide⟩

/-- A bound block of a variant without the 32 KiB erase. -/
def lacking : State := { bound launch with cfg := { Config.standard with hasErase32 := false } }

theorem witness_BlockErasesRunTheEraseSequence :
    (bound (oracle (eraseAnswers 4))).waiting ∧ (bound (oracle (eraseAnswers 4))).chan = some 0 ∧
      (Instr.blockErase32K 511 true).absentIn Config.standard = false ∧
      (∃ v1 v2 v3, exchange Config.standard [0x06#8] (oracle (eraseAnswers 4)) = (.answered 1 [0#8], v1) ∧
        exchange Config.standard (0x52#8 :: addressField (511 * 32768)) v1 =
          (.answered 4 (List.replicate 4 0#8), v2) ∧
        exchange Config.standard (0xD8#8 :: addressField (255 * 65536)) v1 =
          (.answered 4 (List.replicate 4 0#8), v2) ∧
        exchange Config.standard [0x05#8, 0x00#8] v2 = (.answered 2 [0#8, 2#8], v3)) ∧
      busy (byteAt [0#8, 2#8] 1) = false ∧ (Instr.blockErase32K 512 true).addrBad = true ∧
      (Instr.blockErase64K 256 true).addrBad = true ∧
      lacking.waiting ∧ lacking.chan ≠ none ∧ lacking.cfg.hasErase32 = false :=
  ⟨by decide, rfl, rfl, ⟨_, _, _, rfl, rfl, rfl, rfl⟩, by decide, by decide, by decide, by decide,
    by decide, by decide⟩

theorem witness_ChipEraseRunsTheEraseSequence :
    (bound (oracle (eraseAnswers 1))).waiting ∧ (bound (oracle (eraseAnswers 1))).chan = some 0 ∧
      (Instr.chipErase true).absentIn Config.standard = false ∧
      (∃ v1 v2 v3, exchange Config.standard [0x06#8] (oracle (eraseAnswers 1)) = (.answered 1 [0#8], v1) ∧
        exchange Config.standard [0xC7#8] v1 = (.answered 1 (List.replicate 1 0#8), v2) ∧
        exchange Config.standard [0x05#8, 0x00#8] v2 = (.answered 2 [0#8, 2#8], v3)) ∧
      busy (byteAt [0#8, 2#8] 1) = false :=
  ⟨by decide, rfl, rfl, ⟨_, _, _, rfl, rfl, rfl⟩, by decide⟩

theorem witness_OverlongProgramEndsInInvalidLength :
    (bound launch).waiting ∧ (bound launch).chan ≠ none ∧ (AddrOperand.linear 0xFFFFFF).framable = true ∧
      256 < (List.replicate 257 0x55#8).length := by
  refine ⟨by decide, by decide, by decide, ?_⟩
  rw [List.length_replicate]
  decide

theorem witness_BusyPreCheckEndsInDeviceBusy :
    (bound (oracle [⟨2, [0#8, 1#8]⟩])).waiting ∧ (bound (oracle [⟨2, [0#8, 1#8]⟩])).chan = some 0 ∧
      (AddrOperand.linear 0).framable = true ∧ (List.replicate 256 0x55#8).length ≤ 256 ∧
      (∃ v, exchange Config.standard [0x05#8, 0x00#8] (oracle [⟨2, [0#8, 1#8]⟩]) =
        (.answered 2 [0#8, 1#8], v)) ∧ busy (byteAt [0#8, 1#8] 1) = true :=
  ⟨by decide, rfl, by decide, by rw [List.length_replicate], ⟨_, rfl⟩, by decide⟩

/-- Four answers that take a Page Program of one byte to its `OK`. -/
def programAnswers : List Answer :=
  [⟨2, [0#8, 2#8]⟩, ⟨1, [0#8]⟩, ⟨5, [0#8, 0#8, 0#8, 0#8, 0#8]⟩, ⟨2, [0#8, 0#8]⟩]

theorem witness_PageProgramRunsItsSequence :
    (bound (oracle programAnswers)).waiting ∧ (bound (oracle programAnswers)).chan = some 0 ∧
      (AddrOperand.linear 0xFFFFFF).framable = true ∧ [0x55#8].length ≤ 256 ∧
      (∃ v1 v2 v3 v4,
        exchange Config.standard [0x05#8, 0x00#8] (oracle programAnswers) = (.answered 2 [0#8, 2#8], v1) ∧
        exchange Config.standard [0x06#8] v1 = (.answered 1 [0#8], v2) ∧
        exchange Config.standard (0x02#8 :: addressField 0xFFFFFF ++ [0x55#8]) v2 =
          (.answered (4 + 1 : Nat) [0#8, 0#8, 0#8, 0#8, 0#8], v3) ∧
        exchange Config.standard [0x05#8, 0x00#8] v3 = (.answered 2 [0#8, 0#8], v4)) ∧
      busy (byteAt [0#8, 2#8] 1) = false ∧ busy (byteAt [0#8, 0#8] 1) = false :=
  ⟨by decide, rfl, by decide, by decide, ⟨_, _, _, _, rfl, rfl, rfl, rfl⟩, by decide, by decide⟩

/-- A busy answer and one that is not; the read that reaches `POLL_MAX` and one before it. -/
theorem witness_PollReadDecidesOnBusyAlone :
    (Instr.sectorErase 0 true).polls = true ∧
      (flying (.sectorErase 0 true) .pollRead .polling launch 7).standsAt (.sectorErase 0 true) .pollRead
        .polling ∧
      (∃ v, exchange Config.standard [0x05#8, 0x00#8] (oracle [⟨2, [0#8, 0xFD#8]⟩]) =
        (.answered 2 [0#8, 0xFD#8], v)) ∧
      (byteAt [0#8, 0xFD#8] 1).toNat % 2 = 1 ∧ (byteAt [0#8, 0xFE#8] 1).toNat % 2 ≠ 1 ∧
      Config.standard.pollMax ≤ 7 + 1 ∧ ¬ Config.standard.pollMax ≤ 6 + 1 :=
  ⟨rfl, ⟨rfl, rfl, rfl, rfl⟩, ⟨_, rfl⟩, by decide, by decide, by decide, by decide⟩

theorem witness_PollDelayCarriesTheKindsInterval :
    (flying (.pageProgram (.linear 0) []) .pollDelay .polling launch 1).standsAt
        (.pageProgram (.linear 0) []) .pollDelay .polling ∧
      (flying (.sectorErase 0 true) .pollDelay .polling launch 1).standsAt (.sectorErase 0 true)
        .pollDelay .polling ∧
      (flying (.blockErase32K 0 true) .pollDelay .polling launch 1).standsAt (.blockErase32K 0 true)
        .pollDelay .polling ∧
      (flying (.blockErase64K 0 true) .pollDelay .polling launch 1).standsAt (.blockErase64K 0 true)
        .pollDelay .polling ∧
      (flying (.chipErase true) .pollDelay .polling launch 1).standsAt (.chipErase true) .pollDelay
        .polling := by decide

theorem witness_PollEndsReadyAfterFewerBusyReads :
    (Instr.chipErase true).polls = true ∧
      (flying (.chipErase true) .pollRead .commandIssued
        (oracle [⟨2, [0#8, 3#8]⟩, ⟨2, [0#8, 0#8]⟩])).standsAt (.chipErase true) .pollRead .commandIssued ∧
      (oracle [⟨2, [0#8, 3#8]⟩, ⟨2, [0#8, 0#8]⟩]).answers =
        [[0#8, 3#8]].map (fun rx => ⟨2, rx⟩) ++ ⟨2, [0#8, 0#8]⟩ :: [] ∧
      (∀ rx ∈ [[0#8, 3#8]], rx.length = 2 ∧ busy (byteAt rx 1) = true) ∧
      busy (byteAt [0#8, 0#8] 1) = false ∧ [[0#8, 3#8]].length < Config.standard.pollMax := by decide

theorem witness_PollTimesOutAfterPollMaxBusyReads :
    (flying (.chipErase true) .pollRead .commandIssued
        (oracle (List.replicate 8 ⟨2, [0#8, 3#8]⟩))).standsAt (.chipErase true) .pollRead .commandIssued ∧
      (oracle (List.replicate 8 ⟨2, [0#8, 3#8]⟩)).answers =
        (List.replicate 8 [0#8, 3#8]).map (fun rx => ⟨2, rx⟩) ++ [] ∧
      (∀ rx ∈ List.replicate 8 [0#8, 3#8], rx.length = 2 ∧ busy (byteAt rx 1) = true) ∧
      1 ≤ Config.standard.pollMax ∧ (List.replicate 8 [0#8, 3#8]).length = Config.standard.pollMax := by
  decide

theorem witness_EveryRequestEndsWithinItsBound : (bound launch).Inv ∧ (bound launch).waiting :=
  ⟨bound_inv (Dev.Ok.launch _) [], by decide⟩

/-- A step under the reference device, from a state with the invariant. -/
theorem witness_EveryStepKeepsTheInvariant :
    (flying .writeEnable .command .accepted launch).Inv ∧
      ∃ t, step (flying .writeEnable .command .accepted launch) = .next t :=
  ⟨flying_inv (Dev.Ok.launch _) (by decide) rfl rfl rfl, _, rfl⟩

/-- A request that is not mutating, and the WRITE_ENABLE frame of one that is. -/
theorem witness_OnlyFramesOfTheRequestAreSent :
    (flying .readStatus .command .accepted (oracle [⟨2, [0#8, 0#8]⟩])).Inv ∧
      (∃ t, step (flying .readStatus .command .accepted (oracle [⟨2, [0#8, 0#8]⟩])) = .next t ∧
        framesIn t.trace = 1) ∧
      Instr.readStatus.toCommand.mutating = false ∧
      (flying (.chipErase true) .writeEnable .accepted (oracle [⟨1, [0#8]⟩])).Inv ∧
      (∃ t, step (flying (.chipErase true) .writeEnable .accepted (oracle [⟨1, [0#8]⟩])) = .next t ∧
        framesIn t.trace = 1) ∧
      (Instr.chipErase true).frameAt Config.standard .writeEnable = some [0x06#8] :=
  ⟨flying_inv (oracle_ok _) (by decide) rfl rfl rfl, ⟨_, rfl, by decide⟩, rfl,
    flying_inv (oracle_ok _) (by decide) rfl rfl ⟨rfl, rfl⟩, ⟨_, rfl, by decide⟩, rfl⟩

theorem witness_EveryFrameHasAMeaningToTheDevice :
    (flying .writeEnable .command .accepted launch).Inv ∧
      ∃ t, step (flying .writeEnable .command .accepted launch) = .next t ∧
        t.env.link = .reference ∧ framesIn t.trace = 1 :=
  ⟨flying_inv (Dev.Ok.launch _) (by decide) rfl rfl rfl, _, rfl, rfl, by decide⟩

theorem witness_UnmarkedStateAlwaysSteps :
    (bound launch).Inv ∧ (bound launch).faults = [] ∧
      (bound launch [.command (.sectorErase 0x100000000 true)]).Inv ∧
      (Request.command (.sectorErase 0x100000000 true)).wf = false ∧ (bound launch).host = [] :=
  ⟨bound_inv (Dev.Ok.launch _) [], rfl, bound_inv (Dev.Ok.launch _) _, by decide, rfl⟩

theorem witness_ResetValuesMeetTheInvariant :
    Config.standard.wf ∧ Config.wf { Config.standard with uidLen := .sixteen, pollMax := 1 } := by decide

theorem witness_ChannelAndConfigurationAreFixed :
    ({ State.reset with host := [.beginOn 7] } : State).Inv ∧
      ∃ t, step { State.reset with host := [.beginOn 7] } = .next t ∧ t.chan ≠ State.reset.chan :=
  ⟨⟨(by decide : Config.standard.wf), Nat.zero_le _, Nat.zero_le _, fun _ => ⟨rfl, rfl⟩, Dev.Ok.launch _⟩,
    _, rfl, by decide⟩

/-- A step that sends a mutating frame, right after its WRITE_ENABLE. -/
theorem witness_WriteEnableComesRightBeforeEveryMutatingFrame :
    let s := { flying (.chipErase false) .command .writeEnabled (oracle [⟨1, [0#8]⟩]) with
      trace := [.xfer (some 0) wrenFrame 1 [0#8]] }
    s.Inv ∧ (∃ t, step s = .next t) ∧ wrenAdjacent s.trace ∧
      (s.phase = .writeEnabled ∧ s.pos = .command ∧ ∃ w, s.trace.getLast? = some w ∧ w.wrenDone) := by
  refine ⟨⟨(by decide : Config.standard.wf), Nat.zero_le _, Nat.zero_le _, fun _ => ⟨rfl, rfl, rfl, rfl⟩,
    oracle_ok _⟩, ⟨_, rfl⟩, ?_, rfl, rfl, _, rfl, _, _, rfl⟩
  rintro before e later h ⟨b, hb, k, hk, hh⟩
  have : before = [] ∧ e = .xfer (some 0) wrenFrame 1 [0#8] := by
    cases before with
    | nil => exact ⟨rfl, (List.cons.inj h).1.symm⟩
    | cons x xs => simp at h
  obtain ⟨-, rfl⟩ := this
  cases hb
  cases k <;> simp [Command.mutating, Command.opcode, wrenFrame] at hk hh

theorem witness_ResultsAreThoseOfTheTable :
    (flying .readStatus (.ret ⟨.transportError, .nothing⟩) .accepted launch).Inv ∧
      (flying .readStatus (.ret ⟨.transportError, .nothing⟩) .accepted launch).req =
        some (.command .readStatus) ∧
      ∃ t, step (flying .readStatus (.ret ⟨.transportError, .nothing⟩) .accepted launch) = .next t ∧
        t.req = none :=
  ⟨flying_inv (Dev.Ok.launch _) (by decide) rfl rfl
    ⟨Phase.noConfusion, by decide, Result.noConfusion, fun _ => rfl⟩, rfl, _, rfl, rfl⟩

theorem witness_OracleRunsIgnoreTheDevice : (bound (oracle [])).env.link = .oracle := rfl

/-- A request that does not poll, one that ends, and a position without a frame. -/
theorem witness_RequestStepFrame :
    Instr.readStatus.polls = false ∧
      (∃ t, exec .readStatus (bound launch) = .next t) ∧ (bound launch).phase = .idle ∧
      ∃ t, exec .readStatus (flying .readStatus (.ret ⟨.ok, .nothing⟩) .commandIssued launch) = .next t ∧
        t.resp ≠ State.reset.resp ∧
        Instr.readStatus.frameAt Config.standard (.ret ⟨.ok, .nothing⟩) = none :=
  ⟨rfl, ⟨_, rfl⟩, rfl, _, rfl, by decide, rfl⟩

/-- An erase of sector 0 pending, completed by this read, and an address outside it. -/
theorem witness_ArrayChangesOnlyWhereAnEffectLands :
    (flying .readStatus .command .accepted (working (.erase 0 4096) 1)).Inv ∧
      (∃ t, exec .readStatus (flying .readStatus .command .accepted (working (.erase 0 4096) 1)) =
        .next t) ∧
      (working (.erase 0 4096) 1).dev.pending = some (.erase 0 4096) ∧
      ¬ (Effect.erase 0 4096).covers 4096 ∧ ¬ (programEffect 0xFF [0x55#8]).covers 0x100 ∧
      (AddrOperand.linear 0xFF).framable = true :=
  ⟨flying_inv (working_ok (e := .erase 0 4096) trivial (by decide)) (by decide) rfl rfl rfl, ⟨_, rfl⟩, rfl,
    by simp [Effect.covers], by simp [programEffect, Effect.covers, Config.pageSize], by decide⟩

theorem witness_NonMutatingStepsLeaveTheDevice :
    (∃ t, exec .readJedecId (flying .readJedecId .command .accepted launch) = .next t) ∧
      Instr.readJedecId.toCommand ∈ [Command.read, .fastRead, .readJedecId, .readUniqueId] ∧
      (∃ t, exec .writeEnable (flying .writeEnable .command .accepted launch) = .next t) ∧
      (∃ t, exec .writeDisable (flying .writeDisable .command .accepted launch) = .next t) ∧
      ∃ t, exec .deepPowerDown (flying .deepPowerDown .command .accepted launch) = .next t :=
  ⟨⟨_, rfl⟩, by decide, ⟨_, rfl⟩, ⟨_, rfl⟩, _, rfl⟩

/-- A powered-down device; a busy one that is sent WRITE_ENABLE. -/
theorem witness_DeviceGuardsRecordTheirFaults :
    let down := launch.withDev fun d => { d with pd := true }
    (flying .readStatus .command .accepted down).Inv ∧
      (flying .readStatus .command .accepted down).standsAt .readStatus .command .accepted ∧
      Instr.readStatus.frameAt Config.standard .command = some [0x05#8, 0x00#8] ∧
      down.link = .reference ∧ down.failures = [] ∧ down.dev.pd = true ∧
      (flying (.sectorErase 0 true) .writeEnable .accepted (working (.erase 0 4096) 1)).Inv ∧
      (Instr.sectorErase 0 true).frameAt Config.standard .writeEnable = some [0x06#8] ∧
      (working (.erase 0 4096) 1).dev.pd = false ∧ (working (.erase 0 4096) 1).dev.wip = true ∧
      [0x06#8].head? ≠ some 0x05#8 := by
  have hl : launch.dev.Ok Config.standard := Dev.Ok.launch _
  exact ⟨flying_inv ⟨hl.mem, hl.uid, hl.busy, hl.notBusy, hl.effect⟩ (by decide) rfl rfl rfl,
    ⟨rfl, rfl, rfl, rfl⟩, rfl, rfl, rfl, rfl,
    flying_inv (working_ok (e := .erase 0 4096) trivial (by decide)) (by decide) rfl (by decide) ⟨rfl, rfl⟩, rfl, rfl, rfl,
    by decide⟩

/-- Not busy; two busy reads left; the last busy read, of a program and of an erase. -/
theorem witness_StatusReadReportsThenCountsDown :
    (flying .readStatus .command .accepted launch).Inv ∧ launch.dev.wip = false ∧
      (flying .readStatus .command .accepted (working (.erase 0 4096) 2)).Inv ∧
      (working (.erase 0 4096) 2).dev.busyLeft = 2 ∧
      (flying .readStatus .command .accepted (working (.program 0xFF [0x0F#8]) 1)).Inv ∧
      (flying .readStatus .command .accepted (working (.program 0xFF [0x0F#8]) 1)).standsAt .readStatus
        .command .accepted ∧
      (working (.program 0xFF [0x0F#8]) 1).dev.busyLeft = 1 ∧
      (working (.program 0xFF [0x0F#8]) 1).dev.pending = some (.program 0xFF [0x0F#8]) ∧
      ¬ (Effect.program 0xFF [0x0F#8]).covers 0x100 ∧
      (working (.erase 0 4096) 1).dev.pending = some (.erase 0 4096) ∧
      (working (.erase 0 4096) 1).link = .reference ∧ (working (.erase 0 4096) 1).failures = [] :=
  ⟨flying_inv (Dev.Ok.launch _) (by decide) rfl rfl rfl, rfl,
    flying_inv (working_ok (e := .erase 0 4096) trivial (by decide)) (by decide) rfl rfl rfl, rfl,
    flying_inv (working_ok (by simp [Effect.wf, Config.addrTxLimit]) (by decide)) (by decide) rfl rfl rfl,
    ⟨rfl, rfl, rfl, rfl⟩, rfl, rfl, by simp [Effect.covers], rfl, rfl, rfl⟩

/-- Read lengths whose last byte is the last address of the window. -/
theorem witness_ReadsReturnWhatTheDeviceHolds :
    (flying (.read (.linear 0xFFFFFE) 2) .command .accepted launch).Inv ∧
      (flying (.fastRead (.linear 0xFFFFFE) 2) .command .accepted launch).Inv ∧
      (flying .readJedecId .command .accepted launch).Inv ∧
      (flying .readUniqueId .command .accepted launch).Inv ∧ launch.link = .reference ∧
      launch.failures = [] ∧ launch.dev.pd = false ∧ launch.dev.wip = false ∧
      (AddrOperand.linear 0xFFFFFE).address + 1 ≤ 0xFFFFFF :=
  ⟨flying_inv (Dev.Ok.launch _) (by decide) rfl (by decide) rfl,
    flying_inv (Dev.Ok.launch _) (by decide) rfl (by decide) rfl,
    flying_inv (Dev.Ok.launch _) (by decide) rfl rfl rfl,
    flying_inv (Dev.Ok.launch _) (by decide) rfl rfl rfl, rfl, rfl, rfl, rfl, by decide⟩

theorem witness_LatchAndPowerCommandsActOnTheDevice :
    (flying .writeEnable .command .accepted launch).standsAt .writeEnable .command .accepted ∧
      (flying .writeDisable .command .accepted launch).standsAt .writeDisable .command .accepted ∧
      (flying .deepPowerDown .command .accepted launch).standsAt .deepPowerDown .command .accepted ∧
      launch.link = .reference ∧ launch.failures = [] ∧ launch.dev.pd = false ∧
      launch.dev.wip = false := by decide

/-- Busy counts 0 and 1, a drawn count, an entry of the list of failures that is none; WEL clear and set;
programs that end with their page, cross it and are empty. -/
theorem witness_MutatingFramesStartTheirEffect :
    let ready : Env := launch.withDev fun d => { d with wel := true }
    let v (n : Nat) : Env := { ready with busyFor := [n], failures := [none, some ⟨0, false⟩] }
    (flying (.sectorErase 4095 true) .command .writeEnabled (v 0)).Inv ∧
      (flying (.pageProgram (.linear 0xFF) [0x55#8]) .command .writeEnabled (v 1)).Inv ∧
      (flying (.pageProgram (.linear 0xFF) [0x55#8]) .command .writeEnabled (v 0)).standsAt
        (.pageProgram (.linear 0xFF) [0x55#8]) .command .writeEnabled ∧
      (v 0).link = .reference ∧
      (v 0).injected (encode Config.standard (.pageProgram (.linear 0xFF) [0x55#8])).length = none ∧
      (v 0).dev.pd = false ∧ (v 0).dev.wip = false ∧ (v 0).busyFor = [0] ∧ ready.busyFor = [] ∧
      (v 0).dev.wel = true ∧ launch.dev.wel = false ∧
      programEffect 0xFF [0x55#8] = .program 0xFF [0x55#8] ∧
      programEffect 0xFF [0x55#8, 0x55#8] = .havocPage 0 ∧ programEffect 0xFF [] = .noChange := by
  have hl : launch.dev.Ok Config.standard := Dev.Ok.launch _
  have hw : ({ launch.dev with wel := true } : Dev).Ok Config.standard :=
    ⟨hl.mem, hl.uid, fun h => absurd h (by decide), hl.notBusy, hl.effect⟩
  exact ⟨flying_inv hw (by decide) rfl (by decide) rfl, flying_inv hw (by decide) rfl (by decide) rfl,
    ⟨rfl, rfl, rfl, rfl⟩, rfl, rfl, rfl, rfl, rfl, rfl, rfl, rfl, by decide, by decide, by decide⟩

/-- The last sector, read whole and by its last byte; the last blocks; the whole array, read at the end of
the transmissible window. -/
theorem witness_EraseThenReadReturnsErasedBytes :
    let s := bound { launch with busyFor := [1] }
      [.command (.sectorErase 4095 true), .command (.read (.sectorOff 4095 0) 4096)]
    s.Inv ∧ s.waiting ∧ s.chan ≠ none ∧ s.cfg.hasErase32 = true ∧
      (AddrOperand.sectorOff 4095 0).framable = true ∧
      4095 * 4096 ≤ (AddrOperand.sectorOff 4095 0).address ∧
      (AddrOperand.sectorOff 4095 0).address + 4096 ≤ 4095 * 4096 + 4096 ∧
      (AddrOperand.sectorOff 4095 0).address + 4096 ≤ 0x1000000 ∧
      (AddrOperand.linear 0xFFFFFF).framable = true ∧
      511 * 32768 ≤ (AddrOperand.linear 0xFFFFFF).address ∧
      (AddrOperand.linear 0xFFFFFF).address + 1 ≤ 511 * 32768 + 32768 ∧
      255 * 65536 ≤ (AddrOperand.linear 0xFFFFFF).address ∧
      (AddrOperand.linear 0xFFFFFF).address + 1 ≤ 255 * 65536 + 65536 ∧
      (AddrOperand.linear 0xFFFFFF).address + 1 ≤ 0 + 0x2000000 ∧
      s.env.link = .reference ∧ s.env.failures = [] ∧ s.env.dev.pd = false ∧ s.env.dev.wip = false ∧
      s.env.busyFor = [1] ∧ 1 < s.cfg.pollMax := by
  refine ⟨bound_inv (Dev.Ok.launch _) _, ?_⟩
  decide

/-- One byte at the last address of the window, in both operand forms, landing at once. -/
theorem witness_ProgramThenReadReturnsTheProgrammedBytes :
    let s := bound { launch with busyFor := [0] }
      [.command (.pageProgram (.linear 0xFFFFFF) [0x41#8]), .command (.read (.linear 0xFFFFFF) 1)]
    s.Inv ∧ s.waiting ∧ s.chan ≠ none ∧ (AddrOperand.linear 0xFFFFFF).framable = true ∧
      (AddrOperand.sectorOff 4095 4095).framable = true ∧
      (AddrOperand.sectorOff 4095 4095).address = 0xFFFFFF ∧ 0xFFFFFF % 256 + [0x41#8].length ≤ 256 ∧
      s.env.dev.mem.read 0xFFFFFF = 0xFF#8 ∧ s.env.link = .reference ∧ s.env.failures = [] ∧
      s.env.dev.pd = false ∧ s.env.dev.wip = false ∧ s.env.busyFor = [0] ∧ 0 < s.cfg.pollMax := by
  refine ⟨bound_inv (Dev.Ok.launch _) _, ?_⟩
  decide

end Sys2Proof.Tests
end

section
/-! SUPPORT. Family 40_framing.md: a request in its place sends its frame as one transaction, and a count
other than the frame's length ends it (R134, R135). -/

namespace Sys2Proof.Machine

/-- Wherever a placed request has a frame to send, the next event of its family rule is one transaction
of that frame (30_encoding.md R114, 40_framing.md R132). -/
theorem familyEvent_of_frameAt {i : Instr} {s : State} {buf : List Byte} (hi : i.framable = true)
    (hp : s.placedIn i) (hb : i.frameAt s.cfg s.pos = some buf) :
    ∃ next, familyEvent (ruleOf s.cfg i) s = some (s.txn buf next) := by
  cases hpos : s.pos <;> rw [hpos, Instr.frameAt] at hb <;> cases hb <;>
    rw [State.placedIn, hpos] at hp
  case busyCheck =>
    obtain ⟨hcmd, -⟩ := hp
    exact ⟨_, by rw [familyEvent, hpos]; simp only [ruleOf_busyCheck, hcmd]; rfl⟩
  case writeEnable =>
    obtain ⟨hmut, -⟩ := hp
    exact ⟨_, by rw [familyEvent, hpos]; simp only [ruleOf_writeEnable, hmut]; rfl⟩
  case command =>
    exact ⟨_, by rw [familyEvent, hpos]; simp only [commandEvent, ruleOf_frame hi]; rfl⟩
  case pollRead =>
    obtain ⟨hpolls, -⟩ := hp
    exact ⟨_, by rw [familyEvent, hpos]; simp only [ruleOf_poll, hpolls]; rfl⟩

/-- A request in flight whose next event is the `return` of a response performs it (00_scope.md R14). -/
theorem exec_of_ret {i : Instr} {s : State} {r : Response} {ph : Phase} (hph : ph ≠ .idle)
    (hs : s.standsAt i (.ret r) ph) : exec i s = .next (s.respond r) := by
  obtain ⟨hf, hr, hpos, hphase⟩ := hs
  exact exec_of_inFlight hf (hphase ▸ hph) hr (by rw [familyEvent, hpos])

/-- In a safe state, a request about to send a frame that is answered with another count than the frame's
length puts the return of `TRANSPORT_ERROR` next (40_framing.md R134). -/
theorem exec_of_wrong_count {i : Instr} {s : State} {p : Pos} {ph : Phase} {buf rx : List Byte}
    {cnt : Int} {v : Env} (hi : s.Inv) (hs : s.standsAt i p ph) (hb : i.frameAt s.cfg p = some buf)
    (hx : exchange s.cfg buf s.env = (.answered cnt rx, v)) (hc : cnt ≠ buf.length) :
    ph ≠ .idle ∧ exec i s = .next (({ s with env := v }.log (.xfer s.chan buf cnt rx)).willReturn
      ⟨.transportError, .nothing⟩) := by
  obtain ⟨hf, hr, rfl, rfl⟩ := hs
  obtain ⟨j, hj, -, -, hfr, hplaced⟩ := hi.inFlight hf hr
  cases hj
  have hphase := State.phase_ne_idle_of_placedIn hplaced
  obtain ⟨next, hev⟩ := familyEvent_of_frameAt hfr hplaced hb
  exact ⟨hphase, exec_of_inFlight hf hphase hr (State.txn_failed hx hc ▸ hev)⟩

/-- Settles O17: the failed transaction puts the return of `TRANSPORT_ERROR` next, and the step after it
performs that return. -/
theorem wrongCountEndsInTransportError : Obligations.WrongCountEndsInTransportError := by
  intro i s p ph buf rx cnt v hi hs hb hx hc
  obtain ⟨hph, hstep⟩ := exec_of_wrong_count hi hs hb hx hc
  obtain ⟨hf, hr, -, hphase⟩ := hs
  refine ⟨_, hstep, hphase, ?_⟩
  have hret := exec_of_ret (s := ({ s with env := v }.log (.xfer s.chan buf cnt rx)).willReturn
    ⟨.transportError, .nothing⟩) hph ⟨hf, hr, rfl, hphase⟩
  simpa [State.respond, State.willReturn, State.log] using hret

end Sys2Proof.Machine
end

section
/-! SUPPORT. Family 41_address_decoder.md: at any region size `2 ^ k`, an index and an offset put together
give the address they were taken from, and a region address has its index and offset 0 (R165). -/

namespace Sys2Proof.Machine

/-- The quotient and the remainder of an address by the region size `2 ^ k` give the address. -/
theorem shiftRight_shiftLeft_or_mask (k a : Nat) : a >>> k <<< k ||| a &&& (2 ^ k - 1) = a := by
  rw [Nat.and_two_pow_sub_one_eq_mod, shiftLeft_or_eq_add (Nat.mod_lt a (Nat.two_pow_pos k)),
    Nat.shiftRight_eq_div_pow, Nat.div_add_mod']

/-- The address of a region of size `2 ^ k` is a multiple of the size, so its offset is 0. -/
theorem shiftLeft_and_mask (k n : Nat) : n <<< k &&& (2 ^ k - 1) = 0 := by
  rw [Nat.and_two_pow_sub_one_eq_mod, Nat.shiftLeft_eq, Nat.mul_mod_left]

/-- An offset inside its sector has a linear address (41_address_decoder.md R164). -/
theorem linearOf_of_lt {s off : Nat} (h : off < 4096) : linearOf s off = .ok (s <<< 12 ||| off) := by
  rw [linearOf, if_neg (by omega)]

/-- The offset of an address is inside its sector (41_address_decoder.md R165). -/
theorem sectorOffset_lt (a : Nat) : sectorOffset a < 4096 :=
  Nat.lt_succ_of_le Nat.and_le_right

/-- LINEAR of the sector and offset of an address is the address (41_address_decoder.md R165). -/
theorem linearOf_sectorOf_sectorOffset (a : Nat) : linearOf (sectorOf a) (sectorOffset a) = .ok a := by
  rw [linearOf_of_lt (sectorOffset_lt a)]
  exact congrArg _ (shiftRight_shiftLeft_or_mask 12 a)

/-- Settles O6: each law is the general one for its region size, 2^12, 2^15 or 2^16. -/
theorem addressDecompositionRoundTrips : Obligations.AddressDecompositionRoundTrips :=
  ⟨fun a => ⟨linearOf_sectorOf_sectorOffset a, shiftRight_shiftLeft_or_mask 15 a,
      shiftRight_shiftLeft_or_mask 16 a⟩,
    fun n => ⟨Nat.shiftLeft_shiftRight n 12, shiftLeft_and_mask 12 n,
      Nat.shiftLeft_shiftRight n 15, shiftLeft_and_mask 15 n,
      Nat.shiftLeft_shiftRight n 16, shiftLeft_and_mask 16 n⟩⟩

end Sys2Proof.Machine
end

section
/-! SUPPORT. Family 46_page_program.md: a busy pre-check ends PAGE_PROGRAM (R262). -/

namespace Sys2Proof.Machine

/-- A request that can be framed has no overlong payload (46_page_program.md R261). -/
theorem tooLong_of_framable {i : Instr} (h : i.framable = true) : i.tooLong = false := by
  cases i
  case pageProgram x d =>
    obtain ⟨-, hd⟩ : x.framable = true ∧ d.length ≤ Config.pageSize := by
      simpa [Instr.framable] using h
    simpa [Instr.tooLong, Config.pageSize] using hd
  all_goals rfl

/-- A bound, idle block accepts a request that can be framed and is not absent, with the first event of
its family rule next (40_framing.md R130). -/
theorem exec_accepts {i : Instr} {s : State} (hw : s.waiting) (hc : s.chan ≠ none)
    (ha : i.absentIn s.cfg = false) (hi : i.framable = true) :
    exec i s = .next { s with
      req := some (.command i), phase := .accepted, pos := (ruleOf s.cfg i).start } := by
  obtain ⟨hf, hp, -, -⟩ := hw
  rw [exec_of_idle hf hp]
  simp [accept, hc, ruleOf_absent, ha, ruleOf_frame hi, tooLong_of_framable hi]

/-- The status frame is the opcode 0x05 and one pad byte (42_status_id.md R180). -/
theorem statusFrame_eq (c : Config) : statusFrame c = [0x05#8, c.padByte] := rfl

/-- A request in flight that will return a response returns it (00_scope.md R14). -/
theorem exec_willReturn {i : Instr} {s : State} {r : Response} (hf : s.faults = [])
    (hr : s.req = some (.command i)) (hph : s.phase ≠ .idle) :
    exec i (s.willReturn r) = .next (s.respond r) :=
  exec_of_ret (s := s.willReturn r) hph ⟨hf, hr, rfl, rfl⟩

/-- A busy pre-check that reads a busy status puts the return of `DEVICE_BUSY` next
(46_page_program.md R262). -/
theorem busyCheckEvent_of_busy {s : State} {rx : List Byte} {v : Env}
    (hx : exchange s.cfg (statusFrame s.cfg) s.env = (.answered 2 rx, v))
    (hb : busy (byteAt rx 1) = true) :
    busyCheckEvent s = ({ s with env := v }.log (.xfer s.chan (statusFrame s.cfg) 2 rx)).willReturn
      ⟨.deviceBusy, .nothing⟩ :=
  (State.txn_ok hx).trans (if_pos hb)

/-- PAGE_PROGRAM at its busy pre-check sends the status frame; a busy answer puts the return of
`DEVICE_BUSY` next (46_page_program.md R262). -/
theorem exec_of_busyCheck_busy {x : AddrOperand} {d : List Byte} {s : State} {ph : Phase}
    {rx : List Byte} {v : Env} (hph : ph ≠ .idle) (hs : s.standsAt (.pageProgram x d) .busyCheck ph)
    (hx : exchange s.cfg (statusFrame s.cfg) s.env = (.answered 2 rx, v))
    (hb : busy (byteAt rx 1) = true) :
    exec (.pageProgram x d) s = .next (({ s with env := v }.log
      (.xfer s.chan (statusFrame s.cfg) 2 rx)).willReturn ⟨.deviceBusy, .nothing⟩) := by
  obtain ⟨hf, hr, hpos, rfl⟩ := hs
  rw [← busyCheckEvent_of_busy hx hb]
  exact exec_of_inFlight hf hph hr (by rw [familyEvent, hpos]; rfl)

/-- Settles O29: the request is accepted, its status frame is answered busy, and `DEVICE_BUSY` is
returned. Bit 1 of the status is in no hypothesis: WEL plays no part. -/
theorem busyPreCheckEndsInDeviceBusy : Obligations.BusyPreCheckEndsInDeviceBusy := by
  intro x d s ch rx v hw hc hx hd hxfer hb
  have hfr : (Instr.pageProgram x d).framable = true := by
    simp [Instr.framable, hx, hd, Config.pageSize]
  have haccept := exec_accepts hw (by simp [hc]) rfl hfr
  obtain ⟨hf, hp, hr, hpos⟩ := hw
  have hph : Phase.accepted ≠ .idle := by decide
  refine ⟨_, _, haccept, exec_of_busyCheck_busy hph ⟨hf, rfl, rfl, rfl⟩ hxfer hb, ?_⟩
  rw [exec_willReturn]
  · simp [State.respond, State.log, statusFrame_eq, hc, hp, hr, hpos]
  · exact hf
  · rfl
  · exact hph

end Sys2Proof.Machine
end

section
/-! SUPPORT. 30_encoding.md: for each format, parsing the bytes after the opcode inverts laying them out, in
both directions; with it the decoder and the encoder invert each other. -/

namespace Sys2Proof

/-- The fields that a frame of each format carries, with their bounds (30_encoding.md R101, R103, R108). -/
def Format.Carries (f : FrameFields) : Format → Prop
  | .op | .opRx1 | .opRx3 | .opRsvRx => f = {}
  | .addr => f = { addr := f.addr } ∧ f.addr < Config.addrTxLimit
  | .addrRx | .addrDummyRx =>
    f = { addr := f.addr, readLen := f.readLen } ∧ f.addr < Config.addrTxLimit
  | .addrTx =>
    f = { addr := f.addr, payload := f.payload } ∧ f.addr < Config.addrTxLimit ∧
      f.payload.length ≤ Config.pageSize

/-- Parsing reads back the fields that were laid out. -/
theorem Format.parse_layout (c : Config) {fmt : Format} {f : FrameFields} (h : fmt.Carries f) :
    fmt.parse c (fmt.layout c f) = some f := by
  obtain ⟨a, n, p⟩ := f
  cases fmt <;> simp only [Format.Carries, FrameFields.mk.injEq, true_and, and_true] at h
  case op | opRx1 | opRx3 | opRsvRx =>
    obtain ⟨rfl, rfl, rfl⟩ := h
    simp [Format.parse, Format.layout, pad_append]
  case addr =>
    obtain ⟨⟨rfl, rfl⟩, ha⟩ := h
    simp [Format.parse, Format.layout, addrBytes, ofAddrBytes_addrBytes ha]
  case addrRx =>
    obtain ⟨rfl, ha⟩ := h
    simp [Format.parse, Format.layout, addrBytes, ofAddrBytes_addrBytes ha]
  case addrDummyRx =>
    obtain ⟨rfl, ha⟩ := h
    simp [Format.parse, Format.layout, addrBytes, ofAddrBytes_addrBytes ha, pad, List.replicate_succ]
  case addrTx =>
    obtain ⟨rfl, ha, hp⟩ := h
    simp [Format.parse, Format.layout, addrBytes, ofAddrBytes_addrBytes ha, hp]

/-- Bytes that parse are the layout of their fields. -/
theorem Format.layout_of_parse {c : Config} {fmt : Format} {rest : List Byte} {f : FrameFields}
    (h : fmt.parse c rest = some f) : fmt.Carries f ∧ fmt.layout c f = rest := by
  unfold Format.parse at h
  split at h <;> try cases h
  case h_1 | h_2 | h_3 | h_4 =>
    split at h <;> cases h
    simp_all [Format.Carries, Format.layout, pad_append]
  case h_5 b1 b2 b3 =>
    exact ⟨⟨rfl, ofAddrBytes_lt b1 b2 b3⟩, addrBytes_ofAddrBytes b1 b2 b3⟩
  case h_7 b1 b2 b3 t =>
    split at h <;> cases h
    rename_i hpad
    refine ⟨⟨rfl, ofAddrBytes_lt b1 b2 b3⟩, ?_⟩
    rw [Format.layout, addrBytes_ofAddrBytes, ← hpad]
    rfl
  case h_9 b1 b2 b3 d t =>
    split at h <;> cases h
    rename_i hpad
    refine ⟨⟨rfl, ofAddrBytes_lt b1 b2 b3⟩, ?_⟩
    rw [Format.layout, addrBytes_ofAddrBytes, List.append_assoc, pad_append, Nat.add_comm, ← hpad]
    rfl
  case h_11 b1 b2 b3 t =>
    split at h <;> cases h
    exact ⟨⟨rfl, ofAddrBytes_lt b1 b2 b3, ‹_›⟩, by rw [Format.layout, addrBytes_ofAddrBytes]; rfl⟩

/-- The index of an erase is read back from the address of its region (30_encoding.md R110). -/
theorem eraseIndex_shiftLeft (k : Command) (shift n : Nat) :
    eraseIndex k shift (n <<< shift) = .ok n := by
  rw [eraseIndex, if_pos (by rw [Nat.shiftLeft_eq, Nat.mul_mod_left]), Nat.shiftLeft_shiftRight]

/-- An erase address with an index is the address of that region. -/
theorem shiftLeft_of_eraseIndex {k : Command} {shift a n : Nat} (h : eraseIndex k shift a = .ok n) :
    n <<< shift = a := by
  unfold eraseIndex at h
  split at h <;> cases h
  rw [Nat.shiftLeft_eq, Nat.shiftRight_eq_div_pow, Nat.div_mul_cancel (Nat.dvd_of_mod_eq_zero ‹_›)]

/-- The fields of a request that can be framed are those its command's format carries. -/
theorem Instr.carries_fields {i : Instr} (h : i.framable = true) :
    i.toCommand.format.Carries i.fields := by
  cases i <;> try rfl
  case read x n | fastRead x n => exact ⟨rfl, Machine.address_lt h⟩
  case pageProgram x d =>
    simp only [Instr.framable, Bool.and_eq_true, decide_eq_true_eq] at h
    exact ⟨rfl, Machine.address_lt h.1, h.2⟩
  case sectorErase n w | blockErase32K n w | blockErase64K n w =>
    simp only [Instr.framable, decide_eq_true_eq] at h
    refine ⟨rfl, ?_⟩
    simp only [Instr.fields, Nat.shiftLeft_eq, Config.addrTxLimit]
    omega

/-- The command and the fields of a request give it back, up to what no frame carries. -/
theorem Command.request_fields (i : Instr) : i.toCommand.request i.fields = .ok i.onWire := by
  cases i <;> try rfl
  case sectorErase n w | blockErase32K n w | blockErase64K n w =>
    simp only [Instr.toCommand, Command.request, Instr.fields, eraseIndex_shiftLeft]
    rfl

/-- The request of an erase frame has the index whose region begins at the frame's address. -/
theorem eraseIndex_map_ok {k : Command} {shift a : Nat} {g : Nat → Instr} {i : Instr}
    (h : (eraseIndex k shift a).map g = .ok i) : ∃ n, n <<< shift = a ∧ g n = i := by
  cases he : eraseIndex k shift a with
  | error e => rw [he] at h; cases h
  | ok n =>
    rw [he] at h
    exact ⟨n, shiftLeft_of_eraseIndex he, Except.ok.inj h⟩

/-- What a command and fields of its format stand for has that command and those fields, can be framed,
and has only what a frame carries. -/
theorem Command.of_request {k : Command} {f : FrameFields} {i : Instr} (hc : k.format.Carries f)
    (h : k.request f = .ok i) :
    i.toCommand = k ∧ i.fields = f ∧ i.framable = true ∧ i.onWire = i := by
  cases k
  case readStatus | readJedecId | readUniqueId | writeEnable | writeDisable | chipErase | deepPowerDown =>
    cases h
    exact ⟨rfl, hc.symm, rfl, rfl⟩
  case read | fastRead =>
    cases h
    exact ⟨rfl, hc.1.symm, decide_eq_true hc.2, rfl⟩
  case pageProgram =>
    cases h
    obtain ⟨hf, ha, hp⟩ := hc
    exact ⟨rfl, hf.symm, by simp [Instr.framable, AddrOperand.framable, ha, hp], rfl⟩
  case sectorErase | blockErase32K | blockErase64K =>
    obtain ⟨n, hn, rfl⟩ := eraseIndex_map_ok h
    obtain ⟨hf, ha⟩ := hc
    refine ⟨rfl, by rw [hf]; exact congrArg (fun a => ({ addr := a } : FrameFields)) hn, ?_, rfl⟩
    rw [← hn, Nat.shiftLeft_eq, Config.addrTxLimit] at ha
    simp only [Instr.framable, decide_eq_true_eq]
    omega

/-- The frame of a request that can be framed decodes to the request, up to what no frame carries. -/
theorem decode_encode (c : Config) {i : Instr} (h : i.framable = true) :
    decode c (encode c i) = .ok i.onWire := by
  simp only [decode, encode, Command.ofOpcode?_opcode, Format.parse_layout c (Instr.carries_fields h),
    Command.request_fields]

/-- Settles O3: the opcode tells the command, and parsing inverts the layout of its format. -/
theorem decodeOfEncodeGivesTheRequest : Obligations.DecodeOfEncodeGivesTheRequest := by
  intro c i h
  exact ⟨decode_encode c h, fun hw => (decode_encode c h).trans (congrArg _ hw)⟩

/-- What the decoder accepts is the opcode of a command, then bytes of its format, which stand for the
request it answers. -/
theorem decode_ok {c : Config} {b : List Byte} {i : Instr} (h : decode c b = .ok i) :
    ∃ (k : Command) (rest : List Byte) (f : FrameFields), b = k.opcode :: rest ∧
      k.format.parse c rest = some f ∧ k.request f = .ok i := by
  cases b with
  | nil => cases h
  | cons b rest =>
    simp only [decode] at h
    split at h
    · cases h
    · rename_i k hk
      split at h
      · cases h
      · rename_i f hf
        exact ⟨k, rest, f, by rw [Command.opcode_of_ofOpcode? hk], hf, h⟩

/-- Settles O4: bytes that parse are the layout of their fields, and the request they stand for has those
fields. -/
theorem encodeOfDecodeGivesTheFrame : Obligations.EncodeOfDecodeGivesTheFrame := by
  intro c b i h
  obtain ⟨k, rest, f, rfl, hparse, hreq⟩ := decode_ok h
  obtain ⟨hcar, hlay⟩ := Format.layout_of_parse hparse
  obtain ⟨rfl, rfl, hfr, hw⟩ := Command.of_request hcar hreq
  exact ⟨congrArg _ hlay, hfr, hw⟩

/-- Settles O1: an opcode tells its command, and a byte that tells one is one of the 13 opcodes. -/
theorem opcodeMapIsExactlyThirteenCommands : Obligations.OpcodeMapIsExactlyThirteenCommands := by
  refine ⟨Command.ofOpcode?_opcode, fun b => ⟨fun h => ?_, fun h => ?_⟩⟩
  · obtain ⟨k, hk⟩ := Option.isSome_iff_exists.1 h
    rw [Command.opcode_of_ofOpcode? hk]
    cases k <;> decide
  · have hall : ∀ n ∈ [0x05, 0x9F, 0x4B, 0x03, 0x0B, 0x06, 0x04, 0x02, 0x20, 0x52, 0xD8, 0xC7, 0xB9],
        (Command.ofOpcode? (BitVec.ofNat 8 n)).isSome = true := by decide
    simpa using hall b.toNat h

/-- Settles O2: each frame is decoded by evaluation. -/
theorem writtenFramesDecodeToTheirCommands : Obligations.WrittenFramesDecodeToTheirCommands := by
  refine ⟨?_, ?_, ?_, ?_, ?_, ?_, ?_, ?_⟩ <;> decide

end Sys2Proof
end

section
/-! SUPPORT. 41_address_decoder.md and 70_reset_and_hazards.md: the two requests that are carried out in
their acceptance step, DECODE and BEGIN. -/

namespace Sys2Proof.Machine

/-- A request carried out at once, from a waiting block. -/
theorem atOnce_of_waiting {q : Request} {f : State → State} {s : State} (hw : s.waiting) :
    atOnce q f s = .next (f { s with req := some q }) := by
  obtain ⟨hf, hp, -, -⟩ := hw
  rw [atOnce, unlessStopped_nil hf, if_pos hp]

/-- A waiting block that latched a request and returns from it differs from before by its response. -/
theorem State.respond_of_waiting {s : State} (hw : s.waiting) (q : Option Request) (r : Response) :
    ({ s with req := q }.respond r) =
      { s with resp := some r, trace := s.trace ++ [.response r] } := by
  obtain ⟨-, hp, hr, hpos⟩ := hw
  cases s
  simp_all [State.respond, State.log]

/-- Recording a mark in a state without one. -/
theorem State.raise_of_unmarked {s : State} (hf : s.faults = []) (m : Mark) :
    s.raise m = { s with faults := [m], trace := s.trace ++ [.stopped m] } := by
  simp [State.raise, State.log, hf]

/-- The decoder computes the number its query names, by multiplication and division (41_address_decoder.md
R161 to R164). -/
theorem decoderValue_of_offset {q : DecodeQuery} (h : q.offsetBad = false) :
    decoderValue q = .ok q.number := by
  cases q
  case sectorAddr n | block32Addr n | block64Addr n => exact congrArg _ (Nat.shiftLeft_eq n _)
  case sectorOf a | block32Of a | block64Of a => exact congrArg _ (Nat.shiftRight_eq_div_pow a _)
  case sectorOffset a => exact congrArg _ (Nat.and_two_pow_sub_one_eq_mod a 12)
  case block32Offset a => exact congrArg _ (Nat.and_two_pow_sub_one_eq_mod a 15)
  case block64Offset a => exact congrArg _ (Nat.and_two_pow_sub_one_eq_mod a 16)
  case linear n o =>
    simp only [DecodeQuery.offsetBad, decide_eq_false_iff_not, not_le] at h
    rw [decoderValue, linearOf_of_lt h, shiftLeft_or_eq_add (k := 12) h]
    rfl

/-- LINEAR with an offset of 4096 or more has no number (41_address_decoder.md R164). -/
theorem decoderValue_of_bad_offset {q : DecodeQuery} (h : q.offsetBad = true) :
    decoderValue q = .error .offsetRange := by
  cases q <;> simp only [DecodeQuery.offsetBad, decide_eq_true_eq, Bool.false_eq_true] at h
  exact if_pos h

/-- Settles O8: the query's number is computed and returned, or its offset faults. -/
theorem decodeRequestsAnswerTheirNumber : Obligations.DecodeRequestsAnswerTheirNumber := by
  intro s q hw
  rw [execDecode, atOnce_of_waiting hw]
  refine ⟨fun h => ?_, fun h => ?_⟩
  · rw [State.answerQuery, decoderValue_of_offset h]
    exact congrArg _ (State.respond_of_waiting hw _ _)
  · rw [State.answerQuery, decoderValue_of_bad_offset h]
    exact congrArg _ (State.raise_of_unmarked (s := { s with req := some (.decode q) }) hw.1 _)

/-- Settles O9: BEGIN looks at the channel alone. -/
theorem beginBindsTheChannelOnce : Obligations.BeginBindsTheChannelOnce := by
  intro s ch hw
  rw [execBegin, atOnce_of_waiting hw]
  refine ⟨fun hc => ?_, fun hc => ?_⟩
  · rw [State.bindChannel, if_pos hc]
    exact congrArg _ (State.respond_of_waiting (s := { s with chan := some ch }) hw _ _)
  · rw [State.bindChannel, if_neg hc]
    exact congrArg _ (State.raise_of_unmarked (s := { s with req := some (.beginOn ch) }) hw.1 _)

/-- Settles O7: the nesting is division in two steps, and the bounds are multiplication. -/
theorem eraseGranularitiesNest : Obligations.EraseGranularitiesNest := by
  refine ⟨fun a => ⟨?_, ?_⟩, fun n => ?_⟩
  · exact Nat.shiftRight_add a 12 3
  · exact Nat.shiftRight_add a 15 1
  · simp only [block32Addr, block64Addr, sectorAddr, Nat.shiftLeft_eq, Nat.shiftRight_eq_div_pow]
    omega

end Sys2Proof.Machine
end

section
/-! SUPPORT. 40_framing.md R130, R136: which of a request's frame, `OFFSET_RANGE` and `ADDR_RANGE` its
family rule gives, and what acceptance makes of it. -/

namespace Sys2Proof

/-- The operand has an offset of 4096 or more (41_address_decoder.md R164). -/
def AddrOperand.offsetBad : AddrOperand → Bool
  | .linear _ => false
  | .sectorOff _ o => decide (4096 ≤ o)

@[simp] theorem Instr.read_offsetBad (x : AddrOperand) (n : Nat) :
    (Instr.read x n).offsetBad = x.offsetBad := by cases x <;> rfl

@[simp] theorem Instr.fastRead_offsetBad (x : AddrOperand) (n : Nat) :
    (Instr.fastRead x n).offsetBad = x.offsetBad := by cases x <;> rfl

@[simp] theorem Instr.pageProgram_offsetBad (x : AddrOperand) (d : List Byte) :
    (Instr.pageProgram x d).offsetBad = x.offsetBad := by cases x <;> rfl

/-- An operand can be framed if its offset and its address are in range. -/
theorem AddrOperand.framable_iff (x : AddrOperand) :
    x.framable = true ↔ x.offsetBad = false ∧ x.address < Config.addrTxLimit := by
  cases x with
  | linear a => simp [framable, offsetBad, address]
  | sectorOff s o =>
    simp only [framable, offsetBad, address, Bool.and_eq_true, decide_eq_true_eq,
      decide_eq_false_iff_not, not_le, Config.addrTxLimit]
    refine and_congr_right fun ho => ?_
    rw [shiftLeft_or_eq_add (k := 12) ho]
    omega

/-- A request can be framed if acceptance finds no fault in its operands and no overlong payload. -/
theorem Instr.framable_iff (i : Instr) :
    i.framable = true ↔ i.offsetBad = false ∧ i.addrBad = false ∧ i.tooLong = false := by
  cases i
  case read x n | fastRead x n =>
    simp [framable, addrBad, tooLong, x.framable_iff]
  case pageProgram x d =>
    rw [framable, Bool.and_eq_true, decide_eq_true_eq, x.framable_iff]
    simp [addrBad, tooLong, Config.pageSize, and_assoc]
  case sectorErase n w | blockErase32K n w | blockErase64K n w =>
    simp [framable, offsetBad, addrBad, tooLong, Nat.shiftLeft_eq, Config.addrTxLimit]
    omega
  all_goals simp [framable, offsetBad, addrBad, tooLong]

end Sys2Proof

namespace Sys2Proof.Machine

theorem operandField_of_offsetBad {x : AddrOperand} (h : x.offsetBad = true) :
    operandField x = .error .offsetRange := by
  cases x with
  | linear a => cases h
  | sectorOff s o => exact operandField_of_bad_offset (of_decide_eq_true h)

theorem operandField_of_address_ge {x : AddrOperand} (ho : x.offsetBad = false)
    (ha : Config.addrTxLimit ≤ x.address) : operandField x = .error .addrRange := by
  cases x with
  | linear a => exact addr24_of_ge ha
  | sectorOff s o =>
    rw [operandField_of_offset (Nat.lt_of_not_le (of_decide_eq_false ho))]
    exact addr24_of_ge ha

/-- An offset out of range is the fault of the frame (41_address_decoder.md R164). -/
theorem ruleOf_frame_of_offsetBad (c : Config) {i : Instr} (h : i.offsetBad = true) :
    (ruleOf c i).frame = .error .offsetRange := by
  cases i
  case read x n => rw [ruleOf, readRule, operandField_of_offsetBad (by simpa using h)]; rfl
  case fastRead x n => rw [ruleOf, fastReadRule, operandField_of_offsetBad (by simpa using h)]; rfl
  case pageProgram x d => rw [ruleOf, pageProgramRule, operandField_of_offsetBad (by simpa using h)]; rfl
  all_goals cases h

/-- With the offset in range, an address out of range is the fault of the frame (30_encoding.md R103). -/
theorem ruleOf_frame_of_addrBad (c : Config) {i : Instr} (ho : i.offsetBad = false)
    (h : i.addrBad = true) : (ruleOf c i).frame = .error .addrRange := by
  cases i
  case read x n =>
    rw [ruleOf, readRule, operandField_of_address_ge (by simpa using ho) (of_decide_eq_true h)]; rfl
  case fastRead x n =>
    rw [ruleOf, fastReadRule, operandField_of_address_ge (by simpa using ho) (of_decide_eq_true h)]; rfl
  case pageProgram x d =>
    rw [ruleOf, pageProgramRule, operandField_of_address_ge (by simpa using ho) (of_decide_eq_true h)]; rfl
  case sectorErase n w =>
    rw [ruleOf, sectorEraseRule, eraseSeq, sectorAddr, addr24_of_ge (of_decide_eq_true h)]; rfl
  case blockErase32K n w =>
    rw [ruleOf, blockErase32KRule, eraseSeq, block32Addr, addr24_of_ge (of_decide_eq_true h)]; rfl
  case blockErase64K n w =>
    rw [ruleOf, blockErase64KRule, eraseSeq, block64Addr, addr24_of_ge (of_decide_eq_true h)]; rfl
  all_goals cases h

/-- With offset and address in range, the frame is the one of the format table (30_encoding.md R101). -/
theorem ruleOf_frame_of_inRange (c : Config) {i : Instr} (ho : i.offsetBad = false)
    (ha : i.addrBad = false) : (ruleOf c i).frame = .ok (encode c i) := by
  cases ht : i.tooLong with
  | false => exact ruleOf_frame (i.framable_iff.2 ⟨ho, ha, ht⟩)
  | true =>
    cases i <;> try cases ht
    case pageProgram x d =>
      have hx : x.framable = true :=
        x.framable_iff.2 ⟨by simpa using ho, Nat.lt_of_not_le (of_decide_eq_false ha)⟩
      rw [ruleOf, pageProgramRule, operandField_of_framable hx]
      rfl

/-- A family rule that gives a frame gives the one of the format table. -/
theorem ruleOf_frame_ok {c : Config} {i : Instr} {buf : List Byte} (h : (ruleOf c i).frame = .ok buf) :
    buf = encode c i := by
  cases ho : i.offsetBad with
  | true => rw [ruleOf_frame_of_offsetBad c ho] at h; cases h
  | false =>
    cases ha : i.addrBad with
    | true => rw [ruleOf_frame_of_addrBad c ho ha] at h; cases h
    | false => exact Except.ok.inj (h.symm.trans (ruleOf_frame_of_inRange c ho ha))

/-- Settles O5: the three cases of the frame. -/
theorem familyFramesFollowTheFormatTable : Obligations.FamilyFramesFollowTheFormatTable :=
  fun c _ => ⟨ruleOf_frame_of_offsetBad c, ruleOf_frame_of_addrBad c, ruleOf_frame_of_inRange c⟩

/-- Settles O10: acceptance makes its checks in this order, each on its own part of the request. -/
theorem acceptanceDecidesInPriorityOrder : Obligations.AcceptanceDecidesInPriorityOrder := by
  intro i s hw
  obtain ⟨hf, hp, hr, hpos⟩ := id hw
  rw [exec_of_idle hf hp]
  congr 1
  by_cases hc : s.chan = none
  · simp [accept, hc, State.raise_of_unmarked, hf]
  rw [accept, if_neg hc, if_neg hc, ruleOf_absent]
  cases habs : i.absentIn s.cfg with
  | true => simp [State.raise_of_unmarked, hf]
  | false =>
    cases ho : i.offsetBad with
    | true => simp [ruleOf_frame_of_offsetBad s.cfg ho, State.raise_of_unmarked, hf]
    | false =>
      cases ha : i.addrBad with
      | true => simp [ruleOf_frame_of_addrBad s.cfg ho ha, State.raise_of_unmarked, hf]
      | false =>
        cases ht : i.tooLong with
        | true =>
          simp [ruleOf_frame_of_inRange s.cfg ho ha, ht, State.abort, State.respond, State.log, hp, hr,
            hpos]
        | false => simp [ruleOf_frame_of_inRange s.cfg ho ha, ht, ruleOf_start]

/-- Settles O28: the length is the last check of acceptance. -/
theorem overlongProgramEndsInInvalidLength : Obligations.OverlongProgramEndsInInvalidLength := by
  intro x d s hw hc hx hd
  obtain ⟨ho, ha⟩ := x.framable_iff.1 hx
  rw [acceptanceDecidesInPriorityOrder _ _ hw]
  simp [hc, Instr.absentIn, ho, Instr.addrBad, Nat.not_le.2 ha, Instr.tooLong, hd]

/-- Every request whose operand is out of range faults at acceptance (60_exceptions.md R325). -/
theorem addressFaults_all (i : Instr) : addressFaults i := by
  intro s hw hc habs
  rw [acceptanceDecidesInPriorityOrder _ _ hw]
  exact ⟨fun ho => by simp [hc, habs, ho], fun ho ha => by simp [hc, habs, ho, ha]⟩

/-- Without a channel, a request that emits a command records `UNBOUND` (40_framing.md R130). -/
theorem exec_of_unbound {i : Instr} {s : State} (hw : s.waiting) (hc : s.chan = none) :
    exec i s = .next { s with
      req := some (.command i)
      faults := [.fault .unbound]
      trace := s.trace ++ [.stopped (.fault .unbound)] } := by
  rw [acceptanceDecidesInPriorityOrder _ _ hw, if_pos hc]

end Sys2Proof.Machine
end

section
/-! SUPPORT. 40_framing.md R132, R134, 10_state.md R32, R40: what a request does at each position of its
family rule, and with it the inversion of `exec` and `perform` that every later proof about a step cites. -/

namespace Sys2Proof

open Machine

/-- Whether a request's family rule has an event at the position that sends a frame (30_encoding.md
R114). -/
def Instr.sendsAt (i : Instr) : Pos → Bool
  | .busyCheck => decide (i.toCommand = .pageProgram)
  | .writeEnable => i.toCommand.mutating
  | .command => true
  | .pollRead => i.polls
  | .idle | .pollDelay | .ret _ => false

/-- The phase after a frame at the position was answered in full with `rx` (10_state.md R32). -/
def Instr.phaseAfter (rx : List Byte) (ph : Phase) : Pos → Phase
  | .busyCheck => if busy (byteAt rx 1) then ph else .busyChecked
  | .writeEnable => .writeEnabled
  | .command => .commandIssued
  | .pollRead => if busy (byteAt rx 1) then .polling else ph
  | .idle | .pollDelay | .ret _ => ph

/-- The busy reads counted after a frame at the position was answered in full with `rx` (45_busy_poller.md
R230). -/
def Instr.pollsAfter (rx : List Byte) (n : Nat) (i : Instr) : Pos → Nat
  | .command => if i.polls then 0 else n
  | .pollRead => if busy (byteAt rx 1) then n + 1 else n
  | .idle | .busyCheck | .writeEnable | .pollDelay | .ret _ => n

/-- The next position after a frame at the position was answered in full with `rx`, with `n` busy reads
counted before it (10_state.md R40). -/
def Instr.posAfter (c : Config) (rx : List Byte) (n : Nat) (i : Instr) : Pos → Pos
  | .busyCheck => if busy (byteAt rx 1) then .ret ⟨.deviceBusy, .nothing⟩ else .writeEnable
  | .writeEnable => .command
  | .command => if i.polls then .pollRead else .ret ⟨.ok, (ruleOf c i).data rx⟩
  | .pollRead =>
    if busy (byteAt rx 1) then
      if c.pollMax ≤ n + 1 then .ret ⟨.pollTimeout, .nothing⟩ else .pollDelay
    else .ret ⟨.ok, i.keeps c []⟩
  | .idle => .idle
  | .pollDelay => .pollDelay
  | .ret r => .ret r

/-- What a request makes of a frame that was answered in full at the position `p`. -/
def Instr.afterAnswer (i : Instr) (p : Pos) (rx : List Byte) (t : State) : State :=
  { t with
    phase := Instr.phaseAfter rx t.phase p
    polls := i.pollsAfter rx t.polls p
    pos := i.posAfter t.cfg rx t.polls p }

section

variable (i : Instr) (p : Pos) (rx : List Byte) (t : State)

@[simp] theorem Instr.afterAnswer_cfg : (i.afterAnswer p rx t).cfg = t.cfg := rfl
@[simp] theorem Instr.afterAnswer_chan : (i.afterAnswer p rx t).chan = t.chan := rfl
@[simp] theorem Instr.afterAnswer_phase :
    (i.afterAnswer p rx t).phase = Instr.phaseAfter rx t.phase p := rfl
@[simp] theorem Instr.afterAnswer_req : (i.afterAnswer p rx t).req = t.req := rfl
@[simp] theorem Instr.afterAnswer_polls :
    (i.afterAnswer p rx t).polls = i.pollsAfter rx t.polls p := rfl
@[simp] theorem Instr.afterAnswer_resp : (i.afterAnswer p rx t).resp = t.resp := rfl
@[simp] theorem Instr.afterAnswer_faults : (i.afterAnswer p rx t).faults = t.faults := rfl
@[simp] theorem Instr.afterAnswer_pos :
    (i.afterAnswer p rx t).pos = i.posAfter t.cfg rx t.polls p := rfl
@[simp] theorem Instr.afterAnswer_host : (i.afterAnswer p rx t).host = t.host := rfl
@[simp] theorem Instr.afterAnswer_trace : (i.afterAnswer p rx t).trace = t.trace := rfl
@[simp] theorem Instr.afterAnswer_env : (i.afterAnswer p rx t).env = t.env := rfl

end

end Sys2Proof

namespace Sys2Proof.Machine

/-! ## The events of a family rule -/

/-- A transaction depends on what follows it only in states of the same configuration. -/
theorem State.txn_congr {buf : List Byte} {next next' : List Byte → State → State} {s : State}
    (h : ∀ rx t, t.cfg = s.cfg → next rx t = next' rx t) : s.txn buf next = s.txn buf next' := by
  unfold State.txn
  split
  · rfl
  · simp only
    split
    · exact h _ _ rfl
    · rfl

theorem busyCheckEvent_eq (i : Instr) (s : State) :
    busyCheckEvent s = s.txn (statusFrame s.cfg) (i.afterAnswer .busyCheck) :=
  State.txn_congr fun rx t _ => by
    cases h : busy (byteAt rx 1) <;>
      simp [Instr.afterAnswer, Instr.phaseAfter, Instr.pollsAfter, Instr.posAfter, State.willReturn, h]

theorem writeEnableEvent_eq (i : Instr) (s : State) :
    writeEnableEvent s = s.txn wrenFrame (i.afterAnswer .writeEnable) := rfl

theorem commandEvent_eq {i : Instr} {s : State} {buf : List Byte}
    (h : (ruleOf s.cfg i).frame = .ok buf) :
    commandEvent (ruleOf s.cfg i) s = s.txn buf (i.afterAnswer .command) := by
  rw [commandEvent, h]
  refine State.txn_congr fun rx t ht => ?_
  cases hp : i.polls <;>
    simp [Instr.afterAnswer, Instr.phaseAfter, Instr.pollsAfter, Instr.posAfter, State.willReturn, hp, ht]

theorem pollReadEvent_eq (i : Instr) (k : PollKind) (s : State) :
    pollReadEvent (k, i.keeps s.cfg []) s = s.txn (statusFrame s.cfg) (i.afterAnswer .pollRead) := by
  refine State.txn_congr fun rx t ht => ?_
  cases h : busy (byteAt rx 1) with
  | false =>
    simp [Instr.afterAnswer, Instr.phaseAfter, Instr.pollsAfter, Instr.posAfter, State.willReturn, h, ht]
  | true =>
    by_cases hm : s.cfg.pollMax ≤ t.polls + 1 <;>
      simp [Instr.afterAnswer, Instr.phaseAfter, Instr.pollsAfter, Instr.posAfter, State.willReturn, h,
        ht, hm]

/-- At a position where a request sends a frame, the next event of its family rule is one transaction of
that frame, and after it what the position says (30_encoding.md R114). -/
theorem familyEvent_of_sendsAt {i : Instr} {s : State} {buf : List Byte} (hs : i.sendsAt s.pos = true)
    (hb : i.frameAt s.cfg s.pos = some buf)
    (hc : s.pos = .command → (ruleOf s.cfg i).frame = .ok buf) :
    familyEvent (ruleOf s.cfg i) s = some (s.txn buf (i.afterAnswer s.pos)) := by
  cases hpos : s.pos <;> rw [hpos] at hs hb hc <;> cases hb
  case busyCheck =>
    rw [← statusFrame_eq, ← busyCheckEvent_eq, familyEvent, hpos]
    exact if_pos ((ruleOf_busyCheck s.cfg i).trans hs)
  case writeEnable =>
    rw [familyEvent, hpos]
    exact if_pos ((ruleOf_writeEnable s.cfg i).trans hs)
  case command => rw [familyEvent, hpos]; exact congrArg some (commandEvent_eq (hc rfl))
  case pollRead =>
    have hs : i.polls = true := hs
    rw [← statusFrame_eq, ← pollReadEvent_eq i i.pollKind, familyEvent, hpos]
    simp [hs]

/-- A request in flight at a position where it sends a frame performs that transaction. -/
theorem exec_txn {i : Instr} {s : State} {p : Pos} {ph : Phase} {buf : List Byte}
    (hat : s.standsAt i p ph) (hph : ph ≠ .idle) (hs : i.sendsAt p = true)
    (hb : i.frameAt s.cfg p = some buf) (hi : p = .command → i.framable = true) :
    exec i s = .next (s.txn buf (i.afterAnswer p)) := by
  obtain ⟨hf, hr, rfl, rfl⟩ := hat
  refine exec_of_inFlight hf hph hr (familyEvent_of_sendsAt hs hb fun hpos => ?_)
  rw [hpos] at hb
  cases hb
  exact ruleOf_frame (hi hpos)

/-- The same where the frame is answered in full. -/
theorem exec_answered {i : Instr} {s : State} {p : Pos} {ph : Phase} {buf rx : List Byte} {v : Env}
    (hat : s.standsAt i p ph) (hph : ph ≠ .idle) (hs : i.sendsAt p = true)
    (hb : i.frameAt s.cfg p = some buf) (hi : p = .command → i.framable = true)
    (hx : exchange s.cfg buf s.env = (.answered buf.length rx, v)) :
    exec i s = .next (i.afterAnswer p rx ({ s with env := v }.log (.xfer s.chan buf buf.length rx))) := by
  rw [exec_txn hat hph hs hb hi, State.txn_ok hx]

/-! ## What a step of a request can be -/

/-- The faults and the refusal of acceptance, in the order of 60_exceptions.md R325. -/
def acceptMarks : List Mark :=
  [.fault .unbound, .refusal .erase32Absent, .fault .offsetRange, .fault .addrRange]

/-- The next states of a step of a request that emits a command: three of acceptance, the return, the
delay, and what a frame, or its absence, leads to. -/
inductive InstrStep (i : Instr) (s : State) : State → Prop
  | stopped {m : Mark} {ph : Phase} (idle : s.phase = .idle) (hm : m ∈ acceptMarks) :
    InstrStep i s ({ s with req := some (.command i), phase := ph }.raise m)
  | rejected (idle : s.phase = .idle) (long : i.tooLong = true) :
    InstrStep i s ({ s with req := some (.command i), phase := .accepted }.abort .invalidLength)
  | accepted (idle : s.phase = .idle) (bound : s.chan ≠ none) (present : i.absentIn s.cfg = false)
      (framable : i.framable = true) :
    InstrStep i s
      { s with req := some (.command i), phase := .accepted, pos := (ruleOf s.cfg i).start }
  | returned {r : Response} (busy : s.phase ≠ .idle) (hr : s.req = some (.command i))
      (hpos : s.pos = .ret r) :
    InstrStep i s (s.respond r)
  | delayed (busy : s.phase ≠ .idle) (hr : s.req = some (.command i)) (hpos : s.pos = .pollDelay)
      (polls : i.polls = true) :
    InstrStep i s ({ s with pos := .pollRead }.log (.delay (pollInterval s.cfg i.pollKind)))
  | unframed {k : Fault} (busy : s.phase ≠ .idle) (hr : s.req = some (.command i))
      (hpos : s.pos = .command) (hk : (ruleOf s.cfg i).frame = .error k) :
    InstrStep i s (s.raise (.fault k))
  | raised {buf : List Byte} {k : Fault} {v : Env} (busy : s.phase ≠ .idle)
      (hr : s.req = some (.command i)) (hs : i.sendsAt s.pos = true)
      (hb : i.frameAt s.cfg s.pos = some buf) (hx : exchange s.cfg buf s.env = (.raised k, v)) :
    InstrStep i s (({ s with env := v }.log (.unanswered s.chan buf)).raise (.fault k))
  | failed {buf rx : List Byte} {cnt : Int} {v : Env} (busy : s.phase ≠ .idle)
      (hr : s.req = some (.command i)) (hs : i.sendsAt s.pos = true)
      (hb : i.frameAt s.cfg s.pos = some buf) (hx : exchange s.cfg buf s.env = (.answered cnt rx, v))
      (hcnt : cnt ≠ buf.length) :
    InstrStep i s
      (({ s with env := v }.log (.xfer s.chan buf cnt rx)).willReturn ⟨.transportError, .nothing⟩)
  | answered {buf rx : List Byte} {v : Env} (busy : s.phase ≠ .idle) (hr : s.req = some (.command i))
      (hs : i.sendsAt s.pos = true) (hb : i.frameAt s.cfg s.pos = some buf)
      (hx : exchange s.cfg buf s.env = (.answered buf.length rx, v)) :
    InstrStep i s
      (i.afterAnswer s.pos rx ({ s with env := v }.log (.xfer s.chan buf buf.length rx)))

/-- A request's frame faults for its offset or its address only (60_exceptions.md R322). -/
theorem ruleOf_frame_error {c : Config} {i : Instr} {k : Fault} (h : (ruleOf c i).frame = .error k) :
    k = .offsetRange ∨ k = .addrRange := by
  cases ho : i.offsetBad with
  | true => exact .inl (Except.error.inj (h.symm.trans (ruleOf_frame_of_offsetBad c ho)))
  | false =>
    cases ha : i.addrBad with
    | true => exact .inr (Except.error.inj (h.symm.trans (ruleOf_frame_of_addrBad c ho ha)))
    | false => rw [ruleOf_frame_of_inRange c ho ha] at h; cases h

/-- Acceptance stops the request, rejects its length, or puts its first event next. -/
theorem instrStep_accept (i : Instr) {s : State} (hp : s.phase = .idle) :
    InstrStep i s (accept i (ruleOf s.cfg i) s) := by
  rcases accept_cases i (ruleOf s.cfg i) s with ⟨-, e⟩ | ⟨k, -, ha, e⟩ | ⟨k, -, -, hk, e⟩ |
    ⟨b, -, -, -, ht, e⟩ | ⟨b, hc, ha, hb, ht, e⟩ <;> rw [e]
  · exact .stopped hp (by simp [acceptMarks])
  · rw [ruleOf_absent] at ha
    split at ha <;> cases ha
    exact .stopped hp (by simp [acceptMarks])
  · refine .stopped hp ?_
    rcases ruleOf_frame_error hk with rfl | rfl <;> simp [acceptMarks]
  · exact .rejected hp (by simpa using ht)
  · refine .accepted hp hc ?_ (framable_of_ruleOf_frame hb (by simpa using ht))
    rw [ruleOf_absent] at ha
    split at ha
    · cases ha
    · rename_i hn
      exact Bool.eq_false_of_not_eq_true hn

/-- At a position where a request sends a frame, its transaction leads to one of three states. -/
theorem instrStep_txn {i : Instr} {s : State} {buf : List Byte} (hph : s.phase ≠ .idle)
    (hr : s.req = some (.command i)) (hs : i.sendsAt s.pos = true)
    (hb : i.frameAt s.cfg s.pos = some buf) :
    InstrStep i s (s.txn buf (i.afterAnswer s.pos)) := by
  rcases State.txn_cases buf (i.afterAnswer s.pos) s with ⟨k, v, hx, e⟩ | ⟨rx, v, hx, -, e⟩ |
    ⟨cnt, rx, v, hx, hc, e⟩ <;> rw [e]
  · exact .raised hph hr hs hb hx
  · exact .answered hph hr hs hb hx
  · exact .failed hph hr hs hb hx hc

/-- The next event of a request in flight. -/
theorem instrStep_familyEvent {i : Instr} {s t : State} (hph : s.phase ≠ .idle)
    (hr : s.req = some (.command i)) (h : familyEvent (ruleOf s.cfg i) s = some t) :
    InstrStep i s t := by
  have sends : ∀ buf, i.sendsAt s.pos = true → i.frameAt s.cfg s.pos = some buf →
      (s.pos = .command → (ruleOf s.cfg i).frame = .ok buf) → InstrStep i s t := by
    intro buf hs hb hc
    rw [familyEvent_of_sendsAt hs hb hc] at h
    cases h
    exact instrStep_txn hph hr hs hb
  rcases familyEvent_cases h with ⟨hp, hq, -⟩ | ⟨hp, hq, -⟩ | ⟨hp, e⟩ | ⟨p, hp, hq, -⟩ |
    ⟨p, hp, hq, e⟩ | ⟨r, hp, e⟩
  · exact sends _ (by simpa [hp, Instr.sendsAt] using hq) (by rw [hp]; rfl) (by simp [hp])
  · exact sends _ (by simpa [hp, Instr.sendsAt] using hq) (by rw [hp]; rfl) (by simp [hp])
  · cases hf : (ruleOf s.cfg i).frame with
    | error k =>
      rw [e, commandEvent, hf]
      exact .unframed hph hr hp hf
    | ok buf =>
      refine sends buf (by rw [hp]; rfl) ?_ fun _ => hf
      rw [hp, ruleOf_frame_ok hf]
      rfl
  · refine sends _ ?_ (by rw [hp]; rfl) (by simp [hp])
    rw [ruleOf_poll] at hq
    rw [hp, Instr.sendsAt]
    split at hq
    · assumption
    · cases hq
  · rw [ruleOf_poll] at hq
    split at hq <;> cases hq
    rw [e]
    exact .delayed hph hr hp ‹_›
  · rw [e]
    exact .returned hph hr hp

/-- A step of a request that emits a command starts without a mark and leads to one of these states. -/
theorem exec_steps {i : Instr} {s t : State} (h : exec i s = .next t) :
    s.faults = [] ∧ InstrStep i s t := by
  obtain ⟨hf, ⟨hp, rfl⟩ | ⟨hp, hr, he⟩⟩ := exec_next h
  · exact ⟨hf, instrStep_accept i hp⟩
  · exact ⟨hf, instrStep_familyEvent hp hr he⟩

/-- The next states of a step of any request: BEGIN and DECODE end, or stop, in their acceptance step
(10_state.md R45). -/
inductive RequestStep (s : State) : Request → State → Prop
  | command {i : Instr} {t : State} (h : InstrStep i s t) : RequestStep s (.command i) t
  | bound {ch : ChanId} (idle : s.phase = .idle) (unbound : s.chan = none) :
    RequestStep s (.beginOn ch)
      ({ s with req := some (.beginOn ch), chan := some ch }.respond ⟨.ok, .nothing⟩)
  | rebound {ch : ChanId} (idle : s.phase = .idle) :
    RequestStep s (.beginOn ch) ({ s with req := some (.beginOn ch) }.raise (.fault .rebind))
  | number {q : DecodeQuery} {n : Nat} (idle : s.phase = .idle) :
    RequestStep s (.decode q) ({ s with req := some (.decode q) }.respond ⟨.ok, .num n⟩)
  | badOffset {q : DecodeQuery} (idle : s.phase = .idle) :
    RequestStep s (.decode q) ({ s with req := some (.decode q) }.raise (.fault .offsetRange))

/-- A step of a request starts without a mark and leads to one of these states. -/
theorem perform_steps {q : Request} {s t : State} (h : perform q s = .next t) :
    s.faults = [] ∧ RequestStep s q t := by
  cases q with
  | command i =>
    obtain ⟨hf, hs⟩ := exec_steps h
    exact ⟨hf, .command hs⟩
  | beginOn ch =>
    obtain ⟨hf, hp, rfl⟩ := atOnce_next h
    refine ⟨hf, ?_⟩
    rw [State.bindChannel]
    split
    · exact .bound hp ‹_›
    · exact .rebound hp
  | decode q =>
    obtain ⟨hf, hp, rfl⟩ := atOnce_next h
    refine ⟨hf, ?_⟩
    cases ho : q.offsetBad with
    | true => rw [State.answerQuery, decoderValue_of_bad_offset ho]; exact .badOffset hp
    | false => rw [State.answerQuery, decoderValue_of_offset ho]; exact .number hp

/-- A step of the machine starts without a mark and is a step of the request in flight, a step of the
host's next request, or nothing while the host offers none. -/
theorem step_steps {s t : State} (h : step s = .next t) :
    s.faults = [] ∧
      ((∃ q, s.req = some q ∧ RequestStep s q t) ∨
        (∃ q rest, s.req = none ∧ s.host = q :: rest ∧ q.wf = true ∧
          RequestStep { s with host := rest } q t) ∨
        (s.req = none ∧ s.host = [] ∧ t = s)) := by
  obtain ⟨hf, ⟨q, hr, hq⟩ | ⟨q, rest, hr, hh, hw, hq⟩ | hidle⟩ := step_next h
  · exact ⟨hf, .inl ⟨q, hr, (perform_steps hq).2⟩⟩
  · exact ⟨hf, .inr (.inl ⟨q, rest, hr, hh, hw, (perform_steps hq).2⟩)⟩
  · exact ⟨hf, .inr (.inr hidle)⟩

end Sys2Proof.Machine
end

section
/-! SUPPORT. 10_state.md R50, R51: the invariant of the machine holds at reset and is kept by every step. -/

namespace Sys2Proof

open Machine

/-! ## The results of a request (60_exceptions.md R321) -/

theorem Instr.ok_mem_results (i : Instr) : .ok ∈ i.results := by
  cases i <;> simp [results] <;> split <;> simp

theorem Instr.transportError_mem_results (i : Instr) : .transportError ∈ i.results := by
  cases i <;> simp [results] <;> split <;> simp

theorem Instr.pollTimeout_mem_results {i : Instr} (h : i.polls = true) : .pollTimeout ∈ i.results := by
  cases i <;> simp [polls] at h <;> simp [results, h]

theorem Instr.deviceBusy_mem_results {i : Instr} (h : i.toCommand = .pageProgram) :
    .deviceBusy ∈ i.results := by
  cases i <;> simp [toCommand] at h
  simp [results]

/-- A request that polls is mutating (45_busy_poller.md R237). -/
theorem Instr.mutating_of_polls {i : Instr} (h : i.polls = true) : i.toCommand.mutating = true := by
  cases i
  case pageProgram | sectorErase | blockErase32K | blockErase64K | chipErase => rfl
  all_goals cases h

/-- A request that is not mutating does not poll. -/
theorem Instr.not_polls_of_not_mutating {i : Instr} (h : i.toCommand.mutating = false) :
    i.polls = false :=
  Bool.eq_false_iff.2 fun hp => by rw [mutating_of_polls hp] at h; cases h

theorem Instr.mutating_of_pageProgram {i : Instr} (h : i.toCommand = .pageProgram) :
    i.toCommand.mutating = true := by
  rw [h]; rfl

end Sys2Proof

namespace Sys2Proof.Machine

/-! ## Where a request stands after each event -/

/-- The response that a placed request may be about to return. -/
theorem State.placedIn_ret {i : Instr} {s : State} {r : Response} (hpos : s.pos = .ret r) :
    s.placedIn i ↔ s.phase ≠ .idle ∧ r.res ∈ i.results ∧ r.res ≠ .invalidLength ∧
      (r.res ≠ .ok → r.data = .nothing) := by
  rw [State.placedIn, hpos]

/-- An accepted request has its place at its first event (30_encoding.md R114). -/
theorem State.placedIn_start {i : Instr} {s : State} {c : Config} (hpos : s.pos = (ruleOf c i).start)
    (hph : s.phase = .accepted) : s.placedIn i := by
  rw [ruleOf_start] at hpos
  rw [State.placedIn]
  split at hpos
  · rw [hpos]
    exact ⟨‹_›, hph⟩
  · split at hpos <;> rw [hpos]
    · exact ⟨‹_›, by rw [hph, if_neg ‹_›]⟩
    · show s.phase = i.commandPhase
      rw [hph, Instr.commandPhase, if_neg ‹_›]

/-- A request whose frame was answered in full has its place at the event that follows. -/
theorem State.placedIn_afterAnswer {i : Instr} {s : State} (h : s.placedIn i)
    (hs : i.sendsAt s.pos = true) (rx : List Byte) : (i.afterAnswer s.pos rx s).placedIn i := by
  cases hpos : s.pos <;> rw [hpos] at hs <;> rw [State.placedIn, hpos] at h
  case idle | pollDelay | ret => cases hs
  case busyCheck =>
    obtain ⟨hpp, hph⟩ := h
    cases hb : busy (byteAt rx 1) with
    | true =>
      refine (State.placedIn_ret (r := ⟨.deviceBusy, .nothing⟩) (by simp [Instr.posAfter, hb])).2
        ⟨?_, Instr.deviceBusy_mem_results hpp, by simp, by simp⟩
      simp [Instr.phaseAfter, hb, hph]
    | false =>
      simp [State.placedIn, Instr.posAfter, Instr.phaseAfter, hb, hpp, Command.mutating]
  case writeEnable =>
    obtain ⟨hm, -⟩ := h
    simp [State.placedIn, Instr.posAfter, Instr.phaseAfter, Instr.commandPhase, hm]
  case command =>
    cases hp : i.polls with
    | true => simp [State.placedIn, Instr.posAfter, Instr.phaseAfter, Instr.pollsAfter, hp]
    | false =>
      exact (State.placedIn_ret (r := ⟨.ok, (ruleOf s.cfg i).data rx⟩)
        (by simp [Instr.posAfter, hp])).2
        ⟨by simp [Instr.phaseAfter], i.ok_mem_results, by simp, by simp⟩
  case pollRead =>
    obtain ⟨hp, hph⟩ := h
    cases hb : busy (byteAt rx 1) with
    | false =>
      refine (State.placedIn_ret (r := ⟨.ok, i.keeps s.cfg []⟩) (by simp [Instr.posAfter, hb])).2
        ⟨?_, i.ok_mem_results, by simp, by simp⟩
      rcases hph with ⟨hph, -⟩ | ⟨hph, -⟩ <;> simp [Instr.phaseAfter, hb, hph]
    | true =>
      by_cases hlast : s.cfg.pollMax ≤ s.polls + 1
      · exact (State.placedIn_ret (r := ⟨.pollTimeout, .nothing⟩)
          (by simp [Instr.posAfter, hb, hlast])).2
          ⟨by simp [Instr.phaseAfter, hb], Instr.pollTimeout_mem_results hp, by simp, by simp⟩
      · simp [State.placedIn, Instr.posAfter, Instr.phaseAfter, Instr.pollsAfter, hb, hp, hlast]
        omega

/-- The busy reads counted stay within the bound. -/
theorem State.pollsAfter_le {i : Instr} {s : State} (h : s.placedIn i) (hmax : 1 ≤ s.cfg.pollMax)
    (hle : s.polls ≤ s.cfg.pollMax) (rx : List Byte) :
    i.pollsAfter rx s.polls s.pos ≤ s.cfg.pollMax := by
  cases hpos : s.pos <;> try exact hle
  case command =>
    rw [Instr.pollsAfter]
    split <;> omega
  case pollRead =>
    rw [State.placedIn, hpos] at h
    rw [Instr.pollsAfter]
    split <;> omega

/-! ## The invariant -/

/-- A recorded mark needs no place for the request (log entry 4). -/
theorem State.Inv.of_marked {s t : State} {m : Mark} (hi : s.Inv) (hm : t.faults = [m])
    (hcfg : t.cfg = s.cfg) (hpolls : t.polls = s.polls) (hdev : t.env.dev.Ok s.cfg) : t.Inv :=
  ⟨hcfg ▸ hi.config, by rw [hpolls, hcfg]; exact hi.polls, by simp [hm], by simp [hm], hcfg ▸ hdev⟩

/-- A block that waits for a request is safe. -/
theorem State.Inv.of_waiting {s t : State} (hi : s.Inv) (hw : t.waiting) (hcfg : t.cfg = s.cfg)
    (hpolls : t.polls = s.polls) (hdev : t.env.dev = s.env.dev) : t.Inv := by
  obtain ⟨hf, hp, hr, hpos⟩ := hw
  exact ⟨hcfg ▸ hi.config, by rw [hpolls, hcfg]; exact hi.polls, by simp [hf],
    fun _ => by simp only [State.placed, hr]; exact ⟨hp, hpos⟩, by rw [hdev, hcfg]; exact hi.device⟩

/-- What is known of the request in flight in a safe state. -/
theorem State.Inv.inFlight_command {s : State} {i : Instr} (hi : s.Inv) (hf : s.faults = [])
    (hr : s.req = some (.command i)) :
    s.chan.isSome = true ∧ i.absentIn s.cfg = false ∧ i.framable = true ∧ s.placedIn i := by
  have := hi.place hf
  rwa [State.placed, hr] at this

/-- A step of a request that emits a command keeps the invariant. -/
theorem InstrStep.keeps_inv {i : Instr} {s t : State} (h : InstrStep i s t) (hi : s.Inv)
    (hf : s.faults = []) : t.Inv := by
  have dev : ∀ buf r v, exchange s.cfg buf s.env = (r, v) → v.dev.Ok s.cfg := fun buf r v hx => by
    have := hi.device.exchanged buf
    rwa [hx] at this
  cases h with
  | stopped _ _ => exact hi.of_marked (State.raise_faults_of_nil _ hf) rfl rfl hi.device
  | rejected _ _ => exact hi.of_waiting ⟨hf, rfl, rfl, rfl⟩ rfl rfl rfl
  | accepted _ hc ha hfr =>
    exact ⟨hi.config, hi.polls, hi.oneMark,
      fun _ => ⟨Option.isSome_iff_ne_none.2 hc, ha, hfr, State.placedIn_start rfl rfl⟩, hi.device⟩
  | returned _ _ _ => exact hi.of_waiting ⟨hf, rfl, rfl, rfl⟩ rfl rfl rfl
  | delayed _ hr hpos _ =>
    obtain ⟨hc, ha, hfr, hplaced⟩ := hi.inFlight_command hf hr
    rw [State.placedIn, hpos] at hplaced
    obtain ⟨hp, hph⟩ := hplaced
    refine ⟨hi.config, hi.polls, hi.oneMark, fun _ => ?_, hi.device⟩
    simp only [State.placed, State.log_req, hr]
    exact ⟨hc, ha, hfr, hp, .inr hph⟩
  | unframed _ _ _ _ => exact hi.of_marked (State.raise_faults_of_nil _ hf) rfl rfl hi.device
  | raised _ _ _ _ hx => exact hi.of_marked (State.raise_faults_of_nil _ hf) rfl rfl (dev _ _ _ hx)
  | failed hph hr _ _ hx _ =>
    obtain ⟨hc, ha, hfr, -⟩ := hi.inFlight_command hf hr
    refine ⟨hi.config, hi.polls, hi.oneMark, fun _ => ?_, dev _ _ _ hx⟩
    simp only [State.placed, State.willReturn_req, State.log_req, hr]
    exact ⟨hc, ha, hfr, (State.placedIn_ret rfl).2
      ⟨hph, i.transportError_mem_results, by simp, by simp⟩⟩
  | @answered buf rx v _ hr hs _ hx =>
    obtain ⟨hc, ha, hfr, hplaced⟩ := hi.inFlight_command hf hr
    have hmax := hi.config.1
    refine ⟨hi.config, State.pollsAfter_le hplaced hmax hi.polls rx, hi.oneMark, fun _ => ?_,
      dev _ _ _ hx⟩
    simp only [State.placed, Instr.afterAnswer_req, State.log_req, hr]
    exact ⟨hc, ha, hfr, State.placedIn_afterAnswer
      (s := { s with env := v }.log (.xfer s.chan buf buf.length rx)) hplaced hs rx⟩

/-- A step of any request keeps the invariant. -/
theorem RequestStep.keeps_inv {q : Request} {s t : State} (h : RequestStep s q t) (hi : s.Inv)
    (hf : s.faults = []) : t.Inv := by
  cases h with
  | command h => exact h.keeps_inv hi hf
  | bound _ _ | number _ => exact hi.of_waiting ⟨hf, rfl, rfl, rfl⟩ rfl rfl rfl
  | rebound _ | badOffset _ => exact hi.of_marked (State.raise_faults_of_nil _ hf) rfl rfl hi.device

/-- The invariant does not speak of the host's requests. -/
theorem State.Inv.withHost {s : State} (hi : s.Inv) (l : List Request) : { s with host := l }.Inv :=
  ⟨hi.config, hi.polls, hi.oneMark, hi.place, hi.device⟩

/-- Settles O36: each kind of step keeps the invariant. -/
theorem everyStepKeepsTheInvariant : Obligations.EveryStepKeepsTheInvariant := by
  intro s t hi h
  obtain ⟨hf, ⟨q, -, hq⟩ | ⟨q, rest, -, -, -, hq⟩ | ⟨-, -, rfl⟩⟩ := step_steps h
  · exact hq.keeps_inv hi hf
  · exact hq.keeps_inv (hi.withHost rest) hf
  · exact hi

/-- The state after construction has the invariant (10_state.md R50). -/
theorem State.resetWith_inv {c : Config} (hc : c.wf) : (State.resetWith c).Inv :=
  ⟨hc, Nat.zero_le _, Nat.zero_le _, fun _ => ⟨rfl, rfl⟩, Dev.Ok.launch c⟩

/-- Settles O37: the reset values are read off. -/
theorem resetValuesMeetTheInvariant : Obligations.ResetValuesMeetTheInvariant :=
  ⟨State.resetWith_inv (by decide),
    fun _ hc => ⟨State.resetWith_inv hc, rfl, rfl, rfl, rfl, rfl, rfl, rfl⟩⟩

end Sys2Proof.Machine
end

section
/-! SUPPORT. 10_state.md R37, R45: which steps have no move, which request a step runs, and that a safe
state always steps. -/

namespace Sys2Proof.Machine

/-- Settles O18: a return is one update of the state. -/
theorem returnWritesResponseAndGoesIdle : Obligations.ReturnWritesResponseAndGoesIdle :=
  fun _ _ _ _ hph hs => exec_of_ret hph hs

/-! ## Marks -/

/-- A step of a request that emits a command records at most one mark. -/
theorem InstrStep.faults {i : Instr} {s t : State} (h : InstrStep i s t) (hf : s.faults = []) :
    t.faults = [] ∨ ∃ m, t.faults = [m] := by
  cases h with
  | stopped | unframed | raised => exact .inr ⟨_, State.raise_faults_of_nil _ hf⟩
  | rejected | accepted | returned | delayed | failed | answered => exact .inl hf

/-- A step of any request records at most one mark. -/
theorem RequestStep.faults {q : Request} {s t : State} (h : RequestStep s q t) (hf : s.faults = []) :
    t.faults = [] ∨ ∃ m, t.faults = [m] := by
  cases h with
  | command h => exact h.faults hf
  | bound | number => exact .inl hf
  | rebound | badOffset => exact .inr ⟨_, State.raise_faults_of_nil _ hf⟩

/-- Settles O11: every meaning is guarded by the recorded marks. -/
theorem markedStateHasNoFurtherStep : Obligations.MarkedStateHasNoFurtherStep := by
  refine ⟨fun s m ms h => ⟨unlessStopped_cons h _, fun i => ?_, fun ch => unlessStopped_cons h _,
    fun q => unlessStopped_cons h _⟩, fun s t h => ?_, fun c => rfl⟩
  · rw [exec_eq_carryOut, carryOut, unlessStopped_cons h]
  · obtain ⟨hf, ⟨q, -, hq⟩ | ⟨q, rest, -, -, -, hq⟩ | ⟨-, -, rfl⟩⟩ := step_steps h
    · exact ⟨hf, hq.faults hf⟩
    · exact ⟨hf, hq.faults hf⟩
    · exact ⟨hf, .inl hf⟩

/-! ## Offers -/

/-- A request carried out at once has no move while another is in flight (10_state.md R45). -/
theorem atOnce_of_busy {q : Request} {f : State → State} {s : State} (hf : s.faults = [])
    (hp : s.phase ≠ .idle) : atOnce q f s = .fault .noMove := by
  rw [atOnce, unlessStopped_nil hf, if_neg hp]

theorem InstrStep.host {i : Instr} {s t : State} (h : InstrStep i s t) : t.host = s.host := by
  cases h <;> rfl

theorem RequestStep.host {q : Request} {s t : State} (h : RequestStep s q t) : t.host = s.host := by
  cases h with
  | command h => exact h.host
  | bound | rebound | number | badOffset => rfl

/-- Settles O12: only the request in flight has a move, and no step of a request reads the host. -/
theorem offerInFlightHasNoMove : Obligations.OfferInFlightHasNoMove := by
  intro s hf hp
  refine ⟨fun i hi => ?_, fun ch => atOnce_of_busy hf hp, fun q => atOnce_of_busy hf hp,
    fun q t hr h => ?_⟩
  · rw [exec_eq_carryOut, carryOut, unlessStopped_nil hf, if_neg hp, if_neg hi]
  · rw [step_of_req hf hr] at h
    exact (perform_steps h).2.host

/-- A word of the opcode table is placed as the host's next request (log entry 16). -/
theorem State.withFetchWord_eq {nbits w : Nat} {i : Instr} (h : decodeTableWord nbits w = some i)
    (s : State) : s.withFetchWord nbits w = s.offering i := by
  rw [State.withFetchWord, State.offeringWord, h]

/-- Settles O13: a step performs the request in flight, or the host's next one. -/
theorem stepRunsTheRequest : Obligations.StepRunsTheRequest := by
  refine ⟨fun s i hf hr => step_of_req hf hr, fun s i rest hf hr hh hw => step_of_host hf hr hh hw,
    fun s ch rest hf hr hh => step_of_host hf hr hh rfl,
    fun s q rest hf hr hh hw => step_of_host hf hr hh hw, fun s nbits w i hd hw => ?_⟩
  rw [State.withFetchWord_eq hd]
  exact step_of_host (q := .command i) rfl rfl rfl hw

/-! ## Progress -/

/-- Where a placed request has a frame to send, its family rule has an event that sends it. -/
theorem sendsAt_of_placedIn {i : Instr} {s : State} {buf : List Byte} (hp : s.placedIn i)
    (hb : i.frameAt s.cfg s.pos = some buf) : i.sendsAt s.pos = true := by
  cases hpos : s.pos <;> rw [hpos] at hb <;> rw [State.placedIn, hpos] at hp
  case idle | pollDelay | ret => cases hb
  case busyCheck => exact decide_eq_true hp.1
  case writeEnable => exact hp.1
  case command => rfl
  case pollRead => exact hp.1

/-- A request in flight that polls performs its delay (45_busy_poller.md R230). -/
theorem exec_of_pollDelay {i : Instr} {s : State} {ph : Phase} (hi : i.polls = true) (hph : ph ≠ .idle)
    (hs : s.standsAt i .pollDelay ph) :
    exec i s = .next ({ s with pos := .pollRead }.log (.delay (pollInterval s.cfg i.pollKind))) := by
  obtain ⟨hf, hr, hpos, rfl⟩ := hs
  refine exec_of_inFlight hf hph hr ?_
  rw [familyEvent, hpos]
  simp only [ruleOf_poll, hi]
  rfl

/-- A request that has its place in a safe state makes a step. -/
theorem State.Inv.exec_steps {i : Instr} {s : State} (hi : s.Inv) (hf : s.faults = [])
    (hr : s.req = some (.command i)) : ∃ t, exec i s = .next t := by
  obtain ⟨-, -, hfr, hplaced⟩ := hi.inFlight_command hf hr
  have hph := State.phase_ne_idle_of_placedIn hplaced
  cases hb : i.frameAt s.cfg s.pos with
  | some buf => exact ⟨_, exec_txn ⟨hf, hr, rfl, rfl⟩ hph (sendsAt_of_placedIn hplaced hb) hb fun _ => hfr⟩
  | none =>
    cases hpos : s.pos <;> rw [hpos] at hb <;> rw [State.placedIn, hpos] at hplaced
    case idle => exact hplaced.elim
    case busyCheck | writeEnable | command | pollRead => cases hb
    case pollDelay => exact ⟨_, exec_of_pollDelay hplaced.1 hph ⟨hf, hr, hpos, rfl⟩⟩
    case ret r => exact ⟨_, exec_of_ret hph ⟨hf, hr, hpos, rfl⟩⟩

/-- From Idle without a mark, every request makes a step. -/
theorem perform_of_idle (q : Request) {s : State} (hf : s.faults = []) (hp : s.phase = .idle) :
    ∃ t, perform q s = .next t := by
  cases q with
  | command i => exact ⟨_, exec_of_idle hf hp⟩
  | beginOn ch => exact ⟨_, by rw [perform, execBegin, atOnce, unlessStopped_nil hf, if_pos hp]⟩
  | decode q => exact ⟨_, by rw [perform, execDecode, atOnce, unlessStopped_nil hf, if_pos hp]⟩

/-- The step while the host offers nothing (log entry 13). -/
theorem step_of_no_offer {s : State} (hf : s.faults = []) (hr : s.req = none) (hh : s.host = []) :
    step s = .next s := by
  rw [step, move, unlessStopped_nil hf, hr, hh]

/-- Settles O44: a request in flight has its place, and from Idle every request is accepted or stopped. -/
theorem unmarkedStateAlwaysSteps : Obligations.UnmarkedStateAlwaysSteps := by
  intro s hi hf
  refine ⟨fun hwf => ?_, fun q rest hr hh hq => ?_, fun hr hh => step_of_no_offer hf hr hh⟩
  · cases hr : s.req with
    | some q =>
      obtain ⟨i, rfl, -⟩ := hi.inFlight hf hr
      rw [step_of_req hf hr]
      exact hi.exec_steps hf hr
    | none =>
      cases hh : s.host with
      | nil => exact ⟨s, step_of_no_offer hf hr hh⟩
      | cons q rest =>
        rw [step_of_host hf hr hh (hwf q rest hr hh)]
        exact perform_of_idle q (s := { s with host := rest }) hf (hi.idle hf hr).1
  · rw [step, move, unlessStopped_nil hf, hr, hh]
    simp [hq]

end Sys2Proof.Machine
end

section
/-! SUPPORT. 00_scope.md R12, 20_memory.md R75, R91: the exchange. -/

namespace Sys2Proof.Machine

/-- Settles O15: cited from the laws of the exchange. -/
theorem receivedBufferHasTheFramesLength : Obligations.ReceivedBufferHasTheFramesLength :=
  fun _ _ _ _ _ _ h => exchange_length h

/-- Settles O14: the answer laid out is the one given. -/
theorem oracleMayAnswerAnything : Obligations.OracleMayAnswerAnything := by
  intro c buf rx cnt v rest hl hrx ha
  exact ⟨_, exchange_oracle hl ha hrx, rfl, rfl, hl⟩

/-- A command takes no entry of the list of failures. -/
@[simp] theorem deviceEffect_failures (k : Command) (buf : List Byte) (v : Env) :
    (deviceEffect k buf v).failures = v.failures := by
  cases k <;> simp only [deviceEffect, Env.withDev_failures]
  case readStatus => rcases v.countDown_cases with ⟨-, e⟩ | ⟨-, -, e⟩ | ⟨-, -, e⟩ <;> rw [e] <;> simp
  case pageProgram => simp only [Env.devProgram]; split <;> [(split <;> simp); rfl]
  all_goals simp only [Env.devErase]; split <;> simp

theorem deviceFrame_failures {c : Config} {buf rx : List Byte} {v w : Env}
    (h : deviceFrame c buf v = .ok (rx, w)) : w.failures = v.failures := by
  obtain ⟨k, -, -, -, -, rfl⟩ := deviceFrame_ok h
  simp

section Injected

variable {c : Config} {buf : List Byte} {v : Env} {f : Failure} {fs : List (Option Failure)}

/-- A failure whose frame the device did not carry out answers its own count (20_memory.md R91). -/
theorem exchange_of_lost (hl : v.link = .reference) (hfs : v.failures = some f :: fs)
    (hf : f.cnt ≠ buf.length) (hno : f.carriedOut = false) :
    exchange c buf v = (.answered f.cnt (freeBytes v.draws buf.length),
      Env.drawn buf.length { v with failures := fs }) := by
  simp [exchange, hl, referenceExchange, Env.injected, hfs, hf, hno]

/-- A failure whose frame the device carried out answers its own count too (20_memory.md R91). -/
theorem exchange_of_carriedOut {rx : List Byte} {w : Env} (hl : v.link = .reference)
    (hfs : v.failures = some f :: fs) (hf : f.cnt ≠ buf.length) (hyes : f.carriedOut = true)
    (hd : deviceFrame c buf { v with failures := fs } = .ok (rx, w)) :
    exchange c buf v = (.answered f.cnt (freeBytes w.draws buf.length), w.drawn buf.length) := by
  simp only [hl] at hd
  simp [exchange, hl, referenceExchange, Env.injected, hfs, hf, hyes, hd]

end Injected

/-- Settles O16: the answer of the reference environment, with and without an injected failure. -/
theorem referenceFailsOnlyWhereInjected : Obligations.ReferenceFailsOnlyWhereInjected := by
  intro c buf v hl
  refine ⟨fun hinj cnt rx w h => ?_, fun f fs hfs hf => ⟨fun hno => ?_, fun hyes rx w hd => ?_⟩⟩
  · rw [exchange_reference hl hinj] at h
    split at h
    · cases h
    · rename_i hd
      cases h
      exact ⟨rfl, deviceFrame_failures hd⟩
  · exact ⟨_, _, exchange_of_lost hl hfs hf hno, rfl, rfl⟩
  · exact ⟨_, _, exchange_of_carriedOut hl hfs hf hyes hd, rfl, deviceFrame_failures hd⟩

/-- A fault of an exchange is the one the device raised on the frame. -/
theorem exchange_raised {c : Config} {buf : List Byte} {v w : Env} {k : Fault}
    (h : exchange c buf v = (.raised k, w)) :
    deviceFrame c buf { v with failures := v.failures.tail } = .error k := by
  unfold exchange at h
  split at h
  · obtain ⟨cnt, rx, e, -⟩ := oracleExchange_cases buf v
    rw [h] at e
    cases e
  · simp only [referenceExchange] at h
    split at h
    · split at h <;> cases h
      assumption
    · split at h
      · split at h <;> cases h
        assumption
      · cases h

/-- An exchange leaves which environment answers as it was. -/
theorem exchange_link (c : Config) (buf : List Byte) (v : Env) : (exchange c buf v).2.link = v.link := by
  have framed : ∀ {rx w}, deviceFrame c buf { v with failures := v.failures.tail } = .ok (rx, w) →
      w.link = v.link := fun h => by
    obtain ⟨k, -, -, -, -, rfl⟩ := deviceFrame_ok h
    exact (deviceEffect_keeps k buf _).1
  unfold exchange
  split
  · unfold oracleExchange
    split <;> rfl
  · simp only [referenceExchange]
    split
    · split
      · rfl
      · exact framed ‹_›
    · split
      · split
        · rfl
        · rename_i rx w hd
          have hw : w.link = v.link := framed hd
          exact hw
      · rfl

/-- An exchange leaves the Unique ID and status bits 7:2 as they were (20_memory.md R74). -/
theorem exchange_dev_fixed (c : Config) (buf : List Byte) (v : Env) :
    (exchange c buf v).2.dev.uid = v.dev.uid ∧ (exchange c buf v).2.dev.srHigh = v.dev.srHigh := by
  rcases exchange_dev c buf v with e | ⟨rx, w, hd, e⟩
  · rw [e]; exact ⟨rfl, rfl⟩
  · obtain ⟨k, -, -, -, -, rfl⟩ := deviceFrame_ok hd
    rw [e]
    exact (deviceEffect_keeps k buf _).2

end Sys2Proof.Machine
end

section
/-! SUPPORT. 30_encoding.md R108, R114, 44_write_latch.md R222: which command a request sends at each
position, and which events a step adds to the observation. -/

namespace Sys2Proof

open Machine

/-- The command whose frame a request sends at a position (30_encoding.md R114). -/
def Instr.commandAt (i : Instr) : Pos → Command
  | .busyCheck | .pollRead => .readStatus
  | .writeEnable => .writeEnable
  | .idle | .command | .pollDelay | .ret _ => i.toCommand

/-- The frame of a request at a position begins with the opcode of its command there. -/
theorem Instr.frameAt_eq_cons {c : Config} {i : Instr} {p : Pos} {buf : List Byte}
    (h : i.frameAt c p = some buf) : ∃ rest, buf = (i.commandAt p).opcode :: rest := by
  cases p <;> cases h <;> exact ⟨_, rfl⟩

theorem Instr.frameAt_head {c : Config} {i : Instr} {p : Pos} {buf : List Byte}
    (h : i.frameAt c p = some buf) : buf.head? = some (i.commandAt p).opcode := by
  obtain ⟨rest, rfl⟩ := i.frameAt_eq_cons h
  rfl

/-- A request that is not mutating sends a frame at its command position only. -/
theorem Instr.pos_of_not_mutating {i : Instr} {p : Pos} (hm : i.toCommand.mutating = false)
    (hs : i.sendsAt p = true) : p = .command := by
  cases p
  case command => rfl
  case busyCheck =>
    exact absurd (mutating_of_pageProgram (of_decide_eq_true hs)) (by simp [hm])
  case writeEnable => exact absurd hs (by simp [sendsAt, hm])
  case pollRead => exact absurd (mutating_of_polls hs) (by simp [hm])
  all_goals cases hs

/-- A request sends a mutating frame at its command position only. -/
theorem Instr.pos_of_mutatingFrame {c : Config} {i : Instr} {p : Pos} {buf : List Byte}
    (hb : i.frameAt c p = some buf) (hm : mutatingFrame buf) :
    p = .command ∧ i.toCommand.mutating = true := by
  obtain ⟨k, hk, hh⟩ := hm
  rw [i.frameAt_head hb] at hh
  have hk' := Command.opcode_inj (Option.some.inj hh)
  subst hk'
  cases p <;> try cases hb
  case command => exact ⟨rfl, hk⟩
  all_goals cases hk

/-- After a full answer the command frame is next only where WRITE_ENABLE was sent (44_write_latch.md
R222). -/
theorem Instr.pos_of_posAfter_command {c : Config} {i : Instr} {p : Pos} {rx : List Byte} {n : Nat}
    (hs : i.sendsAt p = true) (h : i.posAfter c rx n p = .command) : p = .writeEnable := by
  cases p <;> simp only [posAfter] at h
  case writeEnable => rfl
  case idle | pollDelay | ret => cases hs
  case busyCheck => split at h <;> cases h
  case command => split at h <;> cases h
  case pollRead => split at h <;> [split at h <;> cases h; cases h]

end Sys2Proof

namespace Sys2Proof.Machine

/-! ## The events of a step -/

/-- A step of a request sends at most one frame, on the bound channel: the one of the position that the
request in flight has reached. -/
theorem InstrStep.sent {i : Instr} {s t : State} (h : InstrStep i s t) :
    ∃ events, t.trace = s.trace ++ events ∧ framesIn events ≤ 1 ∧
      ∀ e ∈ events, ∀ b, e.frame? = some b →
        e.channel? = s.chan ∧ s.req = some (.command i) ∧ i.sendsAt s.pos = true ∧
          i.frameAt s.cfg s.pos = some b := by
  cases h with
  | stopped | rejected | returned | delayed | unframed =>
    exact ⟨_, rfl, Nat.zero_le 1, by simp [Event.frame?]⟩
  | accepted => exact ⟨[], by simp, by simp [framesIn], by simp⟩
  | @raised buf k v _ hr hs hb _ =>
    refine ⟨[.unanswered s.chan buf, .stopped (.fault k)], by simp, by simp [framesIn, Event.frame?], ?_⟩
    simp [Event.frame?, Event.channel?, hr, hs, hb]
  | failed _ hr hs hb _ _ | answered _ hr hs hb _ =>
    refine ⟨_, rfl, by simp [framesIn, Event.frame?], ?_⟩
    simp [Event.frame?, Event.channel?, hr, hs, hb]

theorem RequestStep.sent {q : Request} {s t : State} (h : RequestStep s q t) :
    ∃ events, t.trace = s.trace ++ events ∧ framesIn events ≤ 1 ∧
      ∀ e ∈ events, ∀ b, e.frame? = some b → e.channel? = s.chan ∧
        ∃ i, s.req = some (.command i) ∧ i.sendsAt s.pos = true ∧ i.frameAt s.cfg s.pos = some b := by
  cases h with
  | command h =>
    obtain ⟨events, htrace, hone, hall⟩ := h.sent
    refine ⟨events, htrace, hone, fun e he b hb => ?_⟩
    obtain ⟨hc, hr, hs, hb⟩ := hall e he b hb
    exact ⟨hc, _, hr, hs, hb⟩
  | bound | rebound | number | badOffset =>
    exact ⟨_, rfl, Nat.zero_le 1, by simp [Event.frame?]⟩

/-- Settles O40: the frame is the one of the request in flight at its position, which has its place. -/
theorem onlyFramesOfTheRequestAreSent : Obligations.OnlyFramesOfTheRequestAreSent := by
  intro s t hi h
  obtain ⟨hf, hstep⟩ := step_steps h
  have sent : ∃ events, t.trace = s.trace ++ events ∧ framesIn events ≤ 1 ∧
      ∀ e ∈ events, ∀ b, e.frame? = some b → e.channel? = s.chan ∧
        ∃ i, s.req = some (.command i) ∧ i.sendsAt s.pos = true ∧ i.frameAt s.cfg s.pos = some b := by
    rcases hstep with ⟨q, -, hq⟩ | ⟨q, rest, -, -, -, hq⟩ | ⟨-, -, rfl⟩
    · exact hq.sent
    · exact hq.sent
    · exact ⟨[], by simp, by simp [framesIn], by simp⟩
  obtain ⟨events, htrace, hone, hall⟩ := sent
  refine ⟨events, htrace, hone, fun e he b hb => ?_⟩
  obtain ⟨hchan, i, hr, hs, hframe⟩ := hall e he b hb
  obtain ⟨hc, -, hfr, -⟩ := hi.inFlight_command hf hr
  refine ⟨hchan, Option.isSome_iff_ne_none.1 hc, i, hr, hfr, hframe, fun hm => ?_⟩
  rw [Instr.pos_of_not_mutating hm hs] at hframe
  exact (Option.some.inj hframe).symm

/-! ## WRITE_ENABLE before every mutating frame -/

/-- One more event keeps the adjacency, if a mutating frame comes right after WRITE_ENABLE. -/
theorem wrenAdjacent_concat {es : List Event} {e : Event} (h : wrenAdjacent es)
    (he : ∀ b, e.frame? = some b → mutatingFrame b → ∃ w, es.getLast? = some w ∧ w.wrenDone) :
    wrenAdjacent (es ++ [e]) := by
  rintro before e' later heq ⟨b, hb, hm⟩
  rcases List.eq_nil_or_concat later with rfl | ⟨l, x, rfl⟩
  · obtain ⟨rfl, hlast⟩ := List.append_inj' heq rfl
    cases hlast
    obtain ⟨w, hw, hdone⟩ := he b hb hm
    obtain ⟨earlier, rfl⟩ := List.getLast?_eq_some_iff.1 hw
    exact ⟨earlier, w, rfl, hdone⟩
  · have heq' : es ++ [e] = (before ++ e' :: l) ++ [x] := by simpa using heq
    obtain ⟨rfl, -⟩ := List.append_inj' heq' rfl
    exact h before e' l rfl ⟨b, hb, hm⟩

/-- An event without a frame keeps the adjacency. -/
theorem wrenAdjacent_concat_of_no_frame {es : List Event} {e : Event} (h : wrenAdjacent es)
    (he : e.frame? = none) : wrenAdjacent (es ++ [e]) :=
  wrenAdjacent_concat h fun b hb => by rw [he] at hb; cases hb

/-- What the observation has of WRITE_ENABLE: it comes right before every mutating frame, and it is the
last event where a mutating command frame is next. -/
def State.WrenKept (s : State) : Prop :=
  wrenAdjacent s.trace ∧
    (s.faults = [] → s.phase = .writeEnabled → s.pos = .command →
      ∃ w, s.trace.getLast? = some w ∧ w.wrenDone)

/-- A step of a request in flight keeps the adjacency (44_write_latch.md R222). -/
theorem InstrStep.keeps_wren {i : Instr} {s t : State} (h : InstrStep i s t) (hi : s.Inv)
    (hf : s.faults = []) (hw : s.WrenKept) : t.WrenKept := by
  obtain ⟨hadj, hlast⟩ := hw
  have frame : ∀ buf, s.req = some (.command i) → i.frameAt s.cfg s.pos = some buf →
      mutatingFrame buf → ∃ w, s.trace.getLast? = some w ∧ w.wrenDone := by
    intro buf hr hb hm
    obtain ⟨hpos, hmut⟩ := i.pos_of_mutatingFrame hb hm
    obtain ⟨-, -, -, hplaced⟩ := hi.inFlight_command hf hr
    rw [State.placedIn, hpos] at hplaced
    exact hlast hf (by rw [hplaced, Instr.commandPhase, if_pos hmut]) hpos
  cases h with
  | stopped | unframed =>
    exact ⟨wrenAdjacent_concat_of_no_frame hadj rfl, fun h => by simp [hf] at h⟩
  | rejected | returned =>
    exact ⟨wrenAdjacent_concat_of_no_frame hadj rfl, fun _ h => by cases h⟩
  | accepted => exact ⟨hadj, fun _ h => by cases h⟩
  | delayed => exact ⟨wrenAdjacent_concat_of_no_frame hadj rfl, fun _ _ h => by cases h⟩
  | raised _ hr _ hb _ =>
    refine ⟨wrenAdjacent_concat_of_no_frame (wrenAdjacent_concat hadj ?_) rfl, fun h => by simp [hf] at h⟩
    rintro b hb' hm
    cases hb'
    exact frame _ hr hb hm
  | failed _ hr _ hb _ _ =>
    refine ⟨wrenAdjacent_concat hadj ?_, fun _ _ h => by cases h⟩
    rintro b hb' hm
    cases hb'
    exact frame _ hr hb hm
  | @answered buf rx v _ hr hs hb _ =>
    refine ⟨wrenAdjacent_concat hadj ?_, fun _ _ h => ?_⟩
    · rintro b hb' hm
      cases hb'
      exact frame _ hr hb hm
    · rw [Instr.pos_of_posAfter_command hs h] at hb
      cases hb
      exact ⟨_, List.getLast?_concat .., _, _, rfl⟩

theorem RequestStep.keeps_wren {q : Request} {s t : State} (h : RequestStep s q t) (hi : s.Inv)
    (hf : s.faults = []) (hw : s.WrenKept) : t.WrenKept := by
  cases h with
  | command h => exact h.keeps_wren hi hf hw
  | bound | number => exact ⟨wrenAdjacent_concat_of_no_frame hw.1 rfl, fun _ h => by cases h⟩
  | rebound | badOffset =>
    exact ⟨wrenAdjacent_concat_of_no_frame hw.1 rfl, fun h => by simp [hf] at h⟩

/-- Settles O39: each kind of step keeps the adjacency and its strengthening. -/
theorem writeEnableComesRightBeforeEveryMutatingFrame :
    Obligations.WriteEnableComesRightBeforeEveryMutatingFrame := by
  intro s t hi h hw
  obtain ⟨hf, ⟨q, -, hq⟩ | ⟨q, rest, -, -, -, hq⟩ | ⟨-, -, rfl⟩⟩ := step_steps h
  · exact hq.keeps_wren hi hf hw
  · exact hq.keeps_wren (hi.withHost rest) hf hw
  · exact hw

/-! ## Channel, results, faults -/

theorem InstrStep.cfg {i : Instr} {s t : State} (h : InstrStep i s t) : t.cfg = s.cfg := by
  cases h <;> rfl

theorem InstrStep.chan {i : Instr} {s t : State} (h : InstrStep i s t) : t.chan = s.chan := by
  cases h <;> rfl

/-- Only BEGIN binds, and only an unbound block; no request changes the configuration (10_state.md R31,
R44). -/
theorem RequestStep.chan {q : Request} {s t : State} (h : RequestStep s q t) :
    t.cfg = s.cfg ∧ (t.chan = s.chan ∨ s.chan = none ∧ ∃ ch, q = .beginOn ch ∧ t.chan = some ch) := by
  cases h with
  | command h => exact ⟨h.cfg, .inl h.chan⟩
  | bound _ hc => exact ⟨rfl, .inr ⟨hc, _, rfl, rfl⟩⟩
  | rebound | number | badOffset => exact ⟨rfl, .inl rfl⟩

/-- Settles O38: BEGIN is not in flight in a safe state, so the host has offered it. -/
theorem channelAndConfigurationAreFixed : Obligations.ChannelAndConfigurationAreFixed := by
  intro s t hi h
  obtain ⟨hf, ⟨q, hr, hq⟩ | ⟨q, rest, hr, hh, -, hq⟩ | ⟨-, -, rfl⟩⟩ := step_steps h
  · obtain ⟨i, rfl, -⟩ := hi.inFlight hf hr
    obtain ⟨hcfg, hc | ⟨-, ch, hq, -⟩⟩ := hq.chan
    · exact ⟨hcfg, fun ch hs => hc.trans hs, fun hne => absurd hc hne⟩
    · cases hq
  · obtain ⟨hcfg, hc | ⟨hs, ch, rfl, ht⟩⟩ := hq.chan
    · exact ⟨hcfg, fun ch hs => hc.trans hs, fun hne => absurd hc hne⟩
    · have hs : s.chan = none := hs
      exact ⟨hcfg, by simp [hs], fun _ => ⟨hs, hr, _, rest, hh, ht⟩⟩
  · exact ⟨rfl, fun _ hs => hs, fun hne => absurd rfl hne⟩

/-- Settles O41: a request in flight that ends has performed the return of its position. -/
theorem resultsAreThoseOfTheTable : Obligations.ResultsAreThoseOfTheTable := by
  intro s t i hi hr h hnone
  obtain ⟨hf, hstep⟩ := step_steps h
  have hstep : InstrStep i s t := by
    rw [step_of_req hf hr] at h
    exact (exec_steps h).2
  obtain ⟨-, -, -, hplaced⟩ := hi.inFlight_command hf hr
  have hph := State.phase_ne_idle_of_placedIn hplaced
  have inFlight : t.req ≠ s.req := by rw [hnone, hr]; simp
  cases hstep with
  | stopped idle | rejected idle | accepted idle => exact absurd idle hph
  | @returned r _ _ hpos =>
    obtain ⟨-, hres, -, hdata⟩ := (State.placedIn_ret hpos).1 hplaced
    exact ⟨r, rfl, hres, hdata⟩
  | delayed | unframed | raised | failed | answered => exact absurd rfl inFlight

end Sys2Proof.Machine
end

section
/-! SUPPORT. 20_memory.md R76, 30_encoding.md R108: every frame of the block has a length with a meaning to
the reference device, so only the device's guards can fault it. -/

namespace Sys2Proof

open Machine

/-- Every encoded frame has the length of 30_encoding.md R108. -/
theorem encode_length (c : Config) (i : Instr) :
    (encode c i).length = Laws.FrameLength.length c i := by
  cases i
  case readStatus => exact Laws.FrameLength.readStatus c
  case readJedecId => exact Laws.FrameLength.readJedecId c
  case readUniqueId => exact Laws.FrameLength.readUniqueId c
  case read x n => exact Laws.FrameLength.read x n c
  case fastRead x n => exact Laws.FrameLength.fastRead x n c
  case writeEnable => exact Laws.FrameLength.writeEnable c
  case writeDisable => exact Laws.FrameLength.writeDisable c
  case pageProgram x d => exact Laws.FrameLength.pageProgram x d c
  case sectorErase n w => exact Laws.FrameLength.sectorErase n w c
  case blockErase32K n w => exact Laws.FrameLength.blockErase32K n w c
  case blockErase64K n w => exact Laws.FrameLength.blockErase64K n w c
  case chipErase w => exact Laws.FrameLength.chipErase w c
  case deepPowerDown => exact Laws.FrameLength.deepPowerDown c

end Sys2Proof

namespace Sys2Proof.Machine

/-- The command frame of a request that can be framed has a length with a meaning to the device. -/
theorem frameLengthOk_encode (c : Config) {i : Instr} (hi : i.framable = true) :
    frameLengthOk c i.toCommand (encode c i).length = true := by
  rw [encode_length]
  cases i
  case pageProgram x d =>
    simp only [Instr.framable, Bool.and_eq_true, decide_eq_true_eq] at hi
    exact decide_eq_true ⟨Nat.le_add_right 4 _, Nat.add_le_add_left hi.2 4⟩
  all_goals simp [frameLengthOk, Instr.toCommand, Laws.FrameLength.length]

/-- Every frame of a request that can be framed has a length with a meaning to the device. -/
theorem frameLengthOk_of_frameAt {c : Config} {i : Instr} {p : Pos} {buf : List Byte}
    (hi : i.framable = true) (hb : i.frameAt c p = some buf) :
    frameLengthOk c (i.commandAt p) buf.length = true := by
  cases p <;> cases hb
  case command => exact frameLengthOk_encode c hi
  all_goals rfl

/-- A guard of the device raises one of two faults (20_memory.md R76). -/
theorem deviceGuard_some {op : Byte} {d : Dev} {k : Fault} (h : deviceGuard op d = some k) :
    k = .devPoweredDown ∨ k = .devBusyCmd := by
  unfold deviceGuard at h
  split at h
  · cases h; exact .inl rfl
  · split at h <;> cases h
    exact .inr rfl

/-- A frame of a request faults at the device only by the guards. -/
theorem deviceFrame_error_of_frameAt {c : Config} {i : Instr} {p : Pos} {buf : List Byte} {v : Env}
    {k : Fault} (hi : i.framable = true) (hb : i.frameAt c p = some buf)
    (h : deviceFrame c buf v = .error k) : deviceGuard (i.commandAt p).opcode v.dev = some k := by
  have hlen := frameLengthOk_of_frameAt hi hb
  obtain ⟨rest, rfl⟩ := i.frameAt_eq_cons hb
  cases hg : deviceGuard (i.commandAt p).opcode v.dev with
  | none => rw [deviceFrame_of_command hg hlen] at h; cases h
  | some k' =>
    simp only [deviceFrame, hg] at h
    exact congrArg some (Except.error.inj h)

/-- A step of a request in a safe state never records `devNoMeaning`. -/
theorem InstrStep.no_devNoMeaning {i : Instr} {s t : State} (h : InstrStep i s t) (hi : s.Inv)
    (hf : s.faults = []) : .fault .devNoMeaning ∉ t.faults := by
  cases h with
  | @stopped m ph _ hm =>
    intro hmem
    have : m = .fault .devNoMeaning := by simpa [hf, eq_comm] using hmem
    subst this
    simp [acceptMarks] at hm
  | @unframed k _ _ _ hk =>
    intro hmem
    have : k = .devNoMeaning := by simpa [hf, eq_comm] using hmem
    rcases ruleOf_frame_error hk with rfl | rfl <;> cases this
  | @raised buf k v _ hr _ hb hx =>
    intro hmem
    have : k = .devNoMeaning := by simpa [hf, eq_comm] using hmem
    obtain ⟨-, -, hfr, -⟩ := hi.inFlight_command hf hr
    rcases deviceGuard_some (deviceFrame_error_of_frameAt hfr hb (exchange_raised hx)) with rfl | rfl <;>
      cases this
  | rejected | accepted | returned | delayed | failed | answered => simp [hf]

/-- Settles O45: the faults of a step are those of acceptance and the device's guards. -/
theorem everyFrameHasAMeaningToTheDevice : Obligations.EveryFrameHasAMeaningToTheDevice := by
  intro s t hi h
  have request : ∀ {q : Request} {s' : State}, RequestStep s' q t → s'.Inv → s'.faults = [] →
      Mark.fault .devNoMeaning ∉ t.faults := fun hq hi' hf' => by
    cases hq with
    | command h => exact h.no_devNoMeaning hi' hf'
    | bound | rebound | number | badOffset => simp [hf']
  obtain ⟨hf, ⟨q, -, hq⟩ | ⟨q, rest, -, -, -, hq⟩ | ⟨-, -, rfl⟩⟩ := step_steps h
  · exact request hq hi hf
  · exact request hq (hi.withHost rest) hf
  · simp [hf]

end Sys2Proof.Machine
end

section
/-! SUPPORT. 10_state.md R30, 20_memory.md R66: what a step of a request leaves alone. -/

namespace Sys2Proof.Machine

/-- Where a step of a request leads, the environment is the one before, or the one after the exchange of
its frame. -/
theorem InstrStep.env {i : Instr} {s t : State} (h : InstrStep i s t) :
    t.env = s.env ∨ ∃ buf, s.phase ≠ .idle ∧ s.req = some (.command i) ∧ i.sendsAt s.pos = true ∧
      i.frameAt s.cfg s.pos = some buf ∧ t.env = (exchange s.cfg buf s.env).2 := by
  cases h with
  | stopped | rejected | accepted | returned | delayed | unframed => exact .inl rfl
  | raised hp hr hs hb hx | failed hp hr hs hb hx _ | answered hp hr hs hb hx =>
    exact .inr ⟨_, hp, hr, hs, hb, by rw [hx]; rfl⟩

/-- A step of a request that does not poll leaves `polls` (10_state.md R34). -/
theorem InstrStep.polls {i : Instr} {s t : State} (h : InstrStep i s t) (hi : i.polls = false) :
    t.polls = s.polls := by
  cases h with
  | stopped | rejected | accepted | returned | delayed | unframed | raised | failed => rfl
  | answered _ _ hs _ _ =>
    cases hpos : s.pos <;> rw [hpos] at hs <;> simp [Instr.pollsAfter, hi]
    exact absurd hs (by simp [Instr.sendsAt, hi])

/-- A step of a request that writes the response ends the request (10_state.md R36). -/
theorem InstrStep.resp {i : Instr} {s t : State} (h : InstrStep i s t) (hne : t.resp ≠ s.resp) :
    t.phase = .idle ∧ t.req = none := by
  cases h with
  | rejected | returned => exact ⟨rfl, rfl⟩
  | stopped | accepted | delayed | unframed | raised | failed | answered => exact absurd rfl hne

/-- Settles O46: from what each kind of step leaves alone, and what an exchange does. -/
theorem requestStepFrame : Obligations.RequestStepFrame := by
  intro i s t h
  obtain ⟨-, hs⟩ := exec_steps h
  have henv : t.env.link = s.env.link ∧ t.env.dev.uid = s.env.dev.uid ∧
      t.env.dev.srHigh = s.env.dev.srHigh := by
    rcases hs.env with e | ⟨buf, -, -, -, -, e⟩ <;> rw [e]
    · exact ⟨rfl, rfl, rfl⟩
    · exact ⟨exchange_link _ _ _, exchange_dev_fixed _ _ _⟩
  obtain ⟨hlink, huid, hsr⟩ := henv
  refine ⟨hs.cfg, hs.chan, hs.host, hlink, huid, hsr, hs.polls, hs.resp, fun hno => ?_⟩
  rcases hs.env with e | ⟨buf, hp, -, -, hb, -⟩
  · exact e
  · rcases hno with hidle | hnone
    · exact absurd hidle hp
    · rw [hnone] at hb
      cases hb

/-- A command changes no byte outside the pending effect and, for PAGE_PROGRAM, the effect its frame
starts (20_memory.md R78, R85 to R88). -/
theorem deviceEffect_read {c : Config} {k : Command} {buf : List Byte} {v : Env} {a : Nat}
    (hd : v.dev.Ok c) (hpend : ∀ e, v.dev.pending = some e → ¬ e.covers a)
    (hprog : k = .pageProgram → ¬ (programEffect (frameAddr buf) (buf.drop 4)).covers a) :
    (deviceEffect k buf v).dev.mem.read a = v.dev.mem.read a := by
  cases k
  case readStatus =>
    rw [deviceEffect]
    rcases v.countDown_cases with ⟨-, e⟩ | ⟨-, -, e⟩ | ⟨-, -, e⟩ <;> rw [e]
    · rfl
    · rw [Env.complete_dev]
      cases hp : v.dev.pending with
      | none => simp [hp, Memory.after]
      | some e =>
        simpa [hp] using Memory.read_after_of_not_covers hd.mem _ (hd.effect e hp) (hpend e hp)
  case pageProgram =>
    simp only [deviceEffect, Env.devProgram]
    split
    · split
      · have hwf : (programEffect (frameAddr buf) (buf.drop 4)).wf :=
          programEffect_wf (ofAddrBytes_lt _ _ _)
        simpa using Memory.read_after_of_not_covers hd.mem _ hwf (hprog rfl)
      · simp
    · rfl
  case sectorErase | blockErase32K | blockErase64K | chipErase =>
    simp only [deviceEffect, Env.devErase]
    split <;> simp
  case readJedecId | readUniqueId | read | fastRead | writeEnable | writeDisable | deepPowerDown => rfl

/-- The frame of PAGE_PROGRAM carries its operand's address and its payload (30_encoding.md R101). -/
theorem frameAddr_encode_pageProgram (c : Config) {x : AddrOperand} (hx : x.framable = true)
    (d : List Byte) :
    frameAddr (encode c (.pageProgram x d)) = x.address ∧ (encode c (.pageProgram x d)).drop 4 = d :=
  ⟨frameAddr_of_addrBytes _ (address_lt hx) _, rfl⟩

/-- A request whose frame at a position is a Page Program is PAGE_PROGRAM, at its command frame. -/
theorem frame_of_commandAt_pageProgram {c : Config} {i : Instr} {p : Pos} {buf : List Byte}
    (hb : i.frameAt c p = some buf) (hk : i.commandAt p = .pageProgram) :
    ∃ x d, i = .pageProgram x d ∧ buf = encode c (.pageProgram x d) := by
  cases p <;> cases hb
  case command =>
    cases i <;> cases hk
    exact ⟨_, _, rfl, rfl⟩
  all_goals cases hk

/-- Settles O47: only a frame reaches the device, and its command lands only those effects. -/
theorem arrayChangesOnlyWhereAnEffectLands : Obligations.ArrayChangesOnlyWhereAnEffectLands := by
  intro i s t hi h a hpend hprog
  obtain ⟨hf, hs⟩ := exec_steps h
  rcases hs.env with e | ⟨buf, -, hr, -, hb, e⟩
  · rw [e]
  · obtain ⟨-, -, hfr, -⟩ := hi.inFlight_command hf hr
    rw [e]
    rcases exchange_dev_of_head (c := s.cfg) (v := s.env) (i.frameAt_head hb) with he | ⟨w, hw, he, -⟩
    · rw [he]
    · rw [he, ← hw]
      refine deviceEffect_read (c := s.cfg) (hw ▸ hi.device) (by rw [hw]; exact hpend) fun hk => ?_
      obtain ⟨x, d, rfl, rfl⟩ := frame_of_commandAt_pageProgram hb hk
      simp only [Instr.framable, Bool.and_eq_true] at hfr
      obtain ⟨ha, hd⟩ := frameAddr_encode_pageProgram s.cfg hfr.1 d
      rw [ha, hd]
      exact hprog x d rfl hfr.1

/-- A step of a request that is not mutating leaves the device, or does to it what its command does. -/
theorem InstrStep.dev_of_not_mutating {i : Instr} {s t : State} (h : InstrStep i s t)
    (hm : i.toCommand.mutating = false) :
    t.env.dev = s.env.dev ∨
      ∃ buf w, w.dev = s.env.dev ∧ t.env.dev = (deviceEffect i.toCommand buf w).dev := by
  rcases h.env with e | ⟨buf, -, -, hs, hb, e⟩
  · exact .inl (by rw [e])
  · have hpos := Instr.pos_of_not_mutating hm hs
    rw [hpos] at hb
    rw [e]
    rcases exchange_dev_of_head (c := s.cfg) (v := s.env) (i.frameAt_head hb) with he | ⟨w, hw, he, -⟩
    · exact .inl he
    · exact .inr ⟨buf, w, hw, he⟩

/-- Settles O48: the effects of the seven commands. -/
theorem nonMutatingStepsLeaveTheDevice : Obligations.NonMutatingStepsLeaveTheDevice := by
  intro i s t h
  obtain ⟨-, hs⟩ := exec_steps h
  refine ⟨fun hi => ?_, ?_, ?_, ?_⟩
  · have hm : i.toCommand.mutating = false := by
      cases hk : i.toCommand <;> simp [hk] at hi <;> rfl
    rcases hs.dev_of_not_mutating hm with e | ⟨buf, w, hw, e⟩
    · exact e
    · rw [e, ← hw]
      cases hk : i.toCommand <;> simp [hk] at hi <;> rfl
  all_goals
    rintro rfl
    rcases hs.dev_of_not_mutating rfl with e | ⟨buf, w, hw, e⟩
    · exact .inl e
    · exact .inr (by rw [e, ← hw]; rfl)

end Sys2Proof.Machine
end

section
/-! SUPPORT. 10_state.md R36, R38: two parts of the state that no step reads, the last response, and under
the oracle the device. One argument serves both: two states that decide a step alike, and of which each
operation of a step makes the same up to a map `g` that covers the part up. -/

namespace Sys2Proof.Machine

/-- The two states agree in what decides a step, and each operation of a step makes the same of both, seen
through `g`. -/
structure Alike (g : State → State) (s s' : State) : Prop where
  cfg : s'.cfg = s.cfg
  phase : s'.phase = s.phase
  req : s'.req = s.req
  faults : s'.faults = s.faults
  pos : s'.pos = s.pos
  host : s'.host = s.host
  same : g s' = g s
  accepts : ∀ i r, g (accept i r s') = g (accept i r s)
  txns : ∀ (i : Instr) p buf, g (s'.txn buf (i.afterAnswer p)) = g (s.txn buf (i.afterAnswer p))
  raises : ∀ m, g (s'.raise m) = g (s.raise m)
  delays : ∀ n, g ({ s' with pos := .pollRead }.log (.delay n)) =
    g ({ s with pos := .pollRead }.log (.delay n))
  returns : ∀ r, g (s'.respond r) = g (s.respond r)
  binds : ∀ ch q, g (State.bindChannel ch { s' with req := q }) =
    g (State.bindChannel ch { s with req := q })
  answers : ∀ d q, g (State.answerQuery d { s' with req := q }) =
    g (State.answerQuery d { s with req := q })

section

variable {g : State → State} {s s' : State} (h : Alike g s s')

include h

theorem Alike.familyEvent (i : Instr) :
    (familyEvent (ruleOf s'.cfg i) s').map g = (familyEvent (ruleOf s.cfg i) s).map g := by
  have hcfg := h.cfg
  cases hpos : s.pos <;> simp only [Machine.familyEvent, h.pos, hpos, ruleOf_busyCheck,
    ruleOf_writeEnable, ruleOf_poll]
  case busyCheck =>
    split
    · simp only [Option.map_some, busyCheckEvent_eq i, hcfg, h.txns]
    · rfl
  case writeEnable =>
    split
    · simp only [Option.map_some, writeEnableEvent_eq i, h.txns]
    · rfl
  case command =>
    cases hf : (ruleOf s.cfg i).frame with
    | error k =>
      have hf' : (ruleOf s'.cfg i).frame = .error k := hcfg ▸ hf
      simp only [commandEvent, hf, hf', Option.map_some, h.raises]
    | ok buf => rw [commandEvent_eq hf, commandEvent_eq (hcfg ▸ hf), Option.map_some, h.txns]; rfl
  case pollRead =>
    split
    · simp only [Option.map_some]
      rw [← hcfg, pollReadEvent_eq i i.pollKind s', h.txns, hcfg, pollReadEvent_eq i i.pollKind s]
    · rfl
  case pollDelay =>
    split
    · simpa [pollDelayEvent, hcfg] using h.delays (pollInterval s.cfg i.pollKind)
    · rfl
  case ret r => simp only [Option.map_some, h.returns]

theorem Alike.guarded {o o' : Outcome} (ho : mapNext g o' = mapNext g o) :
    mapNext g (unlessStopped s' o') = mapNext g (unlessStopped s o) := by
  simp only [unlessStopped, h.faults]
  split
  · exact ho
  · rfl

theorem Alike.exec (i : Instr) : mapNext g (exec i s') = mapNext g (exec i s) := by
  rw [exec_eq_carryOut, exec_eq_carryOut, carryOut, carryOut]
  refine h.guarded ?_
  rw [h.phase, h.req]
  split
  · rw [h.cfg]
    exact congrArg Host.Outcome.next (h.accepts i _)
  · split
    · have he := h.familyEvent i
      cases h1 : Machine.familyEvent (ruleOf s'.cfg i) s' <;>
        cases h2 : Machine.familyEvent (ruleOf s.cfg i) s <;>
        simp only [h1, h2, Option.map_none, Option.map_some, reduceCtorEq, Option.some.injEq] at he ⊢
      exact congrArg Host.Outcome.next he
    · rfl

theorem Alike.atOnce {q : Request} {f : State → State}
    (hf : g (f { s' with req := some q }) = g (f { s with req := some q })) :
    mapNext g (atOnce q f s') = mapNext g (atOnce q f s) := by
  rw [Machine.atOnce, Machine.atOnce]
  refine h.guarded ?_
  by_cases hp : s.phase = .idle
  · rw [if_pos hp, if_pos (h.phase.trans hp)]
    exact congrArg Host.Outcome.next hf
  · rw [if_neg hp, if_neg (fun hp' => hp (h.phase.symm.trans hp'))]

theorem Alike.perform (q : Request) : mapNext g (perform q s') = mapNext g (perform q s) := by
  cases q with
  | command i => exact h.exec i
  | beginOn ch => exact h.atOnce (h.binds ch _)
  | decode d => exact h.atOnce (h.answers d _)

/-- States that are alike, and stay so when a request of the host is taken, make the same step up to `g`. -/
theorem Alike.step (hrest : ∀ l, Alike g { s with host := l } { s' with host := l }) :
    mapNext g (step s') = mapNext g (step s) := by
  rw [Machine.step, Machine.step, move, move]
  refine h.guarded ?_
  have hreq := h.req
  cases hr : s.req with
  | some q =>
    simp only [hreq, hr]
    exact h.perform q
  | none =>
    cases hh : s.host with
    | nil => simpa [hreq, hr, h.host, hh, mapNext] using h.same
    | cons q rest =>
      cases hq : q.wf
      · simp [hreq, hr, h.host, hh, hq, mapNext]
      · simpa [hreq, hr, h.host, hh, hq] using (hrest rest).perform q

end

/-! ## The last response -/

/-- The state without its last response. -/
def State.forget (s : State) : State := { s with resp := none }

theorem State.alike_resp (r : Option Response) (s : State) : Alike State.forget s { s with resp := r } where
  cfg := rfl
  phase := rfl
  req := rfl
  faults := rfl
  pos := rfl
  host := rfl
  same := rfl
  accepts i rule := by
    cases hc : s.chan <;> cases ha : rule.absent <;> cases hf : rule.frame <;>
      cases ht : rule.tooLong <;> simp [accept, hc, ha, hf, ht] <;> rfl
  txns i p buf := by
    simp only [State.txn]
    split
    · rfl
    · split <;> rfl
  raises _ := rfl
  delays _ := rfl
  returns _ := rfl
  binds ch q := by
    simp only [State.bindChannel]
    split <;> rfl
  answers d q := by
    simp only [State.answerQuery]
    split <;> rfl

/-- Settles O42: states that differ in the last response are alike. -/
theorem lastResponseIsNeverRead : Obligations.LastResponseIsNeverRead :=
  fun s r => (s.alike_resp r).step fun l => State.alike_resp r { s with host := l }

/-! ## The device under the oracle -/

/-- The state with another device. -/
def State.withDevice (d : Dev) (s : State) : State := { s with env := { s.env with dev := d } }

/-- An oracle answers alike whatever the device is (00_scope.md R12). -/
theorem exchange_oracle_dev {c : Config} {buf : List Byte} {v : Env} (hl : v.link = .oracle) (d : Dev) :
    exchange c buf { v with dev := d } =
      ((exchange c buf v).1, { (exchange c buf v).2 with dev := d }) := by
  cases ha : v.answers <;> simp [exchange, hl, oracleExchange, ha, Env.drawn]

theorem State.alike_device (d : Dev) {s : State} (hl : s.env.link = .oracle) :
    Alike (State.withDevice d) s (s.withDevice d) where
  cfg := rfl
  phase := rfl
  req := rfl
  faults := rfl
  pos := rfl
  host := rfl
  same := rfl
  accepts i rule := by
    cases hc : s.chan <;> cases ha : rule.absent <;> cases hf : rule.frame <;>
      cases ht : rule.tooLong <;> simp [accept, State.withDevice, hc, ha, hf, ht]
  txns i p buf := by
    have hx := exchange_oracle_dev (c := s.cfg) (buf := buf) hl d
    rcases hx' : exchange s.cfg buf s.env with ⟨reply, v⟩
    rw [hx'] at hx
    simp only [State.txn, State.withDevice, hx, hx']
    cases reply with
    | raised k => rfl
    | answered cnt rx =>
      simp only
      split <;> rfl
  raises _ := rfl
  delays _ := rfl
  returns _ := rfl
  binds ch q := by
    by_cases hc : s.chan = none <;> simp [State.bindChannel, State.withDevice, hc]
  answers e q := by
    cases he : decoderValue e <;> simp [State.answerQuery, he] <;> rfl

/-- Under the oracle a step leaves the device as it was. -/
theorem step_dev_of_oracle {s t : State} (hl : s.env.link = .oracle) (h : step s = .next t) :
    t.env.dev = s.env.dev := by
  have request : ∀ {q : Request} {s' : State}, s'.env = s.env → RequestStep s' q t →
      t.env.dev = s.env.dev := by
    intro q s' he hq
    cases hq with
    | command h =>
      rcases h.env with e | ⟨buf, -, -, -, -, e⟩ <;> rw [e, he]
      obtain ⟨-, -, -, -, hdev⟩ := oracleExchange_cases buf s.env
      rw [exchange, hl]
      exact hdev
    | bound | rebound | number | badOffset => rw [← he]; rfl
  obtain ⟨-, ⟨q, -, hq⟩ | ⟨q, rest, -, -, -, hq⟩ | ⟨-, -, rfl⟩⟩ := step_steps h
  · exact request rfl hq
  · exact request (s' := { s with host := rest }) rfl hq
  · rfl

/-- Settles O43: states that differ in the device are alike under the oracle, and a step leaves it. -/
theorem oracleRunsIgnoreTheDevice : Obligations.OracleRunsIgnoreTheDevice := by
  intro s d hl
  have halike := (State.alike_device d hl).step fun l =>
    State.alike_device d (s := { s with host := l }) hl
  show step (s.withDevice d) = mapNext (State.withDevice d) (step s)
  refine Eq.trans ?_ halike
  cases h : step (s.withDevice d) with
  | next t =>
    have hdev : t.env.dev = d := step_dev_of_oracle (s := s.withDevice d) hl h
    refine congrArg Host.Outcome.next ?_
    rw [State.withDevice, ← hdev]
  | fault k => rfl
  | refused k => rfl

end Sys2Proof.Machine
end

section
/-! SUPPORT. 42_status_id.md, 43_read.md, 44_write_latch.md, 48_power.md: the requests of one frame. One
lemma runs such a request from acceptance to its return; each command says its frame and what it keeps. -/

namespace Sys2Proof.Machine

/-- The address field of a frame, by division (20_memory.md R65). -/
theorem addrBytes_eq_addressField (a : Nat) : addrBytes a = addressField a := by
  simp [addrBytes, addressField, Nat.shiftRight_eq_div_pow]

/-- A request in flight whose position is a return performs it (00_scope.md R14). -/
theorem exec_at_ret {i : Instr} {s : State} {r : Response} (hpos : s.pos = .ret r)
    (hph : s.phase ≠ .idle) (hf : s.faults = []) (hr : s.req = some (.command i)) :
    exec i s = .next (s.respond r) :=
  exec_of_ret hph ⟨hf, hr, hpos, rfl⟩

/-- A request that does not poll, about to send its command frame, returns `OK` with its data after a full
count, and `TRANSPORT_ERROR` after another (40_framing.md R134). -/
theorem exec_command_of_not_polls {i : Instr} {s : State} {ph : Phase} {rx : List Byte} {cnt : Int}
    {v : Env} (hp : i.polls = false) (hfr : i.framable = true) (hph : ph ≠ .idle)
    (hat : s.standsAt i .command ph)
    (hx : exchange s.cfg (encode s.cfg i) s.env = (.answered cnt rx, v)) :
    ∃ u : State, exec i s = .next u ∧ (cnt = (encode s.cfg i).length → u.phase = .commandIssued) ∧
      exec i u = .next (({ s with env := v }.log (.xfer s.chan (encode s.cfg i) cnt rx)).respond
        (transactionResponse cnt (encode s.cfg i).length ((ruleOf s.cfg i).data rx))) := by
  have htxn := exec_txn hat hph rfl rfl fun _ => hfr
  obtain ⟨hf, hr, -, hphase⟩ := hat
  by_cases hc : cnt = (encode s.cfg i).length
  · rw [hc] at hx ⊢
    rw [State.txn_ok hx] at htxn
    refine ⟨_, htxn, fun _ => rfl, ?_⟩
    have hret : i.posAfter s.cfg rx s.polls .command = .ret ⟨.ok, (ruleOf s.cfg i).data rx⟩ := by
      simp [Instr.posAfter, hp]
    refine Eq.trans (exec_at_ret hret (by simp [Instr.phaseAfter]) hf hr) ?_
    simp [State.respond, State.log, Instr.afterAnswer, Instr.pollsAfter, transactionResponse, hp]
  · rw [State.txn_failed hx hc] at htxn
    refine ⟨_, htxn, fun h => absurd h hc, ?_⟩
    refine Eq.trans (exec_at_ret rfl (hphase ▸ hph) hf hr) ?_
    simp [State.respond, State.log, State.willReturn, transactionResponse, hc]

/-- The runs of a request that is neither mutating nor absent: `UNBOUND`, or its command frame and its
return. -/
theorem oneFrame_of_not_mutating {i : Instr} {frame : Config → List Byte}
    {kept : Config → List Byte → RespData} (hm : i.toCommand.mutating = false)
    (hfr : i.framable = true) (hframe : ∀ c, encode c i = frame c)
    (hkept : ∀ c rx, (ruleOf c i).data rx = kept c rx) : oneFrame i frame kept := by
  intro s hw
  refine ⟨exec_of_unbound hw, fun ch cnt rx v hc hx => ?_⟩
  have hp := Instr.not_polls_of_not_mutating hm
  have habs : i.absentIn s.cfg = false := by
    cases i
    case blockErase32K => cases hm
    all_goals rfl
  have hstart : (ruleOf s.cfg i).start = .command := by
    have hpp : i.toCommand ≠ .pageProgram := fun h => by
      rw [Instr.mutating_of_pageProgram h] at hm
      cases hm
    simp [ruleOf_start, hpp, hm]
  have haccept := exec_accepts hw (by simp [hc]) habs hfr
  rw [hstart] at haccept
  rw [← hframe] at hx ⊢
  obtain ⟨u, hu, hphase, hret⟩ := exec_command_of_not_polls
    (s := { s with req := some (.command i), phase := .accepted, pos := .command })
    hp hfr (ph := .accepted) (by simp) ⟨hw.1, rfl, rfl, rfl⟩ hx
  refine ⟨_, u, haccept, rfl, hu, hphase, hret.trans ?_⟩
  obtain ⟨-, hidle, hr, hpos⟩ := hw
  simp [State.respond, State.log, hc, hidle, hr, hpos, hkept]

/-- Settles O19: the two-byte frame, of whose answer byte 1 is kept. -/
theorem readStatusReturnsTheStatusByte : Obligations.ReadStatusReturnsTheStatusByte :=
  oneFrame_of_not_mutating rfl rfl (fun _ => rfl) fun _ _ => rfl

/-- Settles O20: the four-byte frame, of whose answer bytes 1 to 3 are kept. -/
theorem readJedecIdReturnsThreeBytes : Obligations.ReadJedecIdReturnsThreeBytes :=
  oneFrame_of_not_mutating rfl rfl (fun _ => rfl) fun _ _ => rfl

/-- Settles O21: the frame with four reserved bytes, of whose answer the last `UID_LEN` are kept. -/
theorem readUniqueIdReturnsUidLenBytes : Obligations.ReadUniqueIdReturnsUidLenBytes :=
  oneFrame_of_not_mutating rfl rfl (fun _ => rfl) fun _ _ => rfl

/-- Settles O22: the frame of an operand in range, and the faults of one out of range. -/
theorem readReturnsTheDataSlice : Obligations.ReadReturnsTheDataSlice :=
  fun x _ => ⟨fun hx => oneFrame_of_not_mutating rfl hx
    (fun _ => congrArg (fun A => 0x03#8 :: (A ++ _)) (addrBytes_eq_addressField x.address))
    fun _ _ => rfl, addressFaults_all _⟩

/-- Settles O23: as for READ, with the dummy byte. -/
theorem fastReadReturnsTheDataSlice : Obligations.FastReadReturnsTheDataSlice :=
  fun x _ => ⟨fun hx => oneFrame_of_not_mutating rfl hx
    (fun _ => congrArg (fun A => 0x0B#8 :: (A ++ _ ++ _)) (addrBytes_eq_addressField x.address))
    fun _ _ => rfl, addressFaults_all _⟩

/-- Settles O24: three frames of one byte, of whose answers nothing is kept. -/
theorem latchAndPowerCommandsAreOneByte : Obligations.LatchAndPowerCommandsAreOneByte :=
  ⟨oneFrame_of_not_mutating rfl rfl (fun _ => rfl) fun _ _ => rfl,
    oneFrame_of_not_mutating rfl rfl (fun _ => rfl) fun _ _ => rfl,
    oneFrame_of_not_mutating rfl rfl (fun _ => rfl) fun _ _ => rfl⟩

end Sys2Proof.Machine
end

section
/-! SUPPORT. 45_busy_poller.md, 46_page_program.md, 47_erase.md: the events of the mutating requests. -/

namespace Sys2Proof.Machine

/-- Bit 0 of a status byte as a number (42_status_id.md R181). -/
theorem busy_iff (b : Byte) : busy b = true ↔ b.toNat % 2 = 1 := by
  simp [busy, BitVec.getLsbD]

/-- A status frame of the poll that is answered in full. -/
theorem exec_pollRead {i : Instr} {s : State} {ph : Phase} {rx : List Byte} {v : Env}
    (hi : i.polls = true) (hph : ph ≠ .idle) (hat : s.standsAt i .pollRead ph)
    (hx : exchange s.cfg [0x05#8, s.cfg.padByte] s.env = (.answered 2 rx, v)) :
    exec i s = .next (i.afterAnswer .pollRead rx
      ({ s with env := v }.log (.xfer s.chan [0x05#8, s.cfg.padByte] 2 rx))) :=
  exec_answered hat hph hi rfl (fun h => by cases h) hx

/-- Settles O31: the three outcomes of a status read of the poll. -/
theorem pollReadDecidesOnBusyAlone : Obligations.PollReadDecidesOnBusyAlone := by
  intro i s ph rx v hi hph hat hx
  rw [exec_pollRead hi hph hat hx]
  congr 1
  cases hb : busy (byteAt rx 1) with
  | true =>
    rw [if_pos ((busy_iff _).1 hb)]
    simp only [Instr.afterAnswer, State.log, Instr.phaseAfter, Instr.pollsAfter, Instr.posAfter, hb]
    rfl
  | false =>
    rw [if_neg fun h => by rw [(busy_iff _).2 h] at hb; cases hb]
    simp [Instr.afterAnswer, State.log, Instr.phaseAfter, Instr.pollsAfter, Instr.posAfter, hb]

/-- Settles O32: the delay's event, for each kind of poll. -/
theorem pollDelayCarriesTheKindsInterval : Obligations.PollDelayCarriesTheKindsInterval :=
  fun _ _ hph => ⟨fun _ _ => exec_of_pollDelay rfl hph, fun _ => exec_of_pollDelay rfl hph,
    fun _ => exec_of_pollDelay rfl hph, fun _ => exec_of_pollDelay rfl hph, exec_of_pollDelay rfl hph⟩

/-- A poll read that is not busy, then the return of `OK` (45_busy_poller.md R230). -/
theorem exec_pollRead_ready {i : Instr} {s t : State} {ph : Phase} {rx : List Byte} {v : Env}
    (hi : i.polls = true) (hph : ph ≠ .idle) (hat : s.standsAt i .pollRead ph)
    (hx : exchange s.cfg [0x05#8, s.cfg.padByte] s.env = (.answered 2 rx, v))
    (hb : busy (byteAt rx 1) = false)
    (ht : ({ s with env := v }.log (.xfer s.chan [0x05#8, s.cfg.padByte] 2 rx)).respond
      ⟨.ok, i.keeps s.cfg []⟩ = t) :
    ∃ x, exec i s = .next x ∧ exec i x = .next t := by
  refine ⟨_, exec_pollRead hi hph hat hx, ?_⟩
  obtain ⟨hf, hr, -, hphase⟩ := hat
  have hret : i.posAfter s.cfg rx s.polls .pollRead = .ret ⟨.ok, i.keeps s.cfg []⟩ := by
    simp [Instr.posAfter, hb]
  refine Eq.trans (exec_at_ret hret ?_ hf hr) ?_
  · simpa [Instr.phaseAfter, hb, hphase] using hph
  · rw [← ht]
    simp [Instr.afterAnswer, State.respond, State.log, Instr.pollsAfter, hb]

/-- The command frame of a mutating request, answered in full: the poll from zero busy reads, or the return
of `OK`, is next (47_erase.md R280). -/
theorem exec_command_of_mutating {i : Instr} {s : State} {rx : List Byte} {v : Env}
    (hfr : i.framable = true) (hat : s.standsAt i .command .writeEnabled)
    (hx : exchange s.cfg (encode s.cfg i) s.env = (.answered (encode s.cfg i).length rx, v)) :
    exec i s = .next { s with
      phase := .commandIssued
      pos := if i.polls then .pollRead else .ret ⟨.ok, (ruleOf s.cfg i).data rx⟩
      polls := if i.polls then 0 else s.polls
      env := v
      trace := s.trace ++ [.xfer s.chan (encode s.cfg i) (encode s.cfg i).length rx] } :=
  exec_answered hat (by simp) rfl rfl (fun _ => hfr) hx

/-- WRITE_ENABLE of a mutating request, answered in full: the command frame is next (44_write_latch.md
R222). -/
theorem exec_writeEnable {i : Instr} {s : State} {ph : Phase} {rx : List Byte} {v : Env}
    (hm : i.toCommand.mutating = true) (hph : ph ≠ .idle) (hat : s.standsAt i .writeEnable ph)
    (hx : exchange s.cfg [0x06#8] s.env = (.answered 1 rx, v)) :
    exec i s = .next { s with
      phase := .writeEnabled
      pos := .command
      env := v
      trace := s.trace ++ [.xfer s.chan [0x06#8] 1 rx] } :=
  exec_answered hat hph hm rfl (fun h => by cases h) hx

end Sys2Proof.Machine
end

section
/-! SUPPORT. 46_page_program.md R260, 47_erase.md R280: the sequences of the mutating requests, assembled
from their events. -/

namespace Sys2Proof.Machine

/-- The runs of an erase that the configuration has, whose frame is `frame` (47_erase.md R280). -/
theorem eraseSequence_of_erase {i : Instr} {frame : List Byte} {wait : Bool}
    (hm : i.toCommand.mutating = true) (hpp : i.toCommand ≠ .pageProgram) (hfr : i.framable = true)
    (hwait : i.polls = wait) (hframe : ∀ c, encode c i = frame)
    (hdata : ∀ c rx, (ruleOf c i).data rx = .nothing) (hkeeps : ∀ c, i.keeps c [] = .nothing) :
    eraseSequence i frame wait := by
  intro s hw habs ch rx1 rx2 v1 v2 hc hx1 hx2
  rw [← hframe s.cfg] at hx2 ⊢
  have haccept := exec_accepts hw (by simp [hc]) habs hfr
  simp only [ruleOf_start, hpp, hm, if_false, if_true] at haccept
  obtain ⟨hf, hidle, hr, hpos⟩ := hw
  refine ⟨_, _, _, haccept, rfl, exec_writeEnable hm (ph := .accepted) (by simp) ⟨hf, rfl, rfl, rfl⟩ hx1,
    rfl, exec_command_of_mutating hfr ⟨hf, rfl, rfl, rfl⟩ hx2, by simp [hc, hwait, hdata],
    fun hno => ?_, fun hyes rx3 v3 hx3 hb => ?_⟩
  · refine Eq.trans (exec_at_ret (r := ⟨.ok, .nothing⟩) ?_ ?_ hf rfl) ?_
    · simp [hwait, hno, hdata]
    · simp
    · simp [State.respond, State.log, hwait, hno, hidle, hr, hpos, hc]
  · rw [← hwait] at hyes
    refine exec_pollRead_ready hyes (ph := .commandIssued) (by simp) ⟨hf, rfl, by simp [hyes], rfl⟩
      hx3 hb ?_
    simp [State.respond, State.log, hyes, hidle, hr, hpos, hc, hkeeps]

/-- Settles O25: the frame of a sector in the window, and the fault of one outside. -/
theorem sectorEraseRunsTheEraseSequence : Obligations.SectorEraseRunsTheEraseSequence := by
  refine fun n wait => ⟨fun hn => ?_, addressFaults_all _⟩
  refine eraseSequence_of_erase rfl (by simp [Instr.toCommand]) (decide_eq_true hn) rfl (fun _ => ?_)
    (fun _ _ => rfl) fun _ => rfl
  exact congrArg (0x20#8 :: ·) ((addrBytes_eq_addressField _).trans (congrArg _ (Nat.shiftLeft_eq _ _)))

/-- Settles O26: the frames of the blocks in the window, the faults of those outside, and the refusal. -/
theorem blockErasesRunTheEraseSequence : Obligations.BlockErasesRunTheEraseSequence := by
  refine fun b wait => ⟨fun hb => ?_, addressFaults_all _, fun hb => ?_, addressFaults_all _,
    fun s hw hc he => ?_, fun c => ⟨rfl, by simp [Instr.absentIn]⟩⟩
  · refine eraseSequence_of_erase rfl (by simp [Instr.toCommand]) (decide_eq_true hb) rfl (fun _ => ?_)
      (fun _ _ => rfl) fun _ => rfl
    exact congrArg (0x52#8 :: ·) ((addrBytes_eq_addressField _).trans (congrArg _ (Nat.shiftLeft_eq _ _)))
  · refine eraseSequence_of_erase rfl (by simp [Instr.toCommand]) (decide_eq_true hb) rfl (fun _ => ?_)
      (fun _ _ => rfl) fun _ => rfl
    exact congrArg (0xD8#8 :: ·) ((addrBytes_eq_addressField _).trans (congrArg _ (Nat.shiftLeft_eq _ _)))
  · rw [acceptanceDecidesInPriorityOrder _ _ hw]
    simp [hc, Instr.absentIn, he]

/-- Settles O27: the one-byte frame. -/
theorem chipEraseRunsTheEraseSequence : Obligations.ChipEraseRunsTheEraseSequence := fun _ =>
  eraseSequence_of_erase rfl (by simp [Instr.toCommand]) rfl rfl (fun _ => rfl) (fun _ _ => rfl)
    fun _ => rfl

/-- A busy pre-check that reads a status that is not busy puts WRITE_ENABLE next (46_page_program.md
R262). -/
theorem exec_busyCheck_ready {i : Instr} {s : State} {ph : Phase} {rx : List Byte} {v : Env}
    (hi : i.toCommand = .pageProgram) (hph : ph ≠ .idle) (hat : s.standsAt i .busyCheck ph)
    (hx : exchange s.cfg [0x05#8, s.cfg.padByte] s.env = (.answered 2 rx, v))
    (hb : busy (byteAt rx 1) = false) :
    exec i s = .next { s with
      phase := .busyChecked
      pos := .writeEnable
      env := v
      trace := s.trace ++ [.xfer s.chan [0x05#8, s.cfg.padByte] 2 rx] } := by
  rw [exec_answered hat hph (decide_eq_true hi) rfl (fun h => by cases h) hx]
  simp [Instr.afterAnswer, State.log, Instr.phaseAfter, Instr.pollsAfter, Instr.posAfter, hb]

/-- Settles O30: acceptance, the pre-check, WRITE_ENABLE, the command frame, and the poll. -/
theorem pageProgramRunsItsSequence : Obligations.PageProgramRunsItsSequence := by
  intro x d s ch rx1 rx2 rx3 v1 v2 v3 hw hc hx hd hx1 hb1 hx2 hx3
  have hfr : (Instr.pageProgram x d).framable = true := by
    simp [Instr.framable, hx, hd, Config.pageSize]
  have hframe : encode s.cfg (.pageProgram x d) = 0x02#8 :: addressField x.address ++ d :=
    congrArg (fun A => 0x02#8 :: (A ++ d)) (addrBytes_eq_addressField x.address)
  have hlen : (encode s.cfg (.pageProgram x d)).length = 4 + d.length := encode_length s.cfg _
  have haccept := exec_accepts hw (by simp [hc]) rfl hfr
  obtain ⟨hf, hidle, hr, hpos⟩ := hw
  rw [← hframe, ← hlen] at hx3 ⊢
  refine ⟨_, _, _, _, haccept, rfl,
    exec_busyCheck_ready rfl (ph := .accepted) (by simp) ⟨hf, rfl, rfl, rfl⟩ hx1 hb1, rfl,
    exec_writeEnable rfl (ph := .busyChecked) (by simp) ⟨hf, rfl, rfl, rfl⟩ hx2, rfl,
    exec_command_of_mutating hfr ⟨hf, rfl, rfl, rfl⟩ hx3, by simp [hc, Instr.polls],
    fun rx4 v4 hx4 hb4 => ?_⟩
  refine exec_pollRead_ready rfl (ph := .commandIssued) (by simp) ⟨hf, rfl, rfl, rfl⟩ hx4 hb4 ?_
  simp [State.respond, State.log, hc, hidle, hr, hpos, Instr.keeps, Instr.polls, hlen]

end Sys2Proof.Machine
end

section
/-! SUPPORT. 45_busy_poller.md R230, R233: the poll as a run. One round is a busy read and its delay; a poll
is rounds, then the read that ends it. -/

namespace Sys2Proof.Machine

/-- A run of one request, continued. -/
theorem execTimes_add {i : Instr} {j k : Nat} {s t : State} (h : execTimes i j s = .next t) :
    execTimes i (j + k) s = execTimes i k t := by
  induction j generalizing s with
  | zero => cases h; rw [Nat.zero_add]
  | succ j ih =>
    rw [execTimes] at h
    split at h
    · rename_i u hu
      rw [Nat.add_right_comm, execTimes_succ hu]
      exact ih h
    · cases h
    · cases h

/-- Two steps of one request. -/
theorem execTimes_two {i : Instr} {s u t : State} (h : exec i s = .next u) (h' : exec i u = .next t) :
    execTimes i 2 s = .next t := by
  rw [execTimes_succ h, execTimes_succ h']
  rfl

/-- The events of one round of the poll: the busy read and its delay. -/
def roundEvents (i : Instr) (c : Config) (ch : Option ChanId) (rx : List Byte) : List Event :=
  [.xfer ch [0x05#8, c.padByte] 2 rx, .delay (pollInterval c i.pollKind)]

/-- The state after one round of the poll whose status frame was answered with `rx`. -/
def State.afterRound (i : Instr) (rx : List Byte) (v : Env) (s : State) : State :=
  { s with
    phase := .polling
    pos := .pollRead
    polls := s.polls + 1
    env := v
    trace := s.trace ++ roundEvents i s.cfg s.chan rx }

/-- A busy read below the bound, and its delay: one round of the poll (45_busy_poller.md R230). -/
theorem exec_pollRead_busy {i : Instr} {s : State} {ph : Phase} {rx : List Byte} {v : Env}
    (hi : i.polls = true) (hph : ph ≠ .idle) (hat : s.standsAt i .pollRead ph)
    (hx : exchange s.cfg [0x05#8, s.cfg.padByte] s.env = (.answered 2 rx, v))
    (hb : busy (byteAt rx 1) = true) (hlt : s.polls + 1 < s.cfg.pollMax) :
    ∃ u, exec i s = .next u ∧ u.req = some (.command i) ∧
      exec i u = .next (s.afterRound i rx v) := by
  refine ⟨_, exec_pollRead hi hph hat hx, ?_⟩
  obtain ⟨hf, hr, -, -⟩ := hat
  refine ⟨hr, Eq.trans (exec_of_pollDelay hi (ph := .polling) (by simp) ⟨hf, hr, ?_, ?_⟩) ?_⟩
  · simp [Instr.posAfter, hb, Nat.not_le.2 hlt]
  · simp [Instr.phaseAfter, hb]
  · simp [Instr.afterAnswer, State.afterRound, roundEvents, State.log, Instr.phaseAfter,
      Instr.pollsAfter, hb]

/-- The busy read that reaches the bound, and the return of `POLL_TIMEOUT` (45_busy_poller.md R230). -/
theorem exec_pollRead_timeout {i : Instr} {s : State} {ph : Phase} {rx : List Byte} {v : Env}
    (hi : i.polls = true) (hph : ph ≠ .idle) (hat : s.standsAt i .pollRead ph)
    (hx : exchange s.cfg [0x05#8, s.cfg.padByte] s.env = (.answered 2 rx, v))
    (hb : busy (byteAt rx 1) = true) (hge : s.cfg.pollMax ≤ s.polls + 1) :
    ∃ u, exec i s = .next u ∧ exec i u = .next
      (({ s with env := v, polls := s.polls + 1 }.log
        (.xfer s.chan [0x05#8, s.cfg.padByte] 2 rx)).respond ⟨.pollTimeout, .nothing⟩) := by
  refine ⟨_, exec_pollRead hi hph hat hx, ?_⟩
  obtain ⟨hf, hr, -, -⟩ := hat
  refine Eq.trans (exec_at_ret (r := ⟨.pollTimeout, .nothing⟩) ?_ ?_ hf hr) ?_
  · simp [Instr.posAfter, hb, hge]
  · simp [Instr.phaseAfter, hb]
  · simp [Instr.afterAnswer, State.respond, State.log, Instr.pollsAfter, hb]

/-- Under the oracle, busy answers below the bound make as many rounds of the poll. -/
theorem execTimes_rounds {i : Instr} (hi : i.polls = true) (busyAnswers : List (List Byte))
    (later : List Answer) (hall : ∀ rx ∈ busyAnswers, rx.length = 2 ∧ busy (byteAt rx 1) = true) :
    ∀ {s : State} {ph : Phase}, ph ≠ .idle → s.standsAt i .pollRead ph → s.env.link = .oracle →
      s.env.answers = busyAnswers.map (fun rx => ⟨2, rx⟩) ++ later →
      s.polls + busyAnswers.length < s.cfg.pollMax →
      ∃ t ph', execTimes i (2 * busyAnswers.length) s = .next t ∧ ph' ≠ .idle ∧
        t.standsAt i .pollRead ph' ∧ t.cfg = s.cfg ∧ t.chan = s.chan ∧ t.env.link = .oracle ∧
        t.env.answers = later ∧ t.polls = s.polls + busyAnswers.length ∧
        t.trace = s.trace ++ busyAnswers.flatMap (roundEvents i s.cfg s.chan) := by
  induction busyAnswers with
  | nil =>
    intro s ph hph hat hl ha _
    exact ⟨s, ph, rfl, hph, hat, rfl, rfl, hl, ha, rfl, by simp⟩
  | cons rx rest ih =>
    intro s ph hph hat hl ha hlt
    obtain ⟨hlen, hb⟩ := hall rx (by simp)
    simp only [List.length_cons] at hlt
    have hx := exchange_oracle (c := s.cfg) (buf := [0x05#8, s.cfg.padByte]) hl ha hlen
    obtain ⟨u, hu, -, hround⟩ := exec_pollRead_busy hi hph hat hx hb (by omega)
    obtain ⟨hf, hr, -, -⟩ := hat
    obtain ⟨t, ph', ht, hph', hat', hcfg, hchan, hl', ha', hpolls, htrace⟩ :=
      ih (fun rx h => hall rx (by simp [h])) (ph := .polling) (by simp)
        (s := s.afterRound i rx { s.env with
          answers := rest.map (fun rx => ⟨2, rx⟩) ++ later, draws := s.env.draws + 2 })
        ⟨hf, hr, rfl, rfl⟩ hl rfl (by simp only [State.afterRound]; omega)
    refine ⟨t, ph', ?_, hph', hat', hcfg, hchan, hl', ha', ?_, ?_⟩
    · rw [List.length_cons, Nat.mul_add, Nat.add_comm, execTimes_add (execTimes_two hu hround)]
      exact ht
    · rw [hpolls, List.length_cons, Nat.add_comm rest.length, ← Nat.add_assoc]
      rfl
    · rw [htrace, List.flatMap_cons, ← List.append_assoc]
      rfl

/-- Settles O33: the rounds of the busy reads, then the read that is not busy. -/
theorem pollEndsReadyAfterFewerBusyReads : Obligations.PollEndsReadyAfterFewerBusyReads := by
  intro i s ph busyAnswers last later hi hph hat hz hl ha hall hlen hb hlt
  obtain ⟨t, ph', ht, hph', hat', hcfg, hchan, hl', ha', hpolls, htrace⟩ :=
    execTimes_rounds hi busyAnswers (⟨2, last⟩ :: later) hall hph hat hl ha (by omega)
  have hx := exchange_oracle (c := t.cfg) (buf := [0x05#8, t.cfg.padByte]) hl' ha' hlen
  obtain ⟨x, hx1, hx2⟩ := exec_pollRead_ready hi hph' hat' hx hb rfl
  refine ⟨_, (execTimes_add ht).trans (execTimes_two hx1 hx2), rfl, rfl, by simp [hcfg], ?_, hat'.1, rfl, ?_⟩
  · exact hpolls.trans (by rw [hz, Nat.zero_add])
  · simp only [State.respond_trace, State.log_trace, htrace, hcfg, hchan, List.append_assoc]
    rfl

/-- The frames and delays of some rounds. -/
theorem roundEvents_count (i : Instr) (c : Config) (ch : Option ChanId) (l : List (List Byte)) :
    (l.flatMap (roundEvents i c ch)).filterMap Event.frame? =
        List.replicate l.length [0x05#8, c.padByte] ∧
      delaysIn (l.flatMap (roundEvents i c ch)) = l.length := by
  induction l with
  | nil => exact ⟨rfl, rfl⟩
  | cons rx l ih =>
    obtain ⟨hframes, hdelays⟩ := ih
    refine ⟨?_, ?_⟩
    · rw [List.flatMap_cons, List.filterMap_append, hframes]
      rfl
    · rw [List.flatMap_cons, delaysIn, List.filter_append, List.length_append]
      rw [delaysIn] at hdelays
      rw [hdelays, Nat.add_comm]
      rfl

/-- Settles O34: the rounds of all busy reads but the last, which reaches the bound. -/
theorem pollTimesOutAfterPollMaxBusyReads : Obligations.PollTimesOutAfterPollMaxBusyReads := by
  intro i s ph busyAnswers later hi hph hat hz hl ha hall hmax hlen
  rcases List.eq_nil_or_concat busyAnswers with rfl | ⟨rounds, last, rfl⟩
  · simp at hlen
    omega
  simp only [List.concat_eq_append, List.length_append, List.length_singleton] at hlen
  obtain ⟨hlast, hb⟩ := hall last (by simp)
  obtain ⟨t, ph', ht, hph', hat', hcfg, hchan, hl', ha', hpolls, htrace⟩ :=
    execTimes_rounds hi rounds (⟨2, last⟩ :: later) (fun rx h => hall rx (by simp [h])) hph hat hl
      (by simpa using ha) (by omega)
  have hx := exchange_oracle (c := t.cfg) (buf := [0x05#8, t.cfg.padByte]) hl' ha' hlast
  obtain ⟨u, hu1, hu2⟩ := exec_pollRead_timeout hi hph' hat' hx hb (by rw [hcfg, hpolls]; omega)
  obtain ⟨hframes, hdelays⟩ := roundEvents_count i s.cfg s.chan rounds
  have hframes' : (rounds.flatMap (roundEvents i s.cfg s.chan) ++
      [Event.xfer s.chan [0x05#8, s.cfg.padByte] 2 last]).filterMap Event.frame? =
        List.replicate s.cfg.pollMax [0x05#8, s.cfg.padByte] := by
    rw [List.filterMap_append, hframes, ← hlen, List.replicate_succ']
    rfl
  rw [show 2 * (rounds.concat last).length = 2 * rounds.length + 2 by simp [Nat.mul_add]]
  refine ⟨_, _, (execTimes_add ht).trans (execTimes_two hu1 hu2), rfl, rfl, rfl, ?_, hat'.1, rfl, ?_,
    hframes', ?_, ?_⟩
  · simp [hpolls, hz, hlen]
  · simp [htrace, hcfg, hchan]
  · rw [framesIn, hframes', List.length_replicate]
  · rw [delaysIn, List.filter_append, List.length_append]
    rw [delaysIn] at hdelays
    rw [hdelays, ← hlen]
    rfl

end Sys2Proof.Machine
end

section
/-! SUPPORT. 45_busy_poller.md R233: every request ends. Each event of a request in flight ends it or
leaves fewer steps, and no more frames and delays than are left. -/

namespace Sys2Proof.Machine

/-- The steps still to come at a position, with a bound of `m` busy reads of which `n` are counted. -/
def stepsLeft (m n : Nat) : Pos → Nat
  | .idle => 0
  | .busyCheck => 2 * m + 3
  | .writeEnable => 2 * m + 2
  | .command => 2 * m + 1
  | .pollRead => 2 * (m - n)
  | .pollDelay => 2 * (m - n) + 1
  | .ret _ => 1

/-- The frames still to come at a position. -/
def framesLeft (m n : Nat) : Pos → Nat
  | .idle | .ret _ => 0
  | .busyCheck => m + 3
  | .writeEnable => m + 2
  | .command => m + 1
  | .pollRead | .pollDelay => m - n

/-- The delays still to come at a position. -/
def delaysLeft (m n : Nat) : Pos → Nat
  | .idle | .ret _ => 0
  | .busyCheck | .writeEnable | .command => m - 1
  | .pollRead => m - n - 1
  | .pollDelay => m - n

/-- A request has ended: a mark is recorded, or a response was returned. -/
def State.ended (t : State) : Prop :=
  t.faults ≠ [] ∨ (t.phase = .idle ∧ t.req = none ∧ t.resp.isSome = true)

/-- A frame is left at a position that sends one, and a step after it. -/
theorem State.left_of_sendsAt {i : Instr} {s : State} (h : s.placedIn i) (hmax : 1 ≤ s.cfg.pollMax)
    (hs : i.sendsAt s.pos = true) :
    1 < stepsLeft s.cfg.pollMax s.polls s.pos ∧ 1 ≤ framesLeft s.cfg.pollMax s.polls s.pos := by
  cases hpos : s.pos <;> rw [hpos] at hs <;> rw [State.placedIn, hpos] at h <;>
    simp only [stepsLeft, framesLeft]
  case idle | pollDelay | ret => cases hs
  case busyCheck | writeEnable | command => omega
  case pollRead =>
    obtain ⟨-, ⟨-, hn⟩ | ⟨-, -, hn⟩⟩ := h <;> omega

/-- After a full answer fewer steps are left, and the frame and delay bounds go down with what was sent. -/
theorem State.left_afterAnswer {i : Instr} {s : State} (h : s.placedIn i) (hmax : 1 ≤ s.cfg.pollMax)
    (hs : i.sendsAt s.pos = true) (rx : List Byte) :
    stepsLeft s.cfg.pollMax (i.pollsAfter rx s.polls s.pos) (i.posAfter s.cfg rx s.polls s.pos) <
        stepsLeft s.cfg.pollMax s.polls s.pos ∧
      1 + framesLeft s.cfg.pollMax (i.pollsAfter rx s.polls s.pos) (i.posAfter s.cfg rx s.polls s.pos) ≤
        framesLeft s.cfg.pollMax s.polls s.pos ∧
      delaysLeft s.cfg.pollMax (i.pollsAfter rx s.polls s.pos) (i.posAfter s.cfg rx s.polls s.pos) ≤
        delaysLeft s.cfg.pollMax s.polls s.pos := by
  cases hpos : s.pos <;> rw [hpos] at hs <;> rw [State.placedIn, hpos] at h
  case idle | pollDelay | ret => cases hs
  case busyCheck =>
    cases hb : busy (byteAt rx 1) <;> simp [stepsLeft, framesLeft, delaysLeft, Instr.posAfter, hb]
    omega
  case writeEnable =>
    simp [stepsLeft, framesLeft, delaysLeft, Instr.posAfter]
    omega
  case command =>
    cases hp : i.polls <;>
      simp [stepsLeft, framesLeft, delaysLeft, Instr.posAfter, Instr.pollsAfter, hp] <;> omega
  case pollRead =>
    have hn : s.polls < s.cfg.pollMax := by
      obtain ⟨-, ⟨-, hn⟩ | ⟨-, -, hn⟩⟩ := h <;> omega
    cases hb : busy (byteAt rx 1)
    · simp [stepsLeft, framesLeft, delaysLeft, Instr.posAfter, hb]
      omega
    · by_cases hlast : s.cfg.pollMax ≤ s.polls + 1 <;>
        simp [stepsLeft, framesLeft, delaysLeft, Instr.posAfter, Instr.pollsAfter, hb, hlast] <;> omega

/-- An event of a request in flight ends it, or leaves it in flight with less to come. -/
theorem InstrStep.descends {i : Instr} {s t : State} (h : InstrStep i s t) (hi : s.Inv)
    (hf : s.faults = []) (hr : s.req = some (.command i)) :
    ∃ events, t.trace = s.trace ++ events ∧
      (t.ended ∧ framesIn events ≤ framesLeft s.cfg.pollMax s.polls s.pos ∧
          delaysIn events ≤ delaysLeft s.cfg.pollMax s.polls s.pos ∨
        t.faults = [] ∧ t.req = some (.command i) ∧
          stepsLeft t.cfg.pollMax t.polls t.pos < stepsLeft s.cfg.pollMax s.polls s.pos ∧
          framesIn events + framesLeft t.cfg.pollMax t.polls t.pos ≤
            framesLeft s.cfg.pollMax s.polls s.pos ∧
          delaysIn events + delaysLeft t.cfg.pollMax t.polls t.pos ≤
            delaysLeft s.cfg.pollMax s.polls s.pos) := by
  obtain ⟨-, -, -, hplaced⟩ := hi.inFlight_command hf hr
  have hmax := hi.config.1
  have hph := State.phase_ne_idle_of_placedIn hplaced
  cases h with
  | stopped idle | rejected idle | accepted idle => exact absurd idle hph
  | returned => exact ⟨_, rfl, .inl ⟨.inr ⟨rfl, rfl, rfl⟩, Nat.zero_le _, Nat.zero_le _⟩⟩
  | delayed _ _ hpos _ =>
    rw [State.placedIn, hpos] at hplaced
    obtain ⟨-, -, -, hn⟩ := hplaced
    refine ⟨_, rfl, .inr ⟨hf, hr, ?_, ?_, ?_⟩⟩ <;> rw [hpos]
    · exact Nat.lt_succ_self _
    · exact (Nat.zero_add _).le
    · show 1 + (s.cfg.pollMax - s.polls - 1) ≤ s.cfg.pollMax - s.polls
      omega
  | unframed => exact ⟨_, rfl, .inl ⟨.inl (by simp [hf]), Nat.zero_le _, Nat.zero_le _⟩⟩
  | @raised buf k v _ _ hs _ _ =>
    obtain ⟨-, hframes⟩ := State.left_of_sendsAt hplaced hmax hs
    exact ⟨[.unanswered s.chan buf, .stopped (.fault k)], by simp,
      .inl ⟨.inl (by simp [hf]), hframes, Nat.zero_le _⟩⟩
  | failed _ _ hs _ _ _ =>
    obtain ⟨hsteps, hframes⟩ := State.left_of_sendsAt hplaced hmax hs
    exact ⟨_, rfl, .inr ⟨hf, hr, hsteps, hframes, Nat.zero_le _⟩⟩
  | answered _ _ hs _ _ =>
    obtain ⟨hsteps, hframes, hdelays⟩ := State.left_afterAnswer hplaced hmax hs _
    exact ⟨_, rfl, .inr ⟨hf, hr, hsteps, hframes, by simpa [delaysIn, Event.isDelay] using hdelays⟩⟩

theorem framesIn_append (es fs : List Event) : framesIn (es ++ fs) = framesIn es + framesIn fs := by
  simp [framesIn]

theorem delaysIn_append (es fs : List Event) : delaysIn (es ++ fs) = delaysIn es + delaysIn fs := by
  simp [delaysIn]

/-- A request in flight in a safe state ends within the steps, frames and delays that are left. -/
theorem execTimes_ends {i : Instr} {s : State} (hi : s.Inv) (hf : s.faults = [])
    (hr : s.req = some (.command i)) :
    ∃ k t events, 1 ≤ k ∧ k ≤ stepsLeft s.cfg.pollMax s.polls s.pos + 1 ∧
      execTimes i k s = .next t ∧ t.ended ∧ t.trace = s.trace ++ events ∧
      framesIn events ≤ framesLeft s.cfg.pollMax s.polls s.pos ∧
      delaysIn events ≤ delaysLeft s.cfg.pollMax s.polls s.pos := by
  obtain ⟨t, ht⟩ := hi.exec_steps hf hr
  have hstep := (exec_steps ht).2
  obtain ⟨events, htrace, ⟨hend, hframes, hdelays⟩ | ⟨hf', hr', hsteps, hframes, hdelays⟩⟩ :=
    hstep.descends hi hf hr
  · exact ⟨1, t, events, le_rfl, Nat.le_add_left 1 _, execTimes_succ ht, hend, htrace, hframes, hdelays⟩
  · obtain ⟨k, u, later, hk, hkn, hrun, hend, htrace', hframes', hdelays'⟩ :=
      execTimes_ends (hstep.keeps_inv hi hf) hf' hr'
    refine ⟨k + 1, u, events ++ later, by omega, by omega, (execTimes_succ ht).trans hrun, hend,
      by rw [htrace', htrace, List.append_assoc], ?_, ?_⟩
    · rw [framesIn_append]; omega
    · rw [delaysIn_append]; omega
termination_by stepsLeft s.cfg.pollMax s.polls s.pos

/-- The most that is left at the first event of a request. -/
theorem left_of_start (c : Config) (i : Instr) (m n : Nat) :
    stepsLeft m n (ruleOf c i).start ≤ 2 * m + 3 ∧ framesLeft m n (ruleOf c i).start ≤ 3 + m ∧
      delaysLeft m n (ruleOf c i).start ≤ m - 1 := by
  rw [ruleOf_start]
  split
  · simp only [stepsLeft, framesLeft, delaysLeft]; omega
  · split <;> simp only [stepsLeft, framesLeft, delaysLeft] <;> omega

/-- Settles O35: acceptance ends the request, or leaves it at its first event. -/
theorem everyRequestEndsWithinItsBound : Obligations.EveryRequestEndsWithinItsBound := by
  intro i s hi hw
  obtain ⟨hf, hidle, hr, hpos⟩ := hw
  have haccept := exec_of_idle (i := i) hf hidle
  have hstep := (exec_steps haccept).2
  have hinv := hstep.keeps_inv hi hf
  have atOnce : ∀ events, (accept i (ruleOf s.cfg i) s).ended →
      (accept i (ruleOf s.cfg i) s).trace = s.trace ++ events → framesIn events = 0 →
      delaysIn events = 0 → ∃ k t events, 1 ≤ k ∧ k ≤ 2 * s.cfg.pollMax + 5 ∧
        execTimes i k s = .next t ∧ t.ended ∧ t.trace = s.trace ++ events ∧
        framesIn events ≤ 3 + s.cfg.pollMax ∧ delaysIn events ≤ s.cfg.pollMax - 1 :=
    fun events hend htrace hframes hdelays =>
      ⟨1, _, events, le_rfl, by omega, execTimes_succ haccept, hend, htrace, by omega, by omega⟩
  generalize accept i (ruleOf s.cfg i) s = t at haccept hstep hinv atOnce
  cases hstep with
  | stopped => exact atOnce _ (.inl (by simp [hf])) rfl rfl rfl
  | rejected => exact atOnce _ (.inr ⟨rfl, rfl, rfl⟩) rfl rfl rfl
  | returned busy | delayed busy | unframed busy | raised busy | failed busy | answered busy =>
    exact absurd hidle busy
  | accepted =>
    obtain ⟨k, t, events, hk, hkn, hrun, hend, htrace, hframes, hdelays⟩ := execTimes_ends hinv hf rfl
    obtain ⟨h1, h2, h3⟩ := left_of_start s.cfg i s.cfg.pollMax s.polls
    exact ⟨k + 1, t, events, by omega, by simp only at hkn; omega, (execTimes_succ haccept).trans hrun,
      hend, htrace, hframes.trans h2, hdelays.trans h3⟩

end Sys2Proof.Machine
end

section
/-! SUPPORT. 20_memory.md R75 to R90: a request's frame at the reference device, with no failure injected on
it: a guard's fault, or the bytes the device defines and the effect of the command. -/

namespace Sys2Proof.Machine

/-- A frame that a guard stops faults (20_memory.md R76). -/
theorem deviceFrame_of_guard {c : Config} {op : Byte} {rest : List Byte} {v : Env} {k : Fault}
    (h : deviceGuard op v.dev = some k) : deviceFrame c (op :: rest) v = .error k := by
  simp only [deviceFrame, h]

section Exchanged

variable {c : Config} {i : Instr} {p : Pos} {buf : List Byte} {v : Env}

/-- A request's frame that a guard stops is not answered. -/
theorem exchange_of_guard (hb : i.frameAt c p = some buf) (hl : v.link = .reference)
    (hfail : v.failures = []) {k : Fault} (hg : deviceGuard (i.commandAt p).opcode v.dev = some k) :
    exchange c buf v = (.raised k, v) := by
  obtain ⟨rest, rfl⟩ := i.frameAt_eq_cons hb
  have hv : ({ v with failures := v.failures.tail } : Env) = v := by cases v; simp_all
  rw [exchange_reference hl (Env.injected_of_nil hfail _), hv, deviceFrame_of_guard hg]

/-- A request's frame that the guards let pass is answered with the bytes the device defines, over free
ones, and its command takes effect. -/
theorem exchange_of_frameAt (hi : i.framable = true) (hb : i.frameAt c p = some buf)
    (hl : v.link = .reference) (hinj : v.injected buf.length = none) (hpd : v.dev.pd = false)
    (hwip : v.dev.wip = true → i.commandAt p = .readStatus) :
    exchange c buf v =
      (.answered buf.length (overlay (freeBytes v.draws buf.length)
        (deviceBytes (i.commandAt p) buf v.dev).1 (deviceBytes (i.commandAt p) buf v.dev).2),
        deviceEffect (i.commandAt p) buf
          (Env.drawn buf.length { v with failures := v.failures.tail })) := by
  have hlen := frameLengthOk_of_frameAt hi hb
  obtain ⟨rest, rfl⟩ := i.frameAt_eq_cons hb
  exact exchange_of_command_of_not_injected hl hinj
    (deviceGuard_none.2 ⟨hpd, fun h => congrArg Command.opcode (hwip h)⟩) hlen

end Exchanged

/-- A request in flight whose frame the guards let pass goes on with the device's answer. -/
theorem exec_at_device {i : Instr} {s : State} {p : Pos} {ph : Phase} {buf : List Byte}
    (hat : s.standsAt i p ph) (hph : ph ≠ .idle) (hs : i.sendsAt p = true)
    (hb : i.frameAt s.cfg p = some buf) (hi : i.framable = true) (hl : s.env.link = .reference)
    (hinj : s.env.injected buf.length = none) (hpd : s.env.dev.pd = false)
    (hwip : s.env.dev.wip = true → i.commandAt p = .readStatus) :
    ∃ rx v, exec i s = .next (i.afterAnswer p rx
        ({ s with env := v }.log (.xfer s.chan buf buf.length rx))) ∧
      rx = overlay (freeBytes s.env.draws buf.length) (deviceBytes (i.commandAt p) buf s.env.dev).1
        (deviceBytes (i.commandAt p) buf s.env.dev).2 ∧
      v = deviceEffect (i.commandAt p) buf
        (Env.drawn buf.length { s.env with failures := s.env.failures.tail }) :=
  ⟨_, _, exec_answered hat hph hs hb (fun _ => hi) (exchange_of_frameAt hi hb hl hinj hpd hwip), rfl, rfl⟩

/-- Settles O49: the guards look at the power state first, and then at the opcode while busy. -/
theorem deviceGuardsRecordTheirFaults : Obligations.DeviceGuardsRecordTheirFaults := by
  intro i s p ph buf hi hat hb hl hfail
  have guarded : ∀ k, deviceGuard (i.commandAt p).opcode s.env.dev = some k →
      exec i s = .next { s with
        faults := [.fault k]
        trace := s.trace ++ [.unanswered s.chan buf, .stopped (.fault k)] } := by
    intro k hg
    have hx := exchange_of_guard hb hl hfail hg
    obtain ⟨hf, hr, rfl, rfl⟩ := id hat
    obtain ⟨-, -, hfr, hplaced⟩ := hi.inFlight_command hf hr
    rw [exec_txn hat (State.phase_ne_idle_of_placedIn hplaced) (sendsAt_of_placedIn hplaced hb) hb
      fun _ => hfr, State.txn_raised hx]
    simp [State.raise, State.log, hf]
  refine ⟨fun hpd => guarded _ (by simp [deviceGuard, hpd]), fun hpd hwip hop => guarded _ ?_⟩
  rw [i.frameAt_head hb] at hop
  have hop' : (i.commandAt p).opcode ≠ Command.readStatus.opcode := fun h => hop (congrArg some h)
  simp [deviceGuard, hpd, hwip, hop']

/-! ## What the device answers -/

/-- A slice of one byte is that byte. -/
theorem byteAt_of_slice {rx : List Byte} {k : Nat} {b : Byte} (h : slice rx k 1 = [b]) :
    byteAt rx k = b := by
  have h0 := congrArg (·[0]?) h
  simp only [slice, List.getElem?_take, List.getElem?_drop] at h0
  simp at h0
  simp [byteAt, h0]

/-- A slice inside a buffer has its length. -/
theorem slice_length {rx : List Byte} {k n : Nat} (h : rx.length = k + n) : (slice rx k n).length = n := by
  simp [slice, h]

/-- The bytes the device defines are read back from the answer, up to their number. -/
theorem getElem?_slice_overlay {bs ds : List Byte} {k n j : Nat} (hlen : k + ds.length ≤ bs.length)
    (hj : j < ds.length) (hjn : j < n) : (slice (overlay bs k ds) k n)[j]? = ds[j]? := by
  have h := congrArg (·[j]?) (slice_overlay bs k ds hlen)
  simpa [slice, List.getElem?_take, hj, hjn] using h

/-- The status byte as a number: bits 7:2, WEL and WIP (20_memory.md R77). -/
theorem statusByte_toNat (d : Dev) :
    (statusByte d).toNat = d.srHigh.toNat * 4 + (d.wel.toNat * 2 + d.wip.toNat) := by
  have hsr := d.srHigh.isLt
  have hwel := d.wel.toNat_lt
  have hwip := d.wip.toNat_lt
  have hflags : d.wel.toNat <<< 1 ||| d.wip.toNat = d.wel.toNat * 2 + d.wip.toNat :=
    shiftLeft_or_eq_add (k := 1) hwip
  have hall := shiftLeft_or_eq_add (k := 2) (a := d.srHigh.toNat) (b := d.wel.toNat * 2 + d.wip.toNat)
    (by omega)
  have h1 : d.srHigh.toNat <<< 2 < 256 := by rw [Nat.shiftLeft_eq]; omega
  have h2 : d.wel.toNat <<< 1 < 256 := by rw [Nat.shiftLeft_eq]; omega
  refine Eq.trans ?_ hall
  rw [← hflags]
  simp only [statusByte, BitVec.toNat_or, BitVec.toNat_shiftLeft, BitVec.truncate_eq_setWidth,
    BitVec.toNat_setWidth, BitVec.toNat_ofBool, Nat.or_assoc]
  rw [Nat.mod_eq_of_lt (a := d.srHigh.toNat) (by omega), Nat.mod_eq_of_lt (a := d.wel.toNat) (by omega),
    Nat.mod_eq_of_lt (a := d.wip.toNat) (by omega), Nat.mod_eq_of_lt h1, Nat.mod_eq_of_lt h2]

/-- What a Page Program leaves at the addresses from its first one on (20_memory.md R86). -/
theorem Memory.read_after_program {m : Memory} {a : Nat} {data : List Byte} (hm : m.wf)
    (he : (Effect.program a data).wf) (d j : Nat) :
    (m.after d (.program a data)).read (a + j) = m.read (a + j) &&& (data[j]?).getD 0xFF#8 := by
  obtain ⟨hpage, ha⟩ := he
  have hlen : a + data.length ≤ Config.arraySize := by
    rw [Config.addrTxLimit] at ha
    rw [Config.arraySize]
    omega
  rw [Memory.after, Memory.read_program hm hlen, if_pos (Nat.le_add_right a j), Nat.add_sub_cancel_left]
  rfl

/-- What an erase leaves inside its region (20_memory.md R87). -/
theorem Memory.read_after_erase (m : Memory) {base size a : Nat} (d : Nat) (h1 : base ≤ a)
    (h2 : a < base + size) : (m.after d (.erase base size)).read a = 0xFF#8 := by
  rw [Memory.after, Memory.read_erase, if_pos ⟨h1, h2⟩]
  rfl

/-! ## Reading commands -/

/-- The answer of a status frame has the status byte at index 1 (20_memory.md R77). -/
theorem byteAt_status_answer (k : Nat) (buf : List Byte) (hb : buf.length = 2) (d : Dev) :
    byteAt (overlay (freeBytes k buf.length) (deviceBytes .readStatus buf d).1
      (deviceBytes .readStatus buf d).2) 1 = statusByte d := by
  refine byteAt_of_slice ?_
  have h := slice_overlay (freeBytes k buf.length) 1 [statusByte d] (by simp [hb])
  simpa [deviceBytes, hb] using h

/-- Settles O50: the answer has the status from before the countdown, whose three cases follow. -/
theorem statusReadReportsThenCountsDown : Obligations.StatusReadReportsThenCountsDown := by
  intro s hi hat hl hfail hpd
  obtain ⟨rx, v, hexec, hrx, hv⟩ := exec_at_device (p := .command) hat (by simp) rfl rfl rfl hl
    (Env.injected_of_nil hfail _) hpd fun _ => rfl
  have hst : byteAt rx 1 = statusByte s.env.dev := hrx ▸ byteAt_status_answer _ _ rfl _
  have hdev : v = Env.countDown _ := hv
  refine ⟨_, hexec, ⟨statusByte s.env.dev, ?_, busy_statusByte _, wel_statusByte _, ?_⟩,
    fun hw => ?_, fun hw hb => ?_, fun hw hb => ?_⟩
  · exact congrArg (fun b => Pos.ret ⟨.ok, .bytes [b]⟩) hst
  · have hwel := s.env.dev.wel.toNat_lt
    have hwip := s.env.dev.wip.toNat_lt
    rw [statusByte_toNat]
    omega
  · simp only [Instr.afterAnswer_env, State.log_env, hdev]
    rw [Env.countDown_of_not_busy (by exact hw)]
    rfl
  · simp only [Instr.afterAnswer_env, State.log_env, hdev]
    rw [Env.countDown_of_busy (by exact hw) (by exact hb)]
    rfl
  · simp only [Instr.afterAnswer_env, State.log_env, hdev]
    rw [Env.countDown_of_last (by exact hw) (by exact hb.le), Env.complete_dev]
    refine ⟨rfl, rfl, rfl, fun a data hp j => ?_, fun base size hp a h1 h2 => ?_, fun e a hp ha => ?_⟩
    · simp only [Env.withDev_dev, Env.drawn_dev, hp, Option.getD_some]
      exact Memory.read_after_program hi.device.mem (hi.device.effect _ hp) _ j
    · simp only [Env.withDev_dev, Env.drawn_dev, hp, Option.getD_some]
      exact Memory.read_after_erase _ _ h1 h2
    · simp only [Env.withDev_dev, Env.drawn_dev, hp, Option.getD_some]
      exact Memory.read_after_of_not_covers hi.device.mem _ (hi.device.effect _ hp) ha

/-- The bytes the device reads from an address in the window (20_memory.md R81). -/
theorem getElem?_readable {m : Memory} {a n j : Nat} (hj : j < n) (ha : a + j ≤ 0xFFFFFF) :
    (readable m a n)[j]? = some (m.read (a + j)) := by
  have hlt : j < min n (Config.addrTxLimit - a) := by
    rw [Config.addrTxLimit]
    omega
  simp [readable, hlt]

theorem readable_length_le (m : Memory) (a n : Nat) : (readable m a n).length ≤ n := by
  simp [readable]

/-- What the device reads for READ (20_memory.md R81). -/
theorem deviceBytes_encode_read {c : Config} {x : AddrOperand} {n : Nat} {d : Dev}
    (hx : x.framable = true) :
    deviceBytes .read (encode c (.read x n)) d = (4, readable d.mem x.address n) := by
  have haddr : frameAddr (encode c (.read x n)) = x.address := frameAddr_of_addrBytes _ (address_lt hx) _
  have hlen : (encode c (.read x n)).length = 4 + n := encode_length _ _
  rw [deviceBytes, haddr, hlen, Nat.add_sub_cancel_left]

/-- What the device reads for FAST_READ (20_memory.md R82). -/
theorem deviceBytes_encode_fastRead {c : Config} {x : AddrOperand} {n : Nat} {d : Dev}
    (hx : x.framable = true) :
    deviceBytes .fastRead (encode c (.fastRead x n)) d = (5, readable d.mem x.address n) := by
  have haddr : frameAddr (encode c (.fastRead x n)) = x.address := by
    have := frameAddr_of_addrBytes Command.fastRead.opcode (address_lt hx) (pad c 1 ++ pad c n)
    rwa [← List.append_assoc] at this
  have hlen : (encode c (.fastRead x n)).length = 5 + n := encode_length _ _
  rw [deviceBytes, haddr, hlen, Nat.add_sub_cancel_left]

/-- A reading command at a ready device leaves the device, and returns the slice of the answer it keeps. -/
theorem exec_reading_at_device {i : Instr} {s : State} {k n : Nat}
    (hk : i.toCommand ∈ [.read, .fastRead, .readJedecId, .readUniqueId])
    (hdata : ∀ rx, (ruleOf s.cfg i).data rx = .bytes (slice rx k n))
    (hlen : (encode s.cfg i).length = k + n) (hi : i.framable = true)
    (hat : s.standsAt i .command .accepted) (hl : s.env.link = .reference) (hfail : s.env.failures = [])
    (hpd : s.env.dev.pd = false) (hwip : s.env.dev.wip = false) :
    ∃ t bs, exec i s = .next t ∧ t.env.dev = s.env.dev ∧ t.pos = .ret ⟨.ok, .bytes bs⟩ ∧
      bs.length = n ∧ bs = slice (overlay (freeBytes s.env.draws (encode s.cfg i).length)
        (deviceBytes i.toCommand (encode s.cfg i) s.env.dev).1
        (deviceBytes i.toCommand (encode s.cfg i) s.env.dev).2) k n := by
  obtain ⟨rx, v, hexec, hrx, hv⟩ := exec_at_device (p := .command) hat (by simp) rfl rfl hi hl
    (Env.injected_of_nil hfail _) hpd fun h => by rw [hwip] at h; cases h
  have hp : i.polls = false := Instr.not_polls_of_not_mutating <| by
    simp only [List.mem_cons, List.not_mem_nil, or_false] at hk
    rcases hk with h | h | h | h <;> rw [h] <;> rfl
  refine ⟨_, slice rx k n, hexec, ?_, ?_, ?_, by rw [hrx]; rfl⟩
  · simp only [Instr.afterAnswer_env, State.log_env, hv, Instr.commandAt]
    cases hc : i.toCommand <;> simp [hc] at hk <;> rfl
  · simp [Instr.posAfter, hp, hdata]
  · refine slice_length ?_
    rw [hrx, overlay_length, freeBytes_length, hlen]

/-- READ and FAST_READ keep the bytes of the array (20_memory.md R81, R82). -/
theorem getElem?_slice_readable {m : Memory} {a d l k n j : Nat} (hl : l = k + n) (hj : j < n)
    (ha : a + j ≤ 0xFFFFFF) :
    (slice (overlay (freeBytes d l) k (readable m a n)) k n)[j]? = some (m.read (a + j)) := by
  have hget := getElem?_readable (m := m) hj ha
  have hlt : j < (readable m a n).length := (List.getElem?_eq_some_iff.1 hget).1
  have hle := readable_length_le m a n
  rw [getElem?_slice_overlay (by rw [freeBytes_length]; omega) hlt hj, hget]

/-- Settles O51: each reading command keeps the slice that the device has filled. -/
theorem readsReturnWhatTheDeviceHolds : Obligations.ReadsReturnWhatTheDeviceHolds := by
  intro s hi hf hph hpos hl hfail hpd hwip
  refine ⟨fun x n hr => ?_, fun x n hr => ?_, fun hr => ?_, fun hr => ?_⟩ <;>
    obtain ⟨-, -, hfr, -⟩ := hi.inFlight_command hf hr
  · have hlen : (encode s.cfg (.read x n)).length = 4 + n := encode_length _ _
    obtain ⟨t, bs, ht, hdev, hret, hn, hbs⟩ := exec_reading_at_device (k := 4) (by simp [Instr.toCommand])
      (fun _ => rfl) hlen hfr ⟨hf, hr, hpos, hph⟩ hl hfail hpd hwip
    refine ⟨t, bs, ht, hdev, hret, hn, fun j hj ha => ?_⟩
    rw [Instr.toCommand, deviceBytes_encode_read hfr, hlen] at hbs
    rw [hbs]
    exact getElem?_slice_readable rfl hj ha
  · have hlen : (encode s.cfg (.fastRead x n)).length = 5 + n := encode_length _ _
    obtain ⟨t, bs, ht, hdev, hret, hn, hbs⟩ := exec_reading_at_device (k := 5) (by simp [Instr.toCommand])
      (fun _ => rfl) hlen hfr ⟨hf, hr, hpos, hph⟩ hl hfail hpd hwip
    refine ⟨t, bs, ht, hdev, hret, hn, fun j hj ha => ?_⟩
    rw [Instr.toCommand, deviceBytes_encode_fastRead hfr, hlen] at hbs
    rw [hbs]
    exact getElem?_slice_readable rfl hj ha
  · obtain ⟨t, bs, ht, hdev, hret, -, hbs⟩ := exec_reading_at_device (n := 3) (by simp [Instr.toCommand])
      (fun _ => rfl) rfl rfl ⟨hf, hr, hpos, hph⟩ hl hfail hpd hwip
    refine ⟨t, ht, hdev, ?_⟩
    rw [hret, hbs]
    exact congrArg (fun b => Pos.ret ⟨.ok, .bytes b⟩)
      (slice_overlay (freeBytes s.env.draws 4) 1 Config.expectedJedec (by simp [Config.expectedJedec]))
  · have hlen : (encode s.cfg .readUniqueId).length = 5 + s.cfg.uidLen.toNat := encode_length _ _
    obtain ⟨t, bs, ht, hdev, hret, -, hbs⟩ := exec_reading_at_device (by simp [Instr.toCommand])
      (fun _ => rfl) hlen rfl ⟨hf, hr, hpos, hph⟩ hl hfail hpd hwip
    refine ⟨t, ht, hdev, ?_⟩
    rw [hret, hbs, ← hi.device.uid]
    exact congrArg (fun b => Pos.ret ⟨.ok, .bytes b⟩)
      (slice_overlay _ 5 s.env.dev.uid (by rw [freeBytes_length, hlen, hi.device.uid]))

/-! ## Latch, power and mutating commands -/

/-- A one-byte command that is not mutating has its effect on a ready device, and returns `OK`. -/
theorem exec_latch_at_device {i : Instr} {s : State} {ph : Phase}
    (hm : i.toCommand.mutating = false) (hi : i.framable = true)
    (hdata : ∀ rx, (ruleOf s.cfg i).data rx = .nothing)
    (hat : s.standsAt i .command ph) (hph : ph ≠ .idle) (hl : s.env.link = .reference)
    (hfail : s.env.failures = []) (hpd : s.env.dev.pd = false) (hwip : s.env.dev.wip = false) :
    ∃ t v, exec i s = .next t ∧ v.dev = s.env.dev ∧
      t.env.dev = (deviceEffect i.toCommand (encode s.cfg i) v).dev ∧ t.pos = .ret ⟨.ok, .nothing⟩ := by
  obtain ⟨rx, v, hexec, -, hv⟩ := exec_at_device (p := .command) hat hph rfl rfl hi hl
    (Env.injected_of_nil hfail _) hpd fun h => by rw [hwip] at h; cases h
  have hp := Instr.not_polls_of_not_mutating hm
  refine ⟨_, Env.drawn (encode s.cfg i).length { s.env with failures := s.env.failures.tail }, hexec, rfl,
    ?_, by simp [Instr.posAfter, hp, hdata]⟩
  rw [Instr.afterAnswer_env, State.log_env, hv]
  rfl

/-- Settles O52: the effects of the three commands. -/
theorem latchAndPowerCommandsActOnTheDevice : Obligations.LatchAndPowerCommandsActOnTheDevice := by
  intro s ph hph hl hfail hpd hwip
  refine ⟨fun hat => ?_, fun hat => ?_, fun hat => ?_⟩ <;>
    obtain ⟨t, v, ht, hv, hdev, hret⟩ :=
      exec_latch_at_device rfl rfl (fun _ => rfl) hat hph hl hfail hpd hwip <;>
    exact ⟨t, ht, hdev.trans (by rw [← hv]; rfl), hret⟩

end Sys2Proof.Machine
end

section
/-! SUPPORT. 20_memory.md R85 to R88: the effect that the command frame of each mutating request starts. -/

namespace Sys2Proof.Machine

/-- The array effect of a mutating request's command frame (20_memory.md R85, R87, R88). -/
def effectOf : Instr → Effect
  | .pageProgram x d => programEffect x.address d
  | .sectorErase k _ => .erase (k * 4096) 4096
  | .blockErase32K k _ => .erase (k * 32768) 32768
  | .blockErase64K k _ => .erase (k * 65536) 65536
  | .chipErase _ => .erase 0 0x2000000
  | _ => .noChange

/-- The device erases the region that holds the framed address, which is the region's first. -/
theorem devErase_frameAddr {op : Byte} {k b n : Nat} (hn : n = 2 ^ b)
    (h : k <<< b < Config.addrTxLimit) (v : Env) :
    v.devErase (frameAddr (op :: addrBytes (k <<< b)) - frameAddr (op :: addrBytes (k <<< b)) % n) n =
      v.devErase (k * n) n := by
  have ha := frameAddr_of_addrBytes op h []
  rw [List.append_nil] at ha
  rw [ha, Nat.shiftLeft_eq, ← hn, Nat.mul_mod_left, Nat.sub_zero]

/-- The frame of an erase starts a busy period with its effect pending, if WEL is set (20_memory.md R87). -/
theorem deviceEffect_erase {c : Config} {i : Instr} (hm : i.toCommand.mutating = true)
    (hpp : i.toCommand ≠ .pageProgram) (hi : i.framable = true) (v : Env) :
    deviceEffect i.toCommand (encode c i) v =
      if v.dev.wel then v.busyDrawn.startBusy (effectOf i) (max 1 v.nextBusy) else v := by
  cases i <;> try cases hm
  case pageProgram x d => exact absurd rfl hpp
  case chipErase w => rfl
  case sectorErase k w => exact devErase_frameAddr (b := 12) rfl (Instr.carries_fields hi).2 v
  case blockErase32K k w => exact devErase_frameAddr (b := 15) rfl (Instr.carries_fields hi).2 v
  case blockErase64K k w => exact devErase_frameAddr (b := 16) rfl (Instr.carries_fields hi).2 v

/-- The one request that emits the Page Program command. -/
theorem eq_pageProgram {i : Instr} (h : i.toCommand = .pageProgram) : ∃ x d, i = .pageProgram x d := by
  cases i <;> cases h
  exact ⟨_, _, rfl⟩

/-- The frame of PAGE_PROGRAM programs its payload at its address (20_memory.md R85). -/
theorem deviceEffect_pageProgram {c : Config} {x : AddrOperand} (hx : x.framable = true)
    (d : List Byte) (v : Env) :
    deviceEffect .pageProgram (encode c (.pageProgram x d)) v = v.devProgram x.address d := by
  obtain ⟨ha, hd⟩ := frameAddr_encode_pageProgram c hx d
  rw [deviceEffect, ha, hd]

/-- A program or erase command while WEL is clear does nothing and draws nothing (20_memory.md R85, R87). -/
theorem deviceEffect_of_wel_clear {c : Config} {i : Instr} (hm : i.toCommand.mutating = true)
    (hi : i.framable = true) {v : Env} (hw : v.dev.wel = false) :
    deviceEffect i.toCommand (encode c i) v = v := by
  by_cases hpp : i.toCommand = .pageProgram
  · obtain ⟨x, d, rfl⟩ := eq_pageProgram hpp
    simp only [Instr.framable, Bool.and_eq_true] at hi
    rw [Instr.toCommand, deviceEffect_pageProgram hi.1, Env.devProgram, hw]
    rfl
  · rw [deviceEffect_erase hm hpp hi, hw]
    rfl

/-- With WEL set and a busy count of at least 1, a busy period of that count starts. -/
theorem deviceEffect_starts {c : Config} {i : Instr} (hm : i.toCommand.mutating = true)
    (hi : i.framable = true) {v : Env} (hw : v.dev.wel = true) (hn : 1 ≤ v.nextBusy) :
    deviceEffect i.toCommand (encode c i) v = v.busyDrawn.startBusy (effectOf i) v.nextBusy := by
  by_cases hpp : i.toCommand = .pageProgram
  · obtain ⟨x, d, rfl⟩ := eq_pageProgram hpp
    simp only [Instr.framable, Bool.and_eq_true] at hi
    rw [Instr.toCommand, deviceEffect_pageProgram hi.1, Env.devProgram, if_pos hw,
      if_neg (Nat.ne_of_gt hn)]
    rfl
  · rw [deviceEffect_erase hm hpp hi, if_pos hw, Nat.max_eq_right hn]

/-- The busy count that is drawn, and the counts that are left. -/
theorem Env.nextBusy_cons {v : Env} {m : Nat} {ms : List Nat} (h : v.busyFor = m :: ms) :
    v.nextBusy = m ∧ v.busyDrawn.busyFor = ms := by
  simp [Env.nextBusy, Env.busyDrawn, h]

/-- A Page Program drawn as 0 lands at once and clears WEL (20_memory.md R85). -/
theorem Env.devProgram_of_zero {v : Env} (hw : v.dev.wel = true) (hn : v.nextBusy = 0) (a : Nat)
    (data : List Byte) :
    v.devProgram a data = (v.busyDrawn.applyEffect (programEffect a data)).withDev fun d =>
      { d with wel := false } := by
  rw [Env.devProgram, if_pos hw, if_pos hn]

/-- With WEL set, a mutating frame draws one busy count. -/
theorem deviceEffect_busyFor {c : Config} {i : Instr} (hm : i.toCommand.mutating = true)
    (hi : i.framable = true) {v : Env} (hw : v.dev.wel = true) :
    (deviceEffect i.toCommand (encode c i) v).busyFor = v.busyDrawn.busyFor := by
  rcases Nat.eq_zero_or_pos v.nextBusy with hn | hn
  · by_cases hpp : i.toCommand = .pageProgram
    · obtain ⟨x, d, rfl⟩ := eq_pageProgram hpp
      simp only [Instr.framable, Bool.and_eq_true] at hi
      rw [Instr.toCommand, deviceEffect_pageProgram hi.1, Env.devProgram_of_zero hw hn]
      simp
    · rw [deviceEffect_erase hm hpp hi, if_pos hw]
      rfl
  · rw [deviceEffect_starts hm hi hw hn]
    rfl

/-- The effect of a Page Program, with its page by division. -/
theorem programEffect_eq (a : Nat) (d : List Byte) :
    programEffect a d =
      if d.length = 0 then .noChange
      else if a % 256 + d.length ≤ 256 then .program a d
      else .havocPage (a / 256 * 256) := by
  have h : a - a % 256 = a / 256 * 256 := by omega
  rw [programEffect, Config.pageSize, h]

/-- Settles O53: the frame has its command's effect, whose cases are WEL and the count drawn. -/
theorem mutatingFramesStartTheirEffect : Obligations.MutatingFramesStartTheirEffect := by
  intro i s e hi hat hl hinj hpd hwip he
  obtain ⟨hf, hr, -, -⟩ := id hat
  obtain ⟨-, -, hfr, -⟩ := hi.inFlight_command hf hr
  obtain ⟨hm, he⟩ : i.toCommand.mutating = true ∧ e = effectOf i := by
    cases i
    case pageProgram => exact ⟨rfl, he.trans (programEffect_eq _ _).symm⟩
    case sectorErase | blockErase32K | blockErase64K | chipErase => exact ⟨rfl, he⟩
    all_goals exact he.elim
  subst he
  obtain ⟨rx, v, hexec, -, hv⟩ := exec_at_device (p := .command) hat (by simp) rfl rfl hfr hl hinj hpd
    fun h => by rw [hwip] at h; cases h
  have hv : v = deviceEffect i.toCommand (encode s.cfg i)
    (Env.drawn (encode s.cfg i).length { s.env with failures := s.env.failures.tail }) := hv
  set w := Env.drawn (encode s.cfg i).length { s.env with failures := s.env.failures.tail } with hw
  have hwdev : w.dev = s.env.dev := rfl
  have hwbusy : w.busyFor = s.env.busyFor := rfl
  refine ⟨_, hexec, fun hwel => ?_, fun hwel => ⟨w.nextBusy, fun m ms hb => ?_, fun hn => ?_,
    fun hn hpp => ?_, fun hn hpp => ?_⟩⟩ <;>
    simp only [Instr.afterAnswer_env, State.log_env]
  · rw [hv, deviceEffect_of_wel_clear hm hfr (by rw [hwdev, hwel])]
    exact ⟨rfl, rfl⟩
  · obtain ⟨hnext, hrest⟩ := Env.nextBusy_cons (hwbusy.trans hb)
    exact ⟨hnext, by rw [hv, deviceEffect_busyFor hm hfr (hwdev ▸ hwel), hrest]⟩
  · rw [hv, deviceEffect_starts hm hfr (hwdev ▸ hwel) hn]
    simp [hwdev]
  · rw [hv, deviceEffect_erase hm hpp hfr, if_pos (hwdev ▸ hwel), hn]
    simp [hwdev]
  · obtain ⟨x, d, rfl⟩ := eq_pageProgram hpp
    simp only [Instr.framable, Bool.and_eq_true] at hfr
    have hwf : (programEffect x.address d).wf := programEffect_wf (address_lt hfr.1)
    rw [hv, Instr.toCommand, deviceEffect_pageProgram hfr.1, Env.devProgram_of_zero (hwdev ▸ hwel) hn]
    simp only [Env.withDev_dev, Env.applyEffect_dev, Env.busyDrawn_dev, hwdev, effectOf]
    refine ⟨hwip, trivial, hi.device.notBusy hwip, fun a data hp j => ?_, fun a ha => ?_⟩
    · rw [hp] at hwf ⊢
      exact Memory.read_after_program hi.device.mem hwf _ j
    · exact Memory.read_after_of_not_covers hi.device.mem _ hwf ha

end Sys2Proof.Machine
end

section
/-! SUPPORT. 20_memory.md R92: runs of the machine at the reference device. A frame leaves the block served
by the device as its command made it; requests are then assembled from their frames. -/

namespace Sys2Proof.Machine

/-! ## Runs of the machine -/

/-- The machine gets from one state to another in some number of steps. -/
def State.reaches (s t : State) : Prop := ∃ j, stepTimes j s = .next t

theorem State.reaches.trans {s t u : State} (h : s.reaches t) (h' : t.reaches u) : s.reaches u := by
  obtain ⟨j, hj⟩ := h
  obtain ⟨k, hk⟩ := h'
  exact ⟨j + k, stepTimes_add hj hk⟩

/-- One event of the request in flight is a step of the machine. -/
theorem State.reaches_of_exec {i : Instr} {s t : State} (hf : s.faults = [])
    (hr : s.req = some (.command i)) (h : exec i s = .next t) : s.reaches t :=
  ⟨1, stepTimes_succ ((step_of_req hf hr).trans h)⟩

/-- A request whose frame can be built is a request of the closed set. -/
theorem Instr.wf_of_framable {i : Instr} (h : i.framable = true) : i.wf = true := by
  have operand : ∀ x : AddrOperand, x.framable = true → x.wf = true := by
    intro x hx
    cases x <;> simp only [AddrOperand.framable, AddrOperand.wf, isNat32, Bool.and_eq_true,
      decide_eq_true_eq] at hx ⊢
    case linear => exact hx.trans (by simp [Config.addrTxLimit])
    case sectorOff => omega
  cases i <;> simp only [Instr.framable, Instr.wf, isNat32, Bool.and_eq_true, decide_eq_true_eq] at h ⊢
  case read | fastRead => exact operand _ h
  case pageProgram => exact operand _ h.1
  all_goals omega

/-! ## A block that the device serves -/

/-- A bound block of the configuration `c`, without a mark, with the host's requests `l` to come, at the
reference device `d` with the busy counts `ns` and no failure laid out. -/
structure State.Served (c : Config) (l : List Request) (ns : List Nat) (d : Dev) (s : State) : Prop where
  cfg : s.cfg = c
  chan : s.chan ≠ none
  host : s.host = l
  unmarked : s.faults = []
  link : s.env.link = .reference
  failures : s.env.failures = []
  busyFor : s.env.busyFor = ns
  dev : s.env.dev = d

section Served

variable {c : Config} {l : List Request} {ns : List Nat} {d : Dev} {i : Instr} {s : State}

/-- A device that is ready carries out any frame of a request. -/
theorem State.Served.exec_frame {p : Pos} {ph : Phase} {buf : List Byte} (hs : s.Served c l ns d)
    (hat : s.standsAt i p ph) (hph : ph ≠ .idle) (hi : i.framable = true) (hsends : i.sendsAt p = true)
    (hb : i.frameAt c p = some buf) (hpd : d.pd = false)
    (hwip : d.wip = true → i.commandAt p = .readStatus) :
    ∃ (t : State) (rx : List Byte) (n : Nat) (w : Env), s.reaches t ∧
      rx = overlay (freeBytes n buf.length) (deviceBytes (i.commandAt p) buf d).1
        (deviceBytes (i.commandAt p) buf d).2 ∧
      w.dev = d ∧ w.busyFor = ns ∧
      t.Served c l (deviceEffect (i.commandAt p) buf w).busyFor (deviceEffect (i.commandAt p) buf w).dev ∧
      t.standsAt i (i.posAfter c rx s.polls p) (Instr.phaseAfter rx ph p) ∧
      t.polls = i.pollsAfter rx s.polls p := by
  obtain ⟨rfl, hchan, hhost, hf, hl, hfail, hbusy, rfl⟩ := hs
  obtain ⟨rx, v, hexec, hrx, rfl⟩ := exec_at_device hat hph hsends hb hi hl
    (Env.injected_of_nil hfail _) hpd hwip
  obtain ⟨-, hr, -, rfl⟩ := hat
  refine ⟨_, rx, _, Env.drawn buf.length { s.env with failures := s.env.failures.tail },
    State.reaches_of_exec hf hr hexec, hrx, rfl, hbusy, ⟨rfl, hchan, hhost, hf, ?_, ?_,
    rfl, rfl⟩, ⟨hf, hr, rfl, rfl⟩, rfl⟩
  · exact (deviceEffect_keeps _ _ _).1.trans hl
  · exact (deviceEffect_failures _ _ _).trans (congrArg List.tail hfail)

/-- The answer of a status frame reports whether the device is busy (20_memory.md R77). -/
theorem busy_status_answer {rx : List Byte} {n : Nat}
    (h : rx = overlay (freeBytes n [0x05#8, c.padByte].length)
      (deviceBytes .readStatus [0x05#8, c.padByte] d).1
      (deviceBytes .readStatus [0x05#8, c.padByte] d).2) :
    busy (byteAt rx 1) = d.wip := by
  rw [h, byteAt_status_answer _ _ rfl, busy_statusByte]

/-- A request at its return ends. -/
theorem State.Served.exec_return {r : Response} {ph : Phase} (hs : s.Served c l ns d)
    (hat : s.standsAt i (.ret r) ph) (hph : ph ≠ .idle) :
    ∃ t, s.reaches t ∧ t.Served c l ns d ∧ t.waiting ∧ t.resp = some r := by
  obtain ⟨rfl, hchan, hhost, hf, hl, hfail, rfl, rfl⟩ := hs
  obtain ⟨-, hr, -, -⟩ := id hat
  exact ⟨_, State.reaches_of_exec hf hr (exec_of_ret hph hat),
    ⟨rfl, hchan, hhost, hf, hl, hfail, rfl, rfl⟩, ⟨hf, rfl, rfl, rfl⟩, rfl⟩

/-- The host's next request is accepted, with its first event next (40_framing.md R130). -/
theorem State.Served.accepts (hs : s.Served c (.command i :: l) ns d) (hw : s.waiting)
    (ha : i.absentIn c = false) (hi : i.framable = true) :
    ∃ t, s.reaches t ∧ t.Served c l ns d ∧ t.standsAt i (ruleOf c i).start .accepted := by
  obtain ⟨rfl, hchan, hhost, hf, hl, hfail, rfl, rfl⟩ := hs
  obtain ⟨-, hidle, hr, hpos⟩ := hw
  have hstep := (step_of_host hf hr hhost (Instr.wf_of_framable hi)).trans
    (exec_accepts (s := { s with host := l }) ⟨hf, hidle, hr, hpos⟩ hchan ha hi)
  exact ⟨_, ⟨1, stepTimes_succ hstep⟩, ⟨rfl, hchan, rfl, hf, hl, hfail, rfl, rfl⟩, hf, rfl, rfl, rfl⟩

/-! ## Reading -/

/-- READ at a ready device returns bytes of the array (20_memory.md R81). -/
theorem State.Served.runs_read {x : AddrOperand} {n : Nat}
    (hs : s.Served c (.command (.read x n) :: l) ns d) (hw : s.waiting) (hx : x.framable = true)
    (hpd : d.pd = false) (hwip : d.wip = false) :
    ∃ t bs, s.reaches t ∧ t.Served c l ns d ∧ t.waiting ∧ t.resp = some ⟨.ok, .bytes bs⟩ ∧
      bs.length = n ∧
      ∀ j, j < n → x.address + j ≤ 0xFFFFFF → bs[j]? = some (d.mem.read (x.address + j)) := by
  obtain ⟨t, hst, ht, hat⟩ := hs.accepts hw rfl hx
  have hlen : (encode c (.read x n)).length = 4 + n := encode_length _ _
  obtain ⟨u, rx, m, w, htu, hrx, rfl, rfl, hu, hat', -⟩ := ht.exec_frame (p := .command) hat (by simp) hx
    rfl rfl hpd fun h => by rw [hwip] at h; cases h
  obtain ⟨v, huv, hv, hvw, hresp⟩ := hu.exec_return hat' (by simp [Instr.phaseAfter])
  refine ⟨v, slice rx 4 n, (hst.trans htu).trans huv, hv, hvw, hresp, slice_length ?_, fun j hj ha => ?_⟩
  · rw [hrx, overlay_length, freeBytes_length, hlen]
  · have hbytes : deviceBytes .read (encode c (.read x n)) w.dev = (4, readable w.dev.mem x.address n) :=
      deviceBytes_encode_read hx
    simp only [Instr.commandAt, Instr.toCommand, hbytes] at hrx
    rw [hrx]
    exact getElem?_slice_readable hlen hj ha

/-! ## The poll -/

/-- Where an effect on the device `d` has landed: it is ready, and its array is as after the effect. -/
structure Dev.Landed (e : Effect) (d d' : Dev) : Prop where
  pd : d'.pd = false
  wip : d'.wip = false
  mem : ∃ k, d'.mem = d.mem.after k e

/-- One round of the poll at a busy device counts down (45_busy_poller.md R230, 20_memory.md R77). -/
theorem State.Served.poll_round {ph : Phase} (hs : s.Served c l ns d) (hp : i.polls = true)
    (hi : i.framable = true) (hph : ph ≠ .idle) (hat : s.standsAt i .pollRead ph) (hpd : d.pd = false)
    (hwip : d.wip = true) (hlt : s.polls + 1 < c.pollMax) :
    ∃ (t : State) (w : Env), s.reaches t ∧ w.dev = d ∧ w.busyFor = ns ∧
      t.Served c l w.countDown.busyFor w.countDown.dev ∧
      t.standsAt i .pollRead .polling ∧ t.polls = s.polls + 1 := by
  obtain ⟨t, rx, n, w, hst, hrx, rfl, rfl, ht, hat', hpolls⟩ :=
    hs.exec_frame hat hph hi hp rfl hpd fun _ => rfl
  have hb : busy (byteAt rx 1) = true := (busy_status_answer hrx).trans hwip
  simp only [Instr.posAfter, Instr.phaseAfter, Instr.pollsAfter, hb, if_true, if_neg (Nat.not_le.2 hlt)]
    at hat' hpolls
  obtain ⟨hcfg, hchan, hhost, hf, hl, hfail, hbusy, hdev⟩ := ht
  obtain ⟨-, hr, -, hpolling⟩ := id hat'
  exact ⟨_, w, hst.trans (State.reaches_of_exec hf hr (exec_of_pollDelay hp (by simp) hat')), rfl, rfl,
    ⟨hcfg, hchan, hhost, hf, hl, hfail, hbusy, hdev⟩, ⟨hf, hr, rfl, hpolling⟩, hpolls⟩

/-- Polls below the bound reach the end of a busy period, where the pending effect has landed
(20_memory.md R77, R78). -/
theorem State.Served.poll_rounds {e : Effect} (hp : i.polls = true) (hi : i.framable = true) {m : Nat} :
    ∀ {s : State} {ph : Phase} {d : Dev}, s.Served c l ns d → ph ≠ .idle → s.standsAt i .pollRead ph →
      d.pd = false → d.wip = true → d.pending = some e → d.busyLeft = m + 1 →
      s.polls + (m + 1) < c.pollMax →
      ∃ t ph' d', s.reaches t ∧ t.Served c l ns d' ∧ ph' ≠ .idle ∧ t.standsAt i .pollRead ph' ∧
        d.Landed e d' := by
  induction m with
  | zero =>
    intro s ph d hs hph hat hpd hwip hpend hleft hlt
    obtain ⟨t, w, hst, rfl, rfl, ht, hat', -⟩ := hs.poll_round hp hi hph hat hpd hwip (by omega)
    rw [Env.countDown_of_last hwip (by omega), Env.complete_busyFor] at ht
    refine ⟨t, _, _, hst, ht, by simp, hat', ?_, ?_, w.draws, ?_⟩ <;> simp [hpd, hpend]
  | succ m ih =>
    intro s ph d hs hph hat hpd hwip hpend hleft hlt
    obtain ⟨t, w, hst, rfl, rfl, ht, hat', hpolls⟩ := hs.poll_round hp hi hph hat hpd hwip (by omega)
    rw [Env.countDown_of_busy hwip (by omega)] at ht
    obtain ⟨u, ph', d', htu, hu, hph', hat'', hland⟩ := ih ht (by simp) hat' (by simp [hpd])
      (by simp [hwip]) (by simp [hpend]) (by simp; omega) (by omega)
    exact ⟨u, ph', d', hst.trans htu, hu, hph', hat'', hland.pd, hland.wip, hland.mem⟩

/-- A poll at a ready device ends the request (45_busy_poller.md R230). -/
theorem State.Served.poll_ready {ph : Phase} (hs : s.Served c l ns d) (hp : i.polls = true)
    (hi : i.framable = true) (hph : ph ≠ .idle) (hat : s.standsAt i .pollRead ph) (hpd : d.pd = false)
    (hwip : d.wip = false) :
    ∃ t, s.reaches t ∧ t.Served c l ns d ∧ t.waiting := by
  obtain ⟨t, rx, n, w, hst, hrx, rfl, rfl, ht, hat', -⟩ :=
    hs.exec_frame hat hph hi hp rfl hpd fun _ => rfl
  have hb : busy (byteAt rx 1) = false := (busy_status_answer hrx).trans hwip
  simp only [Instr.posAfter, Instr.phaseAfter, hb, Bool.false_eq_true, if_false] at hat'
  simp only [Instr.commandAt, deviceEffect, Env.countDown_of_not_busy hwip] at ht
  obtain ⟨u, htu, hu, huw, -⟩ := ht.exec_return hat' hph
  exact ⟨u, hst.trans htu, hu, huw⟩

/-! ## Mutating requests -/

/-- The command frame of a mutating request that polls, at a ready device with WEL set: the poll is next,
and the effect is pending, or has landed at once (20_memory.md R85, R87). -/
theorem State.Served.exec_mutating_command {k : Nat} (hs : s.Served c l (k :: ns) d)
    (hp : i.polls = true) (hi : i.framable = true) (hat : s.standsAt i .command .writeEnabled)
    (hk : 1 ≤ k ∨ i.toCommand = .pageProgram) (hpd : d.pd = false) (hwip : d.wip = false)
    (hwel : d.wel = true) :
    ∃ t d', s.reaches t ∧ t.Served c l ns d' ∧ t.standsAt i .pollRead .commandIssued ∧ t.polls = 0 ∧
      (d' = { d with pending := some (effectOf i), wip := true, busyLeft := k } ∧ 1 ≤ k ∨
        d.Landed (effectOf i) d') := by
  have hm := Instr.mutating_of_polls hp
  obtain ⟨t, rx, n, w, hst, -, rfl, hwbusy, ht, hat', hpolls⟩ :=
    hs.exec_frame (p := .command) hat (by simp) hi rfl rfl hpd fun h => by rw [hwip] at h; cases h
  obtain ⟨hnext, hrest⟩ := Env.nextBusy_cons hwbusy
  simp only [Instr.commandAt, deviceEffect_busyFor hm hi hwel, hrest] at ht
  simp only [Instr.posAfter, Instr.phaseAfter, Instr.pollsAfter, hp, if_true] at hat' hpolls
  refine ⟨t, _, hst, ht, hat', hpolls, ?_⟩
  rcases Nat.eq_zero_or_pos k with rfl | hpos
  · obtain ⟨x, b, rfl⟩ := eq_pageProgram (hk.resolve_left (by omega))
    simp only [Instr.framable, Bool.and_eq_true] at hi
    rw [Instr.toCommand, deviceEffect_pageProgram hi.1, Env.devProgram_of_zero hwel hnext]
    refine .inr ⟨?_, ?_, w.busyDrawn.draws, ?_⟩ <;> simp [hpd, hwip, effectOf]
  · refine .inl ⟨?_, hpos⟩
    rw [deviceEffect_starts hm hi hwel (by omega), hnext]
    simp

/-- A mutating request that polls, about to send WRITE_ENABLE to a ready device, ends with its effect
landed if the busy count drawn is below the bound of the poll (44_write_latch.md R222). -/
theorem State.Served.runs_mutating {k : Nat} {ph : Phase} (hs : s.Served c l (k :: ns) d)
    (hp : i.polls = true) (hi : i.framable = true) (hph : ph ≠ .idle) (hat : s.standsAt i .writeEnable ph)
    (hk : 1 ≤ k ∨ i.toCommand = .pageProgram) (hlt : k < c.pollMax) (hpd : d.pd = false)
    (hwip : d.wip = false) :
    ∃ t d', s.reaches t ∧ t.Served c l ns d' ∧ t.waiting ∧ d.Landed (effectOf i) d' := by
  obtain ⟨t, rx, n, w, hst, -, rfl, hwbusy, ht, hat', -⟩ := hs.exec_frame hat hph hi
    (Instr.mutating_of_polls hp) rfl hpd fun h => by rw [hwip] at h; cases h
  have ht : t.Served c l (k :: ns) { w.dev with wel := true } := hwbusy ▸ ht
  obtain ⟨u, d', htu, hu, hat'', hpolls, heff⟩ := ht.exec_mutating_command hp hi hat' hk hpd hwip rfl
  have landed : ∃ v ph' d', u.reaches v ∧ v.Served c l ns d' ∧ ph' ≠ .idle ∧ v.standsAt i .pollRead ph' ∧
      w.dev.Landed (effectOf i) d' := by
    rcases heff with ⟨rfl, hpos⟩ | hland
    · obtain ⟨m, rfl⟩ := Nat.exists_eq_add_of_le' hpos
      obtain ⟨v, ph', d', huv, hv, hph', hat3, hland⟩ :=
        State.Served.poll_rounds hp hi hu (by simp) hat'' hpd rfl rfl rfl (by omega)
      exact ⟨v, ph', d', huv, hv, hph', hat3, hland.pd, hland.wip, hland.mem⟩
    · exact ⟨u, _, d', ⟨0, rfl⟩, hu, by simp, hat'', hland.pd, hland.wip, hland.mem⟩
  obtain ⟨v, ph', d', huv, hv, hph', hat3, hland⟩ := landed
  obtain ⟨z, hvz, hz, hzw⟩ := hv.poll_ready hp hi hph' hat3 hland.pd hland.wip
  exact ⟨z, d', ((hst.trans htu).trans huv).trans hvz, hz, hzw, hland⟩

/-- An erase that waits, offered at a ready device, ends with its region erased (47_erase.md R280). -/
theorem State.Served.runs_erase {k : Nat} (hs : s.Served c (.command i :: l) (k :: ns) d)
    (hw : s.waiting) (hp : i.polls = true) (hpp : i.toCommand ≠ .pageProgram) (hi : i.framable = true)
    (ha : i.absentIn c = false) (hk : 1 ≤ k) (hlt : k < c.pollMax) (hpd : d.pd = false)
    (hwip : d.wip = false) :
    ∃ t d', s.reaches t ∧ t.Served c l ns d' ∧ t.waiting ∧ d.Landed (effectOf i) d' := by
  obtain ⟨t, hst, ht, hat⟩ := hs.accepts hw ha hi
  rw [ruleOf_start, if_neg hpp, if_pos (Instr.mutating_of_polls hp)] at hat
  obtain ⟨u, d', htu, hu⟩ := ht.runs_mutating hp hi (by simp) hat (.inl hk) hlt hpd hwip
  exact ⟨u, d', hst.trans htu, hu⟩

/-- PAGE_PROGRAM, offered at a ready device, ends with its payload programmed (46_page_program.md R260). -/
theorem State.Served.runs_program {k : Nat} {x : AddrOperand} {b : List Byte}
    (hs : s.Served c (.command (.pageProgram x b) :: l) (k :: ns) d) (hw : s.waiting)
    (hi : (Instr.pageProgram x b).framable = true) (hlt : k < c.pollMax) (hpd : d.pd = false)
    (hwip : d.wip = false) :
    ∃ t d', s.reaches t ∧ t.Served c l ns d' ∧ t.waiting ∧ d.Landed (programEffect x.address b) d' := by
  obtain ⟨t, hst, ht, hat⟩ := hs.accepts hw rfl hi
  obtain ⟨u, rx, n, w, htu, hrx, rfl, hwbusy, hu, hat', -⟩ :=
    ht.exec_frame (p := .busyCheck) hat (by simp) hi rfl rfl hpd fun _ => rfl
  have hb : busy (byteAt rx 1) = false := (busy_status_answer hrx).trans hwip
  simp only [Instr.posAfter, Instr.phaseAfter, hb, Bool.false_eq_true, if_false] at hat'
  simp only [Instr.commandAt, deviceEffect, Env.countDown_of_not_busy hwip, hwbusy] at hu
  obtain ⟨v, d', huv, hv⟩ := hu.runs_mutating rfl hi (by simp) hat' (.inr rfl) hlt hpd hwip
  exact ⟨v, d', (hst.trans htu).trans huv, hv⟩

end Served

/-! ## Writing, then reading -/

/-- Settles O54: the erase has landed when the read is offered, which reads the erased region. -/
theorem eraseThenReadReturnsErasedBytes : Obligations.EraseThenReadReturnsErasedBytes := by
  intro s i base size x n k ks hi hw hchan herase hx hlo hhi hwin hl hfail hpd hwip hbusy hk hlt hhost
  obtain ⟨hp, hpp, hfr, ha, he⟩ : i.polls = true ∧ i.toCommand ≠ .pageProgram ∧ i.framable = true ∧
      i.absentIn s.cfg = false ∧ effectOf i = .erase base size := by
    cases i
    case sectorErase | blockErase64K | blockErase32K | chipErase =>
      simp_all [Instr.polls, Instr.toCommand, Instr.framable, Instr.absentIn, effectOf]
    all_goals exact herase.elim
  obtain ⟨t, d, hst, ht, htw, hland⟩ := State.Served.runs_erase
    ⟨rfl, hchan, hhost, hw.1, hl, hfail, hbusy, rfl⟩ hw hp hpp hfr ha hk hlt hpd hwip
  obtain ⟨u, bs, htu, hu, huw, hresp, hlen, hbs⟩ := ht.runs_read htw hx hland.pd hland.wip
  obtain ⟨j, hj⟩ := hst.trans htu
  obtain ⟨m, hmem⟩ := hland.mem
  rw [he] at hmem
  refine ⟨j, u, hj, huw, hu.host, ?_, fun a => ?_⟩
  · rw [hresp, List.eq_replicate_iff.2 ⟨hlen, fun b hb => ?_⟩]
    obtain ⟨j, hj, rfl⟩ := List.mem_iff_getElem.1 hb
    have hget := hbs j (hlen ▸ hj) (by omega)
    rw [List.getElem?_eq_getElem hj, hmem, Memory.read_after_erase _ _ (by omega) (by omega)] at hget
    exact Option.some.inj hget
  · rw [hu.dev, hmem]
    split
    · exact Memory.read_after_erase _ _ ‹_ ∧ _›.1 ‹_ ∧ _›.2
    · exact Memory.read_after_of_not_covers (e := .erase base size) hi.device.mem _ trivial ‹_›

/-- Settles O55: the payload has landed when the read is offered, and over erased bytes it is what is
read. -/
theorem programThenReadReturnsTheProgrammedBytes :
    Obligations.ProgramThenReadReturnsTheProgrammedBytes := by
  intro s x b k ks hi hw hchan hx hpage herased hl hfail hpd hwip hbusy hlt hhost
  have hfr : (Instr.pageProgram x b).framable = true := by
    have hlen : b.length ≤ 256 := by omega
    simp [Instr.framable, hx, hlen, Config.pageSize]
  obtain ⟨t, d, hst, ht, htw, hland⟩ := State.Served.runs_program
    ⟨rfl, hchan, hhost, hw.1, hl, hfail, hbusy, rfl⟩ hw hfr hlt hpd hwip
  obtain ⟨u, bs, htu, hu, huw, hresp, hlen, hbs⟩ := ht.runs_read htw hx hland.pd hland.wip
  obtain ⟨j, hj⟩ := hst.trans htu
  obtain ⟨m, hmem⟩ := hland.mem
  have hlt := address_lt hx
  have hwf : (programEffect x.address b).wf := programEffect_wf hlt
  rw [programEffect_eq, if_pos hpage] at hwf hmem
  refine ⟨j, u, hj, huw, hu.host, ?_, fun a ha => ?_⟩
  · have : bs = b := by
      refine List.ext_getElem hlen fun j hj hjb => ?_
      have hne : b.length ≠ 0 := Nat.ne_of_gt (Nat.zero_lt_of_lt hjb)
      rw [if_neg hne] at hwf hmem
      have hget := hbs j hjb (by rw [Config.addrTxLimit] at hlt; omega)
      rw [List.getElem?_eq_getElem hj, hmem, Memory.read_after_program hi.device.mem hwf,
        herased j hjb, List.getElem?_eq_getElem hjb, Option.getD_some] at hget
      rw [Option.some.inj hget]
      exact BitVec.allOnes_and
    rw [hresp, this]
  · rw [hu.dev, hmem]
    refine Memory.read_after_of_not_covers hi.device.mem _ hwf ?_
    split <;> simp only [Effect.covers, not_false_eq_true]
    omega

end Sys2Proof.Machine
end
